-- ==== Sys2Proof/Word.lean ====
section
/-! DEFINITION. The word types of the uTP packet engine: the widths of 00_scope.md rule R11 and the byte strings of
rule R14. -/

namespace Sys2Proof

/-- One byte of a datagram or of a payload. -/
abbrev Byte := BitVec 8

/-- Sequence numbers, acknowledgment numbers, connection ids (R11). Arithmetic wraps: `u16` of R13. -/
abbrev U16 := BitVec 16

/-- Timestamps, `tdiff`, `wnd`, the clock sample (R11). Arithmetic wraps: `u32` of R13. -/
abbrev U32 := BitVec 32

/-- A byte string, offset 0 first on the wire (R14). -/
abbrev Bytes := List Byte

end Sys2Proof
end

