-- ==== Sys2Proof/Config.lean ====
section
/-! DEFINITION. The fixed parameters of 00_scope.md rule R9 with the values the source gives, and the types that
stand for the spec's open parameter types (R10). The Boolean parameters of R10 and the number of contexts are fields
of `Machine.State`, so that a statement about every state holds for every value of them. One free value. -/

namespace Sys2Proof.Config

/-- `C`, the ring capacity, the receive window and the bound of an acknowledgment's range (R9). -/
abbrev ringCap : Nat := 512

/-- `CAP` = `C - 1`, the in-flight cap for DATA segments (R9, R166). -/
abbrev cap : Nat := 511

/-- `MTU`, the longest payload of a DATA packet the engine builds (R9, R167). -/
abbrev mtu : Nat := 1400

/-- `HDR`, the header length in bytes (R9). -/
abbrev hdrLen : Nat := 20

/-- `VERSION`, the version nibble written (R9, R81). -/
abbrev version : BitVec 4 := 1

/-- `EXT`, the extension byte written (R9). -/
abbrev ext : Byte := 0

/-- `WINDOW`, the window field written (R9, R160). -/
abbrev window : U32 := 262144

/-- `TDIFF`, the timestampDiff field written (R9, R160). -/
abbrev tdiff : U32 := 0

/-- `RETX_TIMEOUT` in microseconds (R9, R180). -/
abbrev retxTimeout : U32 := 500000

/-- `ADDR`, the peer address type, of which the engine uses equality only (R10, D4). DESIGN CHOICE (entry 5): any
byte string. Safe: no rule looks inside one. -/
abbrev Addr := Bytes

/-- The opaque item of the test ring (R86 `v`). DESIGN CHOICE (entry 6): any byte string. Safe: no rule looks inside
one. -/
abbrev Item := Bytes

/-- `MAX_CONN` of the machine `State.reset` describes (R10, OPEN). DESIGN CHOICE (entry 4), unsafe: a statement about
`State.reset` alone could lean on the number. Every other state has as many contexts as its slot table is long. -/
abbrev resetMaxConn : Nat := 4

/-- What a 32-bit status register shows for a length or a count of 2^32 or more, which R38 and R40 do not state: a free
value (entry 21). -/
opaque overlongRegister : Nat → U32

end Sys2Proof.Config
end

