-- ==== Sys2Proof/Syntax.lean ====
section
/-! DEFINITION. The syntax of the engine: packets (10_state.md rule R21), wire headers (30_encoding.md rule R80),
commands (rules R86, R87), and one constructor of `Instr` per row of spec/opcode_table.json. -/

namespace Sys2Proof

open Sys2Proof.Config

/-- Packet type codes (R82). A packet's type is any 4-bit value; 5 to 15 occur only as a decode result (R85). -/
abbrev tyData : BitVec 4 := 0
/-- FIN = 1 (R82). -/
abbrev tyFin : BitVec 4 := 1
/-- STATE = 2 (R82). -/
abbrev tyState : BitVec 4 := 2
/-- RESET = 3 (R82). -/
abbrev tyReset : BitVec 4 := 3
/-- SYN = 4 (R82). -/
abbrev tySyn : BitVec 4 := 4

/-- The packet record of R21. It holds no version and no extension field. -/
structure Packet where
  type : BitVec 4 := 0
  conn : U16 := 0
  ts : U32 := 0
  tdiff : U32 := 0
  wnd : U32 := 0
  seq : U16 := 0
  ack : U16 := 0
  /-- `none`, or a string of length at least 1 (R21). -/
  payload : Option Bytes := none
  deriving DecidableEq, Repr

/-- The header fields of a wire packet beside its type code (R80), the two that decoding ignores among them, so that
a surfaced datagram keeps every byte it came with (R192). -/
structure WireHeader where
  /-- Byte 0 bits [3:0], ignored on decode (R85). -/
  ver : BitVec 4 := 1
  /-- Byte 1, ignored on decode (R85). -/
  ext : Byte := 0
  conn : U16 := 0
  ts : U32 := 0
  tdiff : U32 := 0
  wnd : U32 := 0
  seq : U16 := 0
  ack : U16 := 0
  deriving DecidableEq, Repr

/-- A socket id (R35): the listener's shared socket, or the private socket of the context in slot `i`. -/
inductive Sock where
  | lsock
  | psock (i : Nat)
  deriving DecidableEq, Repr

/-- Where a datagram arrived, with what the socket layer gives along with it: on `LSOCK` the sender's address and the
draw `isn` (the arguments of DGRAM_L, R192), on `PSOCK(c)` the sender's address (those of DGRAM_P, R198). -/
inductive Rx where
  | lsock (addr : Addr) (isn : U16)
  | psock (c : Nat) (addr : Addr)
  deriving DecidableEq, Repr

/-- Every argument a command can carry (R86). A command uses those its op lists (R87) and ignores the rest. -/
structure Args where
  /-- A connection handle: a slot number. -/
  c : Nat := 0
  addr : Addr := []
  bytes : Bytes := []
  isn : U16 := 0
  port : U16 := 0
  s : U16 := 0
  /-- An 8-bit register number. -/
  r : Byte := 0
  sock : Sock := .lsock
  /-- The ring selector: `OUT` = 0, `IN` = 1, anything else refused (R203). -/
  which : Byte := 0
  p : Packet := {}
  v : Item := []
  deriving DecidableEq, Repr

/-- What is handed to the engine in one piece. DESIGN CHOICE (entries 1, 2): a command is the record `{op, now, args}`
of R86; a datagram frame is a socket's delivery of raw bytes (R235 `onMessage`). -/
inductive Frame where
  | command (op : Byte) (now : U32) (args : Args)
  | datagram (now : U32) (rx : Rx) (bytes : Bytes)
  deriving DecidableEq, Repr

/-- The instructions: one constructor per row of spec/opcode_table.json. Each carries the clock sample `now` of its
operation (R27, R86). The first five are the wire packet types, as received on a socket (entry 2). -/
inductive Instr where
  /-- Receipt of a DATA packet (R144, R146, R147, R150, R151). -/
  | data (now : U32) (rx : Rx) (h : WireHeader) (payload : Option Bytes)
  /-- Receipt of a FIN packet (R144, R146, R147, R150, R151). -/
  | fin (now : U32) (rx : Rx) (h : WireHeader) (payload : Option Bytes)
  /-- Receipt of a STATE packet (R145, R146, R147). -/
  | state (now : U32) (rx : Rx) (h : WireHeader) (payload : Option Bytes)
  /-- Receipt of a RESET packet (R143). -/
  | reset (now : U32) (rx : Rx) (h : WireHeader) (payload : Option Bytes)
  /-- Receipt of a SYN packet (R142, R192, R198). -/
  | syn (now : U32) (rx : Rx) (h : WireHeader) (payload : Option Bytes)
  /-- ENCODE, op 0x01 (R100). -/
  | encode (now : U32) (p : Packet)
  /-- DECODE, op 0x02 (R101). -/
  | decode (now : U32) (bytes : Bytes)
  /-- RING_PUT, op 0x08 (R116). -/
  | ringPut (now : U32) (s : U16) (v : Item)
  /-- RING_GET, op 0x09 (R117). -/
  | ringGet (now : U32) (s : U16)
  /-- RING_DEL, op 0x0A (R118). -/
  | ringDel (now : U32) (s : U16)
  /-- LISTEN, op 0x10 (R191). -/
  | listen (now : U32)
  /-- LCLOSE, op 0x11 (R196). -/
  | lclose (now : U32)
  /-- DGRAM_L, op 0x12 (R192). -/
  | dgramL (now : U32) (addr : Addr) (bytes : Bytes) (isn : U16)
  /-- CONNECT, op 0x18 (R121). -/
  | connect (now : U32) (addr : Addr) (isn : U16)
  /-- BOUND, op 0x19 (R122). -/
  | bound (now : U32) (c : Nat) (port : U16)
  /-- DGRAM_P, op 0x1A (R198). -/
  | dgramP (now : U32) (c : Nat) (addr : Addr) (bytes : Bytes)
  /-- GRACE_EXPIRED, op 0x1B (R199). -/
  | graceExpired (now : U32) (c : Nat)
  /-- WRITE, op 0x20 (R164). -/
  | write (now : U32) (c : Nat) (bytes : Bytes)
  /-- END, op 0x21 (R125). -/
  | endWrite (now : U32) (c : Nat)
  /-- READ_END, op 0x22 (R126). -/
  | readEnd (now : U32) (c : Nat)
  /-- TICK_RETX, op 0x28 (R181). -/
  | tickRetx (now : U32) (c : Nat)
  /-- TICK_KA, op 0x29 (R182). -/
  | tickKa (now : U32) (c : Nat)
  /-- SOCK_ERR, op 0x30 (R200). -/
  | sockErr (now : U32) (sock : Sock)
  /-- CTX_READ, op 0x38 (R201). -/
  | ctxRead (now : U32) (c : Nat) (r : Byte)
  /-- GLB_READ, op 0x39 (R202). -/
  | glbRead (now : U32) (r : Byte)
  /-- RING_PEEK, op 0x3A (R203). -/
  | ringPeek (now : U32) (c : Nat) (which : Byte) (s : U16)
  deriving DecidableEq, Repr

end Sys2Proof
end

