-- ==== Sys2Proof/WellFormed.lean ====
section
/-! DEFINITION. Well-formed instructions. Widths are in the types; what is left to check is that a payload is absent or
has at least one byte (10_state.md rule R21), since a datagram of 20 bytes has no payload (30_encoding.md rule R84) and
no datagram carries an empty one. -/

namespace Sys2Proof

/-- A payload as R21 has it: `NONE`, or a string of length at least 1. -/
abbrev payloadOk (pl : Option Bytes) : Prop := pl ≠ some []

/-- Well-formed instructions. ENCODE runs on an empty payload too (R100), but such a record is no packet of R21. -/
def WellFormed : Instr → Prop
  | .data _ _ _ pl => payloadOk pl
  | .fin _ _ _ pl => payloadOk pl
  | .state _ _ _ pl => payloadOk pl
  | .reset _ _ _ pl => payloadOk pl
  | .syn _ _ _ pl => payloadOk pl
  | .encode _ p => payloadOk p.payload
  | .decode _ _ => True
  | .ringPut _ _ _ => True
  | .ringGet _ _ => True
  | .ringDel _ _ => True
  | .listen _ => True
  | .lclose _ => True
  | .dgramL _ _ _ _ => True
  | .connect _ _ _ => True
  | .bound _ _ _ => True
  | .dgramP _ _ _ _ => True
  | .graceExpired _ _ => True
  | .write _ _ _ => True
  | .endWrite _ _ => True
  | .readEnd _ _ => True
  | .tickRetx _ _ => True
  | .tickKa _ _ => True
  | .sockErr _ _ => True
  | .ctxRead _ _ _ => True
  | .glbRead _ _ => True
  | .ringPeek _ _ _ _ => True

end Sys2Proof
end

