-- ==== Sys2Proof/Decode.lean ====
section
/-! DEFINITION. The packet codec on byte strings (40_codec.md rules R100, R101), the decoder of frames into
instructions (30_encoding.md rules R80 to R88), and after it the encoder. -/

namespace Sys2Proof

open Sys2Proof.Config

/-! ### Big-endian fields (00_scope.md rule R14, 20_memory.md rule R64) -/

/-- The byte at offset `o`; the callers read only offsets inside the string. -/
def byteAt (B : Bytes) (o : Nat) : Byte := B.getD o 0

/-- `MemRead(B, o, 2)`. -/
def memRead16 (B : Bytes) (o : Nat) : U16 := byteAt B o ++ byteAt B (o + 1)

/-- `MemRead(B, o, 4)`. -/
def memRead32 (B : Bytes) (o : Nat) : U32 := memRead16 B o ++ memRead16 B (o + 2)

/-- The two bytes that `MemWrite(B, o, 2, v)` stores. -/
def bytes16 (v : U16) : Bytes := [v.extractLsb' 8 8, v.extractLsb' 0 8]

/-- The four bytes that `MemWrite(B, o, 4, v)` stores. -/
def bytes32 (v : U32) : Bytes := bytes16 (v.extractLsb' 16 16) ++ bytes16 (v.extractLsb' 0 16)

/-! ### The wire format (30_encoding.md rule R80) -/

/-- A datagram with the given type code, header fields and payload, laid out as R80. -/
def wireBytes (type : BitVec 4) (h : WireHeader) (payload : Option Bytes) : Bytes :=
  (type ++ h.ver : Byte) :: h.ext ::
    (bytes16 h.conn ++ bytes32 h.ts ++ bytes32 h.tdiff ++ bytes32 h.wnd ++ bytes16 h.seq ++ bytes16 h.ack
      ++ payload.getD [])

/-- The header ENCODE writes for a packet: version 1, extension 0 (R81, R9). -/
def Packet.header (p : Packet) : WireHeader :=
  { ver := version, ext := Config.ext, conn := p.conn, ts := p.ts, tdiff := p.tdiff, wnd := p.wnd, seq := p.seq,
    ack := p.ack }

/-- The packet record of a wire packet: version and extension are dropped (R21, R101). -/
def packetOf (type : BitVec 4) (h : WireHeader) (payload : Option Bytes) : Packet :=
  { type := type, conn := h.conn, ts := h.ts, tdiff := h.tdiff, wnd := h.wnd, seq := h.seq, ack := h.ack,
    payload := payload }

/-- ENCODE of R100. Total; an empty payload is as none. -/
def encodePacket (p : Packet) : Bytes := wireBytes p.type p.header p.payload

/-- The type nibble of a datagram (R83). -/
def wireType (B : Bytes) : BitVec 4 := (byteAt B 0).extractLsb' 4 4

/-- The header fields of a datagram, the ignored ones with them (R80, R83). -/
def wireHeader (B : Bytes) : WireHeader :=
  { ver := (byteAt B 0).extractLsb' 0 4, ext := byteAt B 1, conn := memRead16 B 2, ts := memRead32 B 4,
    tdiff := memRead32 B 8, wnd := memRead32 B 12, seq := memRead16 B 16, ack := memRead16 B 18 }

/-- The payload of a datagram, told by its length (R84). -/
def wirePayload (B : Bytes) : Option Bytes := if B.length = hdrLen then none else some (B.drop hdrLen)

/-- DECODE of R101: `none` is `SHORT`. -/
def decodePacket (B : Bytes) : Option Packet :=
  if B.length < hdrLen then none else some (packetOf (wireType B) (wireHeader B) (wirePayload B))

/-! ### Frames to instructions -/

/-- Why a frame is no instruction of the opcode table. -/
inductive DecodeError where
  /-- The op code is in no row of R87 (R88). -/
  | reservedOp (op : Byte)
  /-- A datagram of fewer than 20 bytes (R101). -/
  | shortDatagram
  /-- A datagram with type code 5 to 15 (R85). -/
  | unknownType (type : BitVec 4)
  deriving DecidableEq, Repr

/-- The command decoder: total on every op code (R87, R88). -/
def decodeCommand (op : Byte) (now : U32) (a : Args) : Except DecodeError Instr :=
  match op.toNat with
  | 0x01 => .ok (.encode now a.p)
  | 0x02 => .ok (.decode now a.bytes)
  | 0x08 => .ok (.ringPut now a.s a.v)
  | 0x09 => .ok (.ringGet now a.s)
  | 0x0A => .ok (.ringDel now a.s)
  | 0x10 => .ok (.listen now)
  | 0x11 => .ok (.lclose now)
  | 0x12 => .ok (.dgramL now a.addr a.bytes a.isn)
  | 0x18 => .ok (.connect now a.addr a.isn)
  | 0x19 => .ok (.bound now a.c a.port)
  | 0x1A => .ok (.dgramP now a.c a.addr a.bytes)
  | 0x1B => .ok (.graceExpired now a.c)
  | 0x20 => .ok (.write now a.c a.bytes)
  | 0x21 => .ok (.endWrite now a.c)
  | 0x22 => .ok (.readEnd now a.c)
  | 0x28 => .ok (.tickRetx now a.c)
  | 0x29 => .ok (.tickKa now a.c)
  | 0x30 => .ok (.sockErr now a.sock)
  | 0x38 => .ok (.ctxRead now a.c a.r)
  | 0x39 => .ok (.glbRead now a.r)
  | 0x3A => .ok (.ringPeek now a.c a.which a.s)
  | _ => .error (.reservedOp op)

/-- The wire decoder: total on every byte string (R83, R84, R85). -/
def decodeDatagram (now : U32) (rx : Rx) (B : Bytes) : Except DecodeError Instr :=
  if B.length < hdrLen then .error .shortDatagram
  else
    match (wireType B).toNat with
    | 0 => .ok (.data now rx (wireHeader B) (wirePayload B))
    | 1 => .ok (.fin now rx (wireHeader B) (wirePayload B))
    | 2 => .ok (.state now rx (wireHeader B) (wirePayload B))
    | 3 => .ok (.reset now rx (wireHeader B) (wirePayload B))
    | 4 => .ok (.syn now rx (wireHeader B) (wirePayload B))
    | _ => .error (.unknownType (wireType B))

/-- The decoder. -/
def decode : Frame → Except DecodeError Instr
  | .command op now args => decodeCommand op now args
  | .datagram now rx bytes => decodeDatagram now rx bytes

/-! ### Instructions to frames -/

/-- The encoder: a command with its op code and the arguments its op lists (R87), every other argument zero; a wire
packet as its datagram (R80). -/
def encode : Instr → Frame
  | .data now rx h pl => .datagram now rx (wireBytes tyData h pl)
  | .fin now rx h pl => .datagram now rx (wireBytes tyFin h pl)
  | .state now rx h pl => .datagram now rx (wireBytes tyState h pl)
  | .reset now rx h pl => .datagram now rx (wireBytes tyReset h pl)
  | .syn now rx h pl => .datagram now rx (wireBytes tySyn h pl)
  | .encode now p => .command 0x01 now { p := p }
  | .decode now bytes => .command 0x02 now { bytes := bytes }
  | .ringPut now s v => .command 0x08 now { s := s, v := v }
  | .ringGet now s => .command 0x09 now { s := s }
  | .ringDel now s => .command 0x0A now { s := s }
  | .listen now => .command 0x10 now {}
  | .lclose now => .command 0x11 now {}
  | .dgramL now addr bytes isn => .command 0x12 now { addr := addr, bytes := bytes, isn := isn }
  | .connect now addr isn => .command 0x18 now { addr := addr, isn := isn }
  | .bound now c port => .command 0x19 now { c := c, port := port }
  | .dgramP now c addr bytes => .command 0x1A now { c := c, addr := addr, bytes := bytes }
  | .graceExpired now c => .command 0x1B now { c := c }
  | .write now c bytes => .command 0x20 now { c := c, bytes := bytes }
  | .endWrite now c => .command 0x21 now { c := c }
  | .readEnd now c => .command 0x22 now { c := c }
  | .tickRetx now c => .command 0x28 now { c := c }
  | .tickKa now c => .command 0x29 now { c := c }
  | .sockErr now sock => .command 0x30 now { sock := sock }
  | .ctxRead now c r => .command 0x38 now { c := c, r := r }
  | .glbRead now r => .command 0x39 now { r := r }
  | .ringPeek now c which s => .command 0x3A now { c := c, which := which, s := s }

/-! ### One number to an instruction -/

/-- Is `op` in the table of R87? -/
def isOpCode (op : Byte) : Bool :=
  match decodeCommand op 0 {} with
  | .ok _ => true
  | .error _ => false

/-- The bytes of `w`, the least significant first, `n` of them. -/
def bytesOfNat : Nat → Nat → Bytes
  | 0, _ => []
  | n + 1, w => BitVec.ofNat 8 w :: bytesOfNat n (w / 256)

/-- The frame whose bits are `w`. DESIGN CHOICE (entry 3), unsafe only for what the table's one-byte rows are read as:
one byte can be an op code of R87 and byte 0 of a datagram as well (0x10 is LISTEN and the FIN row). 160 bits or more
are a datagram; fewer are a command if bits [7:0] are an op code of R87, with `now` in bits [39:8] and every argument
zero; the rest are a datagram with the missing header bytes 0, delivered on `LSOCK`. -/
def tableFrame (nbits w : Nat) : Frame :=
  if hdrLen * 8 ≤ nbits then .datagram 0 (.lsock [] 0) (bytesOfNat ((nbits + 7) / 8) w)
  else if isOpCode (BitVec.ofNat 8 w) then .command (BitVec.ofNat 8 w) (BitVec.ofNat 32 (w / 256)) {}
  else .datagram 0 (.lsock [] 0) (bytesOfNat hdrLen w)

/-- The instruction the decoder reads from an instruction whose bits are `w`. -/
def decodeTableWord (nbits w : Nat) : Option Instr := (decode (tableFrame nbits w)).toOption

end Sys2Proof
end

