-- ==== Sys2Proof/Machine/State.lean ====
section
/-! DEFINITION. The state of the engine: the block record `G` of 10_state.md rule R34, the connection contexts of rule
R23, the outputs of the last operation (rules R36, R228) and the inputs not yet taken; the two ways a step can stop;
and the state after reset (rule R43). -/

namespace Sys2Proof.Machine

open Sys2Proof.Config

/-- An outgoing entry: a packet and the clock value at its most recent transmission (R22). -/
structure OutEntry where
  packet : Packet
  tag : U32
  deriving DecidableEq, Repr

/-- A ring of 512 optional items (R110), as its occupied slots: pairs of a slot index and an item, the indices strictly
rising and below 512 (`Ring.wf`). A slot that is not listed is `NONE`. -/
abbrev Ring (α : Type) := List (Nat × α)

/-- The canonical form of a ring: indices strictly rising and below 512. -/
abbrev Ring.wf {α : Type} (r : Ring α) : Prop :=
  List.Pairwise (· < ·) (r.map Prod.fst) ∧ ∀ e ∈ r, e.1 < ringCap

/-- `c.role` (R23). -/
inductive Role where
  | accept
  | connect
  deriving DecidableEq, Repr

/-- `c.state` (R23, R29). -/
inductive ConnState where
  | connecting
  | connected
  | closed
  deriving DecidableEq, Repr

/-- The phase of a pending write (R31). -/
inductive Phase where
  | connectWait
  | flushWait
  deriving DecidableEq, Repr

/-- A pending write (R31); its data has at least one byte. -/
structure PendingWrite where
  data : Bytes
  phase : Phase
  deriving DecidableEq, Repr

/-- A connection context: the register set of R23. -/
structure Ctx where
  role : Role
  state : ConnState
  sock : Sock
  peer : Addr
  bound : Bool
  recvId : U16
  sendId : U16
  /-- The next sequence number a SYN, DATA or FIN takes (R25). -/
  seq : U16
  /-- The ack cursor (R26). -/
  ack : U16
  /-- Packets sent and not acknowledged, 0 to 512 (R24). -/
  inFlight : BitVec 10
  /-- `out` (R23, R48). -/
  outRing : Ring OutEntry
  /-- `in` (R23, R49). -/
  inRing : Ring Packet
  alive : Bool
  /-- The cached SYN-ACK (R32). -/
  synack : Option Packet
  pw : Option PendingWrite
  endReq : Bool
  finSent : Bool
  wdone : Bool
  rdone : Bool
  grace : Bool
  /-- Packets retransmitted by the tick, modulo 2^32 (R42). -/
  retxCount : U32
  deriving DecidableEq, Repr

/-- `G.lstate` (R34). -/
inductive LState where
  | idle
  | listening
  | shutting
  deriving DecidableEq, Repr

/-- The target of an error event: the listener, or a connection handle (R228). -/
inductive Target where
  | listener
  | conn (c : Nat)
  deriving DecidableEq, Repr

/-- The error code, the only one (R223). -/
inductive ErrCode where
  | errSocket
  deriving DecidableEq, Repr

/-- How a WRITE completed (R228). -/
inductive WriteStatus where
  | ok
  | rejected
  deriving DecidableEq, Repr

/-- The events of R36. `c` is the handle of the context. -/
inductive Event where
  | tx (sock : Sock) (addr : Addr) (bytes : Bytes)
  | rxData (c : Nat) (bytes : Bytes)
  | rxEof (c : Nat)
  | evConnect (c : Nat)
  | evAccept (c : Nat)
  | evClose (c : Nat)
  | evError (target : Target) (code : ErrCode)
  | writeDone (c : Nat) (status : WriteStatus)
  | unrecognized (sock : Sock) (addr : Addr) (bytes : Bytes)
  | bindReq (c : Nat)
  | timerStart (c : Nat)
  | timerStop (c : Nat)
  | graceStart (c : Nat)
  | sockClose (sock : Sock)
  | evLclosed
  deriving DecidableEq, Repr

/-- The reason of a refused command (R224). The engine goes on after it; it is no refusal of the model. -/
inductive Reason where
  | reservedOp
  | reservedReg
  | writeBusy
  | listenState
  deriving DecidableEq, Repr

/-- The status of a result (R228). -/
inductive Status where
  | ok
  | badConn
  | short
  | tableFull
  | refused (reason : Reason)
  deriving DecidableEq, Repr

/-- The value of a result (R87). -/
inductive Value where
  | none
  | bytes (b : Bytes)
  | packet (p : Packet)
  | item (v : Option Item)
  | handle (c : Nat)
  /-- A 32-bit status register (R38, R40). -/
  | reg (v : U32)
  /-- The register `CTX_PEER` (R38). -/
  | addr (a : Addr)
  /-- A slot of an outgoing ring (R203). -/
  | outSlot (e : Option OutEntry)
  /-- A slot of an incoming ring (R203). -/
  | inSlot (p : Option Packet)
  deriving DecidableEq, Repr

/-- What a command returns (R86, R228). -/
structure Result where
  status : Status
  value : Value
  deriving DecidableEq, Repr

/-- The machine. -/
structure State where
  /-- `G.lstate` (R34). -/
  lstate : LState
  /-- `G.slot[0 .. MAX_CONN-1]`, `none` for FREE (R34). Its length is `MAX_CONN` (R10, entry 4). -/
  slots : List (Option Ctx)
  /-- `G.tring` (R34, R119). -/
  tring : Ring Item
  /-- The parameter `DUP_AT_CURSOR_STALE` (R10, entry 8). -/
  dupAtCursorStale : Bool
  /-- The parameter `RETX_TAG_REFRESH` (R10, entry 8). -/
  retxTagRefresh : Bool
  /-- The frames handed to the engine and not yet taken, the next one first (entry 1). -/
  port : List Frame
  /-- The ordered event list of the last operation (R36, R37; entry 9). -/
  events : List Event
  /-- The result of the last operation (R228; entry 9). -/
  result : Option Result
  deriving DecidableEq, Repr

/-- `MAX_CONN` (R10). -/
def State.maxConn (s : State) : Nat := s.slots.length

/-- The faults of the model. The engine has none (R229); these stop the model where the rules read what is not there,
which no state of a run from reset does (entry 10). -/
inductive Fault where
  /-- Raised by TICK_RETX when a slot of the outgoing ring that an in-flight sequence number names is `NONE`, which R48
  rules out. Safe: the model stops. -/
  | outEntryMissing
  /-- Raised by a SYN that reaches an accepting-role context without a cached SYN-ACK, which R32 and R46 rule out.
  Safe: the model stops. -/
  | synAckMissing
  deriving DecidableEq, Repr

/-- The refusals of the model. -/
inductive Refusal where
  /-- Raised by `exec` for an instruction without a meaning; no arm does. Safe: the model stops. -/
  | notModelled (mnemonic : String)
  deriving DecidableEq, Repr

/-- What an operation answers. -/
abbrev Answer := Host.Outcome State Fault Refusal

/-- The state after reset for given parameters (R43, R250). -/
def State.resetWith (maxConn : Nat) (dupAtCursorStale retxTagRefresh : Bool) : State :=
  { lstate := .idle, slots := List.replicate maxConn none, tring := [], dupAtCursorStale := dupAtCursorStale,
    retxTagRefresh := retxTagRefresh, port := [], events := [], result := none }

/-- The machine right after reset (R43, R250), with the default parameters of R10 and `resetMaxConn` slots. -/
def State.reset : State := State.resetWith resetMaxConn false true

end Sys2Proof.Machine
end

