-- ==== Sys2Proof/Machine/Flags.lean ====
section
/-! DEFINITION. The tests and derived values that the rules compute: the base of the outgoing window (10_state.md rule
R24), the staleness test (43_conn_receive.md rule R146), the acknowledgment count (rule R148), ages
(45_conn_timers.md rule R180), the close latch (42_conn_lifecycle.md rule R127), and the status words (10_state.md
rules R38 to R40). -/

namespace Sys2Proof.Machine

open Sys2Proof.Config

/-- `base(c) = u16(c.seq - c.inFlight)`, the oldest unacknowledged sequence number (R24). -/
def Ctx.base (c : Ctx) : U16 := c.seq - c.inFlight.setWidth 16

/-- The number of entries that acknowledgment number `a` covers (R148). -/
def Ctx.ackCount (c : Ctx) (a : U16) : U16 := a - c.base + 1

/-- The staleness test of step 5 (R146). -/
def isStale (dupAtCursorStale : Bool) (ack seq : U16) : Bool :=
  decide (ringCap ≤ (seq - ack).toNat) || (dupAtCursorStale && decide (seq - ack = 0))

/-- `age(e) > RETX_TIMEOUT`, wrap-safe and strict (R180). -/
def isExpired (now tag : U32) : Bool := decide (retxTimeout < now - tag)

/-- The latch of R127: both inputs set and the context not yet closed. -/
def Ctx.latched (c : Ctx) : Bool := decide (c.state ≠ .closed) && c.wdone && c.rdone

/-- The condition of `TryFin` (R169). -/
def Ctx.finDue (c : Ctx) : Bool :=
  c.endReq && !c.finSent && c.pw.isNone && decide (c.state = .connected)

/-- `CTX_STATUS.STATE` (R39). -/
def ConnState.code : ConnState → BitVec 2
  | .connecting => 0
  | .connected => 1
  | .closed => 2

/-- `CTX_STATUS.ROLE` (R39). -/
def Role.code : Role → BitVec 1
  | .accept => 0
  | .connect => 1

/-- `GLB_STATUS.LSTATE` (R40). -/
def LState.code : LState → BitVec 2
  | .idle => 0
  | .listening => 1
  | .shutting => 2

/-- `CTX_STATUS.PW_PHASE`: 0 when no write is pending (R39). -/
def phaseBit : Option PendingWrite → Bool
  | some ⟨_, .flushWait⟩ => true
  | _ => false

/-- `CTX_STATUS` (R39): bit 12 `GRACE` first, bits [1:0] `STATE` last, bits [31:13] zero. -/
def Ctx.statusWord (c : Ctx) : U32 :=
  (BitVec.ofBool c.grace ++ BitVec.ofBool c.synack.isSome ++ BitVec.ofBool (phaseBit c.pw) ++ BitVec.ofBool c.pw.isSome ++
    BitVec.ofBool c.rdone ++ BitVec.ofBool c.wdone ++ BitVec.ofBool c.finSent ++ BitVec.ofBool c.endReq ++
    BitVec.ofBool c.alive ++ BitVec.ofBool c.bound ++ c.role.code ++ c.state.code).setWidth 32

/-- A length or a count in a 32-bit status register (R38, R40). DESIGN CHOICE (entry 21), safe: one that does not fit
shows a free value. -/
def registerOf (n : Nat) : U32 := if n < 2 ^ 32 then BitVec.ofNat 32 n else overlongRegister n

/-- `CTX_PW_LEN` (R38). -/
def Ctx.pwLen (c : Ctx) : U32 :=
  match c.pw with
  | none => 0
  | some w => registerOf w.data.length

/-- `GLB_STATUS` (R40). -/
def State.statusWord (s : State) : U32 := s.lstate.code.setWidth 32

/-- `GLB_NCONN`: the number of slots that are not FREE (R40). -/
def State.nConn (s : State) : U32 := registerOf (s.slots.countP Option.isSome)

end Sys2Proof.Machine
end

