-- ==== Sys2Proof/Machine/Operands.lean ====
section
/-! DEFINITION. Operands: the ring primitives by sequence number (41_ring.md rules R110 to R113), handles
(42_conn_lifecycle.md rule R131), the lookup of a routing key (46_demux.md rules R193, R194), the lowest FREE slot
(rule R195), and the status registers by number (10_state.md rules R38, R40). -/

namespace Sys2Proof.Machine

open Sys2Proof.Config

/-! ### Ring slots -/

/-- `slot(s) = s & MASK` (R110, R62). -/
def ringIx (s : U16) : Nat := s.toNat % ringCap

/-- The item in slot `j`. -/
def ringAt {α : Type} : Ring α → Nat → Option α
  | [], _ => none
  | (k, v) :: t, j => if k = j then some v else ringAt t j

/-- Slot `j` set to `v`; the canonical form is kept. -/
def ringSet {α : Type} : Ring α → Nat → α → Ring α
  | [], j, v => [(j, v)]
  | (k, w) :: t, j, v =>
    if j < k then (j, v) :: (k, w) :: t
    else if j = k then (j, v) :: t
    else (k, w) :: ringSet t j v

/-- `RingGet(r, s)` (R112). -/
def ringGet {α : Type} (r : Ring α) (s : U16) : Option α := ringAt r (ringIx s)

/-- `RingPut(r, s, v)` (R111). -/
def ringPut {α : Type} (r : Ring α) (s : U16) (v : α) : Ring α := ringSet r (ringIx s) v

/-- The ring that `RingDel(r, s)` leaves (R113); what it returns is `ringGet r s`. -/
def ringDel {α : Type} (r : Ring α) (s : U16) : Ring α := r.filter fun e => e.1 ≠ ringIx s

/-! ### Handles -/

/-- The context a handle names: `none` for a handle at or above `MAX_CONN` and for a FREE slot (R131). -/
def State.ctx? (s : State) (c : Nat) : Option Ctx := (s.slots[c]?).join

/-- The connecting-role context a handle names (R131, for BOUND, DGRAM_P, GRACE_EXPIRED and SOCK_ERR). -/
def State.connectCtx? (s : State) (c : Nat) : Option Ctx :=
  match s.ctx? c with
  | some x => if x.role = .connect then some x else none
  | none => none

/-- The lowest FREE slot (R121, R195). -/
def State.freeSlot? (s : State) : Option Nat := s.slots.findIdx? Option.isNone

/-! ### Routing -/

/-- The effective id of the routing key (R193). -/
def effectiveId (p : Packet) : U16 := if p.type = tySyn then p.conn + 1 else p.conn

/-- Does a slot hold the accepting-role context of the key (R194)? -/
def hasKey (addr : Addr) (eff : U16) : Option Ctx → Bool
  | some c => decide (c.role = .accept) && decide (c.peer = addr) && decide (c.recvId = eff)
  | none => false

/-- `Lookup(addr, eff)` (R194). -/
def State.lookup (s : State) (addr : Addr) (eff : U16) : Option Nat := s.slots.findIdx? (hasKey addr eff)

/-- Does a slot hold an accepting-role context? -/
def isAccepting : Option Ctx → Bool
  | some c => decide (c.role = .accept)
  | none => false

/-! ### Status registers -/

/-- The register `r` of a context; `none` for a reserved number (R38). -/
def Ctx.register (c : Ctx) (r : Byte) : Option Value :=
  match r.toNat with
  | 0 => some (.reg c.statusWord)
  | 1 => some (.reg (c.recvId.setWidth 32))
  | 2 => some (.reg (c.sendId.setWidth 32))
  | 3 => some (.reg (c.seq.setWidth 32))
  | 4 => some (.reg (c.ack.setWidth 32))
  | 5 => some (.reg (c.inFlight.setWidth 32))
  | 6 => some (.addr c.peer)
  | 7 => some (.reg c.retxCount)
  | 8 => some (.reg c.pwLen)
  | _ => none

/-- The block register `r`; `none` for a reserved number (R40). -/
def State.register (s : State) (r : Byte) : Option Value :=
  match r.toNat with
  | 0 => some (.reg s.statusWord)
  | 1 => some (.reg s.nConn)
  | 2 => some (.reg (registerOf s.maxConn))
  | _ => none

/-- One slot of a context's ring by selector; `none` for a selector other than `OUT` = 0 and `IN` = 1 (R203). -/
def Ctx.ringSlot (c : Ctx) (which : Byte) (s : U16) : Option Value :=
  match which.toNat with
  | 0 => some (.outSlot (ringGet c.outRing s))
  | 1 => some (.inSlot (ringGet c.inRing s))
  | _ => none

end Sys2Proof.Machine
end

