-- ==== Sys2Proof/Machine/Ops.lean ====
section
/-! DEFINITION. The shared operations: the sub-operations of 30_encoding.md rule R94, in three layers. Operations on one
context read and write only that context and emit events (`Run`). Operations on the block place a context, tear it
down, or close the listener. Answers end a command with its result. The engine has no traps (60_exceptions.md rules
R229, R230), so there is no exception entry and no return from one. -/

namespace Sys2Proof.Machine

open Sys2Proof.Config

/-! ### Operations on one context -/

/-- A context in the middle of an operation, with the events emitted so far (R36, R37). -/
structure Run where
  ctx : Ctx
  ev : List Event
  deriving DecidableEq, Repr

/-- `emit` (R15): append an event. -/
def Run.emit (r : Run) (e : Event) : Run := { r with ev := r.ev ++ [e] }

/-- `MakePacket(c, type, payload)` (R160). -/
def makePacket (now : U32) (c : Ctx) (type : BitVec 4) (payload : Option Bytes) : Packet :=
  { type := type, conn := if type = tySyn then c.recvId else c.sendId, ts := now, tdiff := tdiff, wnd := window,
    seq := c.seq, ack := c.ack, payload := payload }

/-- `Transmit(c, p)` (R161). -/
def transmit (p : Packet) (r : Run) : Run :=
  { ctx := { r.ctx with alive := true }, ev := r.ev ++ [.tx r.ctx.sock r.ctx.peer (encodePacket p)] }

/-- `SendAck(c)` (R162). -/
def sendAck (now : U32) (r : Run) : Run := transmit (makePacket now r.ctx tyState none) r

/-- `SendOutgoing(c, p)` (R163). -/
def sendOutgoing (p : Packet) (r : Run) : Run :=
  transmit p
    { r with
      ctx :=
        { r.ctx with
          outRing := ringPut r.ctx.outRing p.seq { packet := p, tag := p.ts }
          seq := r.ctx.seq + 1
          inFlight := r.ctx.inFlight + 1 } }

/-- `SendSyn(c)` (R170). -/
def sendSyn (now : U32) (r : Run) : Run := sendOutgoing (makePacket now r.ctx tySyn none) r

/-- `MakeSynAck(c)` (R171). -/
def makeSynAck (now : U32) (c : Ctx) : Packet := makePacket now c tyState none

/-- `TryFin(c)` (R169). -/
def tryFin (now : U32) (r : Run) : Run :=
  if r.ctx.finDue then
    let r' := sendOutgoing (makePacket now r.ctx tyFin none) r
    { r' with ctx := { r'.ctx with finSent := true } }
  else r

/-- The loop of `Pump(c)` (R165) for the context in slot `i`, with a bound on its rounds. `Laws.Send.pump_loop` shows
that the bound `pump` gives it is never reached. -/
def pumpLoop (now : U32) (i : Nat) : Nat → Run → Run
  | 0, r => r
  | fuel + 1, r =>
    match r.ctx.pw with
    | none => r
    | some w =>
      if cap ≤ r.ctx.inFlight.toNat then
        { r with ctx := { r.ctx with pw := some { w with phase := .flushWait } } }
      else
        let r' := sendOutgoing (makePacket now r.ctx tyData (some (w.data.take mtu))) r
        if w.data.length ≤ mtu then
          tryFin now (Run.emit { r' with ctx := { r'.ctx with pw := none } } (.writeDone i .ok))
        else
          pumpLoop now i fuel
            { r' with ctx := { r'.ctx with pw := some { w with data := w.data.drop mtu } } }

/-- `Pump(c)` (R165). Each round but the last raises the in-flight count, which stops the loop at `CAP`, so `CAP` + 1
rounds are enough. -/
def pump (now : U32) (i : Nat) (r : Run) : Run :=
  if r.ctx.state = .connected then pumpLoop now i (cap + 1) r else r

/-- Does the flush signal resume the pending write (R149)? -/
def flushResumes : Option PendingWrite → Bool
  | some ⟨_, .flushWait⟩ => true
  | _ => false

/-- `OnFlush(c)` (R149). -/
def onFlush (now : U32) (i : Nat) (r : Run) : Run :=
  let r' : Run := if r.ctx.finSent then { r with ctx := { r.ctx with wdone := true } } else r
  if flushResumes r'.ctx.pw then pump now i r' else r'

/-- The removals of `RecvAck` (R148): `k` entries from sequence number `s` upward. -/
def dropAcked : Nat → U16 → Ctx → Ctx
  | 0, _, c => c
  | k + 1, s, c => dropAcked k (s + 1) { c with outRing := ringDel c.outRing s, inFlight := c.inFlight - 1 }

/-- `RecvAck(c, a)` (R148). -/
def recvAck (now : U32) (i : Nat) (a : U16) (r : Run) : Run :=
  let n := r.ctx.ackCount a
  if ringCap ≤ n.toNat then r
  else if r.ctx.inFlight.toNat < n.toNat then r
  else
    let r' : Run := { r with ctx := dropAcked n.toNat r.ctx.base r.ctx }
    if 1 ≤ n.toNat ∧ r'.ctx.inFlight = 0 then onFlush now i r' else r'

/-- What the drain loop does with a packet it takes out, after the cursor has advanced (R151). -/
def deliver (i : Nat) (q : Packet) (r : Run) : Run :=
  if r.ctx.rdone then r
  else if q.type = tyData then
    match q.payload with
    | some b => r.emit (.rxData i b)
    | none => r
  else if q.type = tyFin then
    Run.emit { r with ctx := { r.ctx with rdone := true } } (.rxEof i)
  else r

/-- The loop of `Drain(c)` (R151) with a bound on its rounds. -/
def drainLoop (i : Nat) : Nat → Run → Run
  | 0, r => r
  | fuel + 1, r =>
    match ringGet r.ctx.inRing (r.ctx.ack + 1) with
    | none => r
    | some q =>
      drainLoop i fuel
        (deliver i q
          { r with
            ctx := { r.ctx with inRing := ringDel r.ctx.inRing (r.ctx.ack + 1), ack := r.ctx.ack + 1 } })

/-- `Drain(c)` (R151). Each round empties a slot, so as many rounds as slots are occupied are enough. -/
def drain (i : Nat) (r : Run) : Run := drainLoop i r.ctx.inRing.length r

/-- `CompleteConnect(c, p)` (R124). -/
def completeConnect (now : U32) (i : Nat) (p : Packet) (r : Run) : Run :=
  let r1 := recvAck now i p.ack { r with ctx := { r.ctx with ack := p.seq - 1 } }
  let r2 := Run.emit { r1 with ctx := { r1.ctx with state := .connected } } (.evConnect i)
  tryFin now (if r2.ctx.pw.isSome then pump now i r2 else r2)

/-- Steps 5 to 8 of receive processing (R146, R147, R150). -/
def recvEstablished (now : U32) (i : Nat) (dupStale : Bool) (p : Packet) (r : Run) : Run :=
  if isStale dupStale r.ctx.ack p.seq then sendAck now r
  else
    let r1 := recvAck now i p.ack r
    if p.type = tyState then r1
    else sendAck now (drain i { r1 with ctx := { r1.ctx with inRing := ringPut r1.ctx.inRing p.seq p } })

/-- Steps 3 to 8 of receive processing (R144 to R150), for a packet that is neither SYN nor RESET at a context that is
not closed; such a packet is always handled. -/
def recvOpen (now : U32) (i : Nat) (dupStale : Bool) (p : Packet) (r : Run) : Run :=
  if r.ctx.state = .connecting then
    if p.type = tyState then
      let r1 := completeConnect now i p r
      match ringGet r1.ctx.inRing p.seq with
      | none => r1
      | some q =>
        recvEstablished now i dupStale q { r1 with ctx := { r1.ctx with inRing := ringDel r1.ctx.inRing p.seq } }
    else { r with ctx := { r.ctx with inRing := ringPut r.ctx.inRing p.seq p } }
  else recvEstablished now i dupStale p r

/-- The loop of the retransmit scan (R181) over `k` sequence numbers from `s` upward; `none` when a slot it reads is
`NONE`. -/
def retxLoop (now : U32) (refresh : Bool) : Nat → U16 → Run → Option Run
  | 0, _, r => some r
  | k + 1, s, r =>
    match ringGet r.ctx.outRing s with
    | none => none
    | some e =>
      if isExpired now e.tag then
        let r1 := transmit e.packet r
        retxLoop now refresh k (s + 1)
          { r1 with
            ctx :=
              { r1.ctx with
                outRing := if refresh then ringPut r1.ctx.outRing s { e with tag := now } else r1.ctx.outRing
                retxCount := r1.ctx.retxCount + 1 } }
      else retxLoop now refresh k (s + 1) r

/-- The keep-alive check of a connected context (R182). -/
def keepAlive (now : U32) (r : Run) : Run :=
  if r.ctx.alive then { r with ctx := { r.ctx with alive := false } } else sendAck now r

/-! ### Operations on the block -/

/-- `emit` (R15) for several events. -/
def State.emits (s : State) (es : List Event) : State := { s with events := s.events ++ es }

/-- `G.slot[i] <- o`. -/
def State.setSlot (s : State) (i : Nat) (o : Option Ctx) : State := { s with slots := s.slots.set i o }

/-- Run an operation on context `c` of slot `i`, put the context back and emit the events. -/
def State.runOn (s : State) (i : Nat) (c : Ctx) (f : Run → Run) : State :=
  (s.setSlot i (some (f ⟨c, []⟩).ctx)).emits (f ⟨c, []⟩).ev

/-- `ListenerCloseCheck()` (R197). -/
def listenerCloseCheck (s : State) : State :=
  if s.lstate = .shutting ∧ s.slots.any isAccepting = false then
    { s.emits [.sockClose .lsock, .evLclosed] with lstate := .idle }
  else s

/-- How a context is torn down (R129). -/
inductive CloseMode where
  | normal
  | noGrace
  deriving DecidableEq, Repr

/-- `Teardown(c, mode)` (R129) for context `c` of slot `i`. -/
def teardown (i : Nat) (c : Ctx) (mode : CloseMode) (s : State) : State :=
  let s1 := s.emits [.timerStop i, .evClose i]
  match c.role with
  | .accept => listenerCloseCheck (s1.setSlot i none)
  | .connect =>
    match mode with
    | .normal => (s1.setSlot i (some { c with grace := true })).emits [.graceStart i]
    | .noGrace => (s1.emits [.sockClose (.psock i)]).setSlot i none

/-- `ForceClose(c, mode)` (R128) for context `c` of slot `i`. -/
def forceClose (i : Nat) (c : Ctx) (mode : CloseMode) (s : State) : State :=
  if c.state = .closed then s
  else
    teardown i { c with pw := none, endReq := true, state := .closed } mode
      (if c.pw.isSome then s.emits [.writeDone i .rejected] else s)

/-- `EndOfOp(c)` (R127) for the context in slot `i`; nothing for a slot that the operation freed (R192, R198). -/
def endOfOp (i : Nat) (s : State) : State :=
  match s.ctx? i with
  | some c => if c.latched then teardown i { c with state := .closed } .normal s else s
  | none => s

/-- A new context with the values common to both roles (R44). -/
def freshCtx (role : Role) (state : ConnState) (sock : Sock) (peer : Addr) (bound : Bool) (recvId sendId seq ack : U16) :
    Ctx :=
  { role := role, state := state, sock := sock, peer := peer, bound := bound, recvId := recvId, sendId := sendId,
    seq := seq, ack := ack, inFlight := 0, outRing := [], inRing := [], alive := false, synack := none, pw := none,
    endReq := false, finSent := false, wdone := false, rdone := false, grace := false, retxCount := 0 }

/-- The creation values of the connecting role in slot `i` (R44, R45). -/
def newConnectCtx (i : Nat) (addr : Addr) (isn : U16) : Ctx :=
  freshCtx .connect .connecting (.psock i) addr false 0 0 isn 0

/-- The creation values of the accepting role for SYN `p`, but for the SYN-ACK (R44, R46). -/
def newAcceptCtx (addr : Addr) (p : Packet) (isn : U16) : Ctx :=
  freshCtx .accept .connected .lsock addr true (p.conn + 1) p.conn isn p.seq

/-- `AcceptCreate(i, addr, p, isn)` (R123). -/
def acceptCreate (now : U32) (i : Nat) (addr : Addr) (p : Packet) (isn : U16) (s : State) : State :=
  let c := newAcceptCtx addr p isn
  let sa := makeSynAck now c
  s.runOn i { c with synack := some sa } fun r => ((transmit sa (r.emit (.timerStart i))).emit (.evAccept i))

/-- What `RecvIncoming` leaves: the state, and whether the packet was handled (R140). -/
structure Received where
  state : State
  handled : Bool
  deriving DecidableEq, Repr

/-- `RecvIncoming(c, p)` (R140) on context `c` of slot `i`: step 0 (R141), step 1 (R142), step 2 (R143), then
`recvOpen`. -/
def recvIncoming (now : U32) (i : Nat) (c : Ctx) (p : Packet) (s : State) : Except Fault Received :=
  if c.state = .closed then .ok ⟨s, false⟩
  else if p.type = tySyn then
    match c.role with
    | .connect => .ok ⟨s, false⟩
    | .accept =>
      match c.synack with
      | some sa => .ok ⟨s.runOn i c (transmit sa), true⟩
      | none => .error .synAckMissing
  else if p.type = tyReset then
    .ok ⟨forceClose i { c with rdone := true } .normal (if c.rdone then s else s.emits [.rxEof i]), true⟩
  else .ok ⟨s.runOn i c (recvOpen now i s.dupAtCursorStale p), true⟩

/-! ### Answers -/

/-- The start of an operation: its event list is empty (R20, R36). -/
def State.start (s : State) : State := { s with events := [] }

/-- End an operation with a result (R228). -/
def State.answer (s : State) (status : Status) (value : Value) : Answer :=
  .next { s with result := some ⟨status, value⟩ }

/-- End an operation with status OK and no value. -/
def State.done (s : State) : Answer := s.answer .ok .none

/-- `return BADCONN` (R131): no state change, no event. -/
def State.badConn (s : State) : Answer := s.start.answer .badConn .none

/-- `refuse(reason)` (R224): no state change, no event. -/
def State.refuse (s : State) (reason : Reason) : Answer := s.start.answer (.refused reason) .none

/-- `discard` (R15): no state change, no event. -/
def State.discard (s : State) : Answer := s.start.done

/-- Surface a datagram (R190) and end the operation. -/
def State.surface (s : State) (sock : Sock) (addr : Addr) (raw : Bytes) : Answer :=
  (s.emits [.unrecognized sock addr raw]).done

end Sys2Proof.Machine
end

