-- ==== Sys2Proof/Machine/Codec.lean ====
section
/-! DEFINITION. The codec commands ENCODE and DECODE (40_codec.md rules R100, R101). -/

namespace Sys2Proof.Machine

/-- ENCODE (R100). -/
def execEncode (_now : U32) (p : Packet) (s : State) : Answer := s.start.answer .ok (.bytes (encodePacket p))

/-- DECODE (R101). -/
def execDecode (_now : U32) (bytes : Bytes) (s : State) : Answer :=
  match decodePacket bytes with
  | some p => s.start.answer .ok (.packet p)
  | none => s.start.answer .short .none

end Sys2Proof.Machine
end

