-- ==== Sys2Proof/Machine/Lifecycle.lean ====
section
/-! DEFINITION. The lifecycle commands CONNECT, BOUND, END and READ_END (42_conn_lifecycle.md rules R121, R122, R125,
R126). -/

namespace Sys2Proof.Machine

open Sys2Proof.Config

/-- CONNECT (R121). -/
def execConnect (_now : U32) (addr : Addr) (isn : U16) (s : State) : Answer :=
  match s.freeSlot? with
  | none => s.start.answer .tableFull .none
  | some i =>
    State.answer ((s.start.setSlot i (some (newConnectCtx i addr isn))).emits [.bindReq i, .timerStart i]) .ok (.handle i)

/-- The ids of BOUND and its SYN (R122). -/
def bindAndSyn (now : U32) (port : U16) (r : Run) : Run :=
  sendSyn now { r with ctx := { r.ctx with recvId := port, sendId := port + 1, bound := true } }

/-- BOUND (R122). -/
def execBound (now : U32) (c : Nat) (port : U16) (s : State) : Answer :=
  match s.connectCtx? c with
  | none => s.badConn
  | some x =>
    if x.bound = true ∨ x.state = .closed then s.start.done
    else (endOfOp c (s.start.runOn c x (bindAndSyn now port))).done

/-- The body of END: ask for the end of the write side, and send the FIN if it is due (R125, and R196 for LCLOSE). -/
def requestEnd (now : U32) (r : Run) : Run := tryFin now { r with ctx := { r.ctx with endReq := true } }

/-- END (R125). -/
def execEndWrite (now : U32) (c : Nat) (s : State) : Answer :=
  match s.ctx? c with
  | none => s.badConn
  | some x =>
    if x.state = .closed ∨ x.endReq = true then s.start.done
    else (endOfOp c (s.start.runOn c x (requestEnd now))).done

/-- READ_END (R126). -/
def execReadEnd (_now : U32) (c : Nat) (s : State) : Answer :=
  match s.ctx? c with
  | none => s.badConn
  | some x =>
    if x.state = .closed then s.start.done
    else (endOfOp c (s.start.setSlot c (some { x with rdone := true }))).done

end Sys2Proof.Machine
end

