-- ==== Sys2Proof/Machine/Router.lean ====
section
/-! DEFINITION. The router: the two receive paths, the listener commands, the grace period and socket errors
(46_demux.md rules R190 to R200). -/

namespace Sys2Proof.Machine

open Sys2Proof.Config

/-! ### Receive paths -/

/-- The end of a dispatch: surface a packet that was not handled, then the latch (R192, R198). -/
def afterReceive (i : Nat) (sock : Sock) (addr : Addr) (raw : Bytes) : Except Fault Received → Answer
  | .error f => .fault f
  | .ok r =>
    (endOfOp i (if r.handled then r.state else r.state.emits [.unrecognized sock addr raw])).done

/-- DGRAM_L after its decoding: packet `p` of type 0 to 4, decoded from `raw` (R192 to R195). -/
def routeListener (now : U32) (addr : Addr) (raw : Bytes) (isn : U16) (p : Packet) (s : State) : Answer :=
  match s.lookup addr (effectiveId p) with
  | some i =>
    match s.ctx? i with
    | some c => afterReceive i .lsock addr raw (recvIncoming now i c p s.start)
    | none => s.start.surface .lsock addr raw
  | none =>
    if p.type ≠ tySyn then s.start.surface .lsock addr raw
    else if s.lstate ≠ .listening then s.start.surface .lsock addr raw
    else
      match s.freeSlot? with
      | none => s.start.surface .lsock addr raw
      | some j => (acceptCreate now j addr p isn s.start).done

/-- DGRAM_P after its decoding, at the bound context `x` of slot `c`: packet `p` of type 0 to 4, decoded from `raw`
(R198). -/
def routePrivate (now : U32) (c : Nat) (x : Ctx) (addr : Addr) (raw : Bytes) (p : Packet) (s : State) : Answer :=
  if p.type = tySyn then s.discard
  else if p.conn ≠ x.recvId then s.start.surface (.psock c) addr raw
  else afterReceive c (.psock c) addr raw (recvIncoming now c x p s.start)

/-- DGRAM_L (R192). -/
def execDgramL (now : U32) (addr : Addr) (bytes : Bytes) (isn : U16) (s : State) : Answer :=
  match decodePacket bytes with
  | none => s.discard
  | some p =>
    if 4 < p.type.toNat then s.start.surface .lsock addr bytes
    else routeListener now addr bytes isn p s

/-- DGRAM_P (R198). -/
def execDgramP (now : U32) (c : Nat) (addr : Addr) (bytes : Bytes) (s : State) : Answer :=
  match s.connectCtx? c with
  | none => s.badConn
  | some x =>
    if x.bound = false then s.discard
    else
      match decodePacket bytes with
      | none => s.discard
      | some p =>
        if 4 < p.type.toNat then s.start.surface (.psock c) addr bytes
        else routePrivate now c x addr bytes p s

/-- A wire packet of type 0 to 4 received on a socket: the router's path for that socket (entry 2). -/
def receiveWire (now : U32) (rx : Rx) (raw : Bytes) (p : Packet) (s : State) : Answer :=
  match rx with
  | .lsock addr isn => routeListener now addr raw isn p s
  | .psock c addr =>
    match s.connectCtx? c with
    | none => s.badConn
    | some x => if x.bound = false then s.discard else routePrivate now c x addr raw p s

/-- A frame that holds no instruction: a reserved op code is refused (R88), a datagram that decodes to none of the five
types goes the router's way (R192, R198). -/
def rejectFrame (f : Frame) (s : State) : Answer :=
  match f with
  | .command _ _ _ => s.refuse .reservedOp
  | .datagram now (.lsock addr isn) bytes => execDgramL now addr bytes isn s
  | .datagram now (.psock c addr) bytes => execDgramP now c addr bytes s

/-! ### The listener -/

/-- LISTEN (R191). -/
def execListen (_now : U32) (s : State) : Answer :=
  if s.lstate = .idle then State.done { s.start with lstate := .listening } else s.refuse .listenState

/-- One round of LCLOSE's loop (R196). -/
def lcloseSlot (now : U32) (i : Nat) (s : State) : State :=
  match s.ctx? i with
  | some c =>
    if c.role = .accept then
      endOfOp i (if c.state ≠ .closed ∧ c.endReq = false then s.runOn i c (requestEnd now) else s)
    else s
  | none => s

/-- LCLOSE (R196). -/
def execLclose (now : U32) (s : State) : Answer :=
  if s.lstate = .listening then
    (listenerCloseCheck
      ((List.range s.maxConn).foldl (fun t i => lcloseSlot now i t) { s.start with lstate := .shutting })).done
  else s.start.done

/-! ### The grace period and socket errors -/

/-- GRACE_EXPIRED (R199). -/
def execGraceExpired (_now : U32) (c : Nat) (s : State) : Answer :=
  match s.connectCtx? c with
  | none => s.badConn
  | some x =>
    if x.grace = false then s.start.done
    else State.done ((s.start.emits [.sockClose (.psock c)]).setSlot c none)

/-- One round of the loop of a listener socket error (R200). -/
def failSlot (i : Nat) (s : State) : State :=
  match s.ctx? i with
  | some c => if c.role = .accept then forceClose i c .normal (s.emits [.evError (.conn i) .errSocket]) else s
  | none => s

/-- SOCK_ERR (R200). -/
def execSockErr (_now : U32) (sock : Sock) (s : State) : Answer :=
  match sock with
  | .lsock =>
    if s.lstate = .idle then s.start.done
    else
      State.done
        (((List.range s.maxConn).foldl (fun t i => failSlot i t)
          { s.start.emits [.evError .listener .errSocket] with lstate := .idle }).emits [.sockClose .lsock])
  | .psock i =>
    match s.connectCtx? i with
    | none => s.badConn
    | some c =>
      if c.state ≠ .closed then (forceClose i c .noGrace (s.start.emits [.evError (.conn i) .errSocket])).done
      else if c.grace = true then State.done ((s.start.emits [.sockClose (.psock i)]).setSlot i none)
      else s.start.done

end Sys2Proof.Machine
end

