-- ==== Sys2Proof/Machine/Receive.lean ====
section
/-! DEFINITION. The wire packet types, received on a socket (43_conn_receive.md rules R140 to R152). DESIGN CHOICE
(entry 2): a datagram frame of one of these types has the effect of the DGRAM_L or DGRAM_P command that carries the
same datagram, which is the only way the spec gives a packet into the engine (46_demux.md rule R190). -/

namespace Sys2Proof.Machine

/-- DATA received (R144, R146, R147, R150, R151). -/
def execData (now : U32) (rx : Rx) (h : WireHeader) (payload : Option Bytes) (s : State) : Answer :=
  receiveWire now rx (wireBytes tyData h payload) (packetOf tyData h payload) s

/-- FIN received (R144, R146, R147, R150, R151). -/
def execFin (now : U32) (rx : Rx) (h : WireHeader) (payload : Option Bytes) (s : State) : Answer :=
  receiveWire now rx (wireBytes tyFin h payload) (packetOf tyFin h payload) s

/-- STATE received (R145, R146, R147). -/
def execState (now : U32) (rx : Rx) (h : WireHeader) (payload : Option Bytes) (s : State) : Answer :=
  receiveWire now rx (wireBytes tyState h payload) (packetOf tyState h payload) s

/-- RESET received (R143). -/
def execReset (now : U32) (rx : Rx) (h : WireHeader) (payload : Option Bytes) (s : State) : Answer :=
  receiveWire now rx (wireBytes tyReset h payload) (packetOf tyReset h payload) s

/-- SYN received (R142, R192, R195, R198). -/
def execSyn (now : U32) (rx : Rx) (h : WireHeader) (payload : Option Bytes) (s : State) : Answer :=
  receiveWire now rx (wireBytes tySyn h payload) (packetOf tySyn h payload) s

end Sys2Proof.Machine
end

