-- ==== Sys2Proof/Machine/Ring.lean ====
section
/-! DEFINITION. The commands of the RING unit, on the test ring only (41_ring.md rules R116 to R119). -/

namespace Sys2Proof.Machine

open Sys2Proof.Config

/-- RING_PUT (R116). -/
def execRingPut (_now : U32) (s : U16) (v : Item) (st : State) : Answer :=
  State.done { st.start with tring := ringPut st.tring s v }

/-- RING_GET (R117). -/
def execRingGet (_now : U32) (s : U16) (st : State) : Answer := st.start.answer .ok (.item (ringGet st.tring s))

/-- RING_DEL (R118). -/
def execRingDel (_now : U32) (s : U16) (st : State) : Answer :=
  State.answer { st.start with tring := ringDel st.tring s } .ok (.item (ringGet st.tring s))

end Sys2Proof.Machine
end

