-- ==== Sys2Proof/Machine/Send.lean ====
section
/-! DEFINITION. WRITE (44_conn_send.md rule R164). -/

namespace Sys2Proof.Machine

open Sys2Proof.Config

/-- What WRITE does at a context with no write pending (R164). -/
def acceptWrite (now : U32) (i : Nat) (bytes : Bytes) (r : Run) : Run :=
  if r.ctx.state = .closed ∨ r.ctx.endReq = true then r.emit (.writeDone i .rejected)
  else if bytes = [] then r.emit (.writeDone i .ok)
  else if r.ctx.state = .connecting then { r with ctx := { r.ctx with pw := some ⟨bytes, .connectWait⟩ } }
  else pump now i { r with ctx := { r.ctx with pw := some ⟨bytes, .flushWait⟩ } }

/-- WRITE (R164). -/
def execWrite (now : U32) (c : Nat) (bytes : Bytes) (s : State) : Answer :=
  match s.ctx? c with
  | none => s.badConn
  | some x =>
    if x.pw.isSome then s.refuse .writeBusy
    else (endOfOp c (s.start.runOn c x (acceptWrite now c bytes))).done

end Sys2Proof.Machine
end

