-- ==== Sys2Proof/Machine/Status.lean ====
section
/-! DEFINITION. The status reads CTX_READ, GLB_READ and RING_PEEK (46_demux.md rules R201 to R203). -/

namespace Sys2Proof.Machine

/-- CTX_READ (R201): the handle check comes before the register check (R232). -/
def execCtxRead (_now : U32) (c : Nat) (r : Byte) (s : State) : Answer :=
  match s.ctx? c with
  | none => s.badConn
  | some x =>
    match x.register r with
    | none => s.refuse .reservedReg
    | some v => s.start.answer .ok v

/-- GLB_READ (R202). -/
def execGlbRead (_now : U32) (r : Byte) (s : State) : Answer :=
  match s.register r with
  | none => s.refuse .reservedReg
  | some v => s.start.answer .ok v

/-- RING_PEEK (R203). -/
def execRingPeek (_now : U32) (c : Nat) (which : Byte) (sq : U16) (s : State) : Answer :=
  match s.ctx? c with
  | none => s.badConn
  | some x =>
    match x.ringSlot which sq with
    | none => s.refuse .reservedReg
    | some v => s.start.answer .ok v

end Sys2Proof.Machine
end

