-- ==== Sys2Proof/Machine/Timers.lean ====
section
/-! DEFINITION. The ticks TICK_RETX and TICK_KA (45_conn_timers.md rules R181, R182). -/

namespace Sys2Proof.Machine

open Sys2Proof.Config

/-- TICK_RETX (R181). The loop reads a `NONE` slot only where R48 does not hold; that is a fault (entry 10). -/
def execTickRetx (now : U32) (c : Nat) (s : State) : Answer :=
  match s.ctx? c with
  | none => s.badConn
  | some x =>
    if x.state = .closed ∨ x.bound = false ∨ x.inFlight = 0 then s.start.done
    else
      match ringGet x.outRing x.base with
      | none => .fault .outEntryMissing
      | some first =>
        if isExpired now first.tag then
          match retxLoop now s.retxTagRefresh x.inFlight.toNat x.base ⟨x, []⟩ with
          | none => .fault .outEntryMissing
          | some r => (s.start.runOn c x fun _ => r).done
        else s.start.done

/-- TICK_KA (R182). -/
def execTickKa (now : U32) (c : Nat) (s : State) : Answer :=
  match s.ctx? c with
  | none => s.badConn
  | some x => if x.state = .connected then (s.start.runOn c x (keepAlive now)).done else s.start.done

end Sys2Proof.Machine
end

