-- ==== Sys2Proof/Machine/Dispatch.lean ====
section
/-! DEFINITION. One arm per instruction. -/

namespace Sys2Proof.Machine

def exec (i : Instr) (s : State) : Host.Outcome State Fault Refusal :=
  match i with
  | .data now rx h payload => Sys2Proof.Machine.execData now rx h payload s
  | .fin now rx h payload => Sys2Proof.Machine.execFin now rx h payload s
  | .state now rx h payload => Sys2Proof.Machine.execState now rx h payload s
  | .reset now rx h payload => Sys2Proof.Machine.execReset now rx h payload s
  | .syn now rx h payload => Sys2Proof.Machine.execSyn now rx h payload s
  | .encode now p => Sys2Proof.Machine.execEncode now p s
  | .decode now bytes => Sys2Proof.Machine.execDecode now bytes s
  | .ringPut now sq v => Sys2Proof.Machine.execRingPut now sq v s
  | .ringGet now sq => Sys2Proof.Machine.execRingGet now sq s
  | .ringDel now sq => Sys2Proof.Machine.execRingDel now sq s
  | .listen now => Sys2Proof.Machine.execListen now s
  | .lclose now => Sys2Proof.Machine.execLclose now s
  | .dgramL now addr bytes isn => Sys2Proof.Machine.execDgramL now addr bytes isn s
  | .connect now addr isn => Sys2Proof.Machine.execConnect now addr isn s
  | .bound now c port => Sys2Proof.Machine.execBound now c port s
  | .dgramP now c addr bytes => Sys2Proof.Machine.execDgramP now c addr bytes s
  | .graceExpired now c => Sys2Proof.Machine.execGraceExpired now c s
  | .write now c bytes => Sys2Proof.Machine.execWrite now c bytes s
  | .endWrite now c => Sys2Proof.Machine.execEndWrite now c s
  | .readEnd now c => Sys2Proof.Machine.execReadEnd now c s
  | .tickRetx now c => Sys2Proof.Machine.execTickRetx now c s
  | .tickKa now c => Sys2Proof.Machine.execTickKa now c s
  | .sockErr now sock => Sys2Proof.Machine.execSockErr now sock s
  | .ctxRead now c r => Sys2Proof.Machine.execCtxRead now c r s
  | .glbRead now r => Sys2Proof.Machine.execGlbRead now r s
  | .ringPeek now c which sq => Sys2Proof.Machine.execRingPeek now c which sq s

end Sys2Proof.Machine
end

