-- ==== Sys2Proof/Machine/Step.lean ====
section
/-! DEFINITION. One step: take the next frame, decode it, run it (20_memory.md rule R69). -/

namespace Sys2Proof.Machine

/-- One step. With no frame waiting the engine holds its state (60_exceptions.md rule R239). A frame that holds no
instruction is refused or goes the router's way (`rejectFrame`). -/
def step (s : State) : Host.Outcome State Fault Refusal :=
  match s.port with
  | [] => .next s
  | f :: rest =>
    match decode f with
    | .ok i => exec i { s with port := rest }
    | .error _ => rejectFrame f { s with port := rest }

/-- The instruction whose bits are `w`, put where `step` takes its next frame (entry 1). -/
def State.withFetchWord (s : State) (nbits w : Nat) : State := { s with port := tableFrame nbits w :: s.port }

end Sys2Proof.Machine
end

