-- ==== Sys2Proof/Machine/Codes.lean ====
section
/-! DEFINITION. The numbers of events, statuses, reasons and errors (30_encoding.md rule R89, 60_exceptions.md rules
R224, R228), for a host that carries them as numbered records. No rule of the machine reads one. -/

namespace Sys2Proof.Machine

/-- Event codes (R89). -/
def Event.code : Event → Byte
  | .tx _ _ _ => 0x01
  | .rxData _ _ => 0x02
  | .rxEof _ => 0x03
  | .evConnect _ => 0x04
  | .evAccept _ => 0x05
  | .evClose _ => 0x06
  | .evError _ _ => 0x07
  | .writeDone _ _ => 0x08
  | .unrecognized _ _ _ => 0x09
  | .bindReq _ => 0x0A
  | .timerStart _ => 0x0B
  | .timerStop _ => 0x0C
  | .graceStart _ => 0x0D
  | .sockClose _ => 0x0E
  | .evLclosed => 0x0F

/-- Reasons of a refusal (R224). -/
def Reason.code : Reason → Nat
  | .reservedOp => 1
  | .reservedReg => 2
  | .writeBusy => 3
  | .listenState => 4

/-- Result status codes (R228); `REFUSED` carries its reason's code beside it. -/
def Status.code : Status → Nat
  | .ok => 0
  | .badConn => 1
  | .short => 2
  | .tableFull => 3
  | .refused _ => 4

/-- `WRITE_DONE` status codes (R228). -/
def WriteStatus.code : WriteStatus → Nat
  | .ok => 0
  | .rejected => 1

/-- `EV_ERROR` codes (R228). -/
def ErrCode.code : ErrCode → Nat
  | .errSocket => 1

end Sys2Proof.Machine
end

