-- ==== Sys2Proof/Safety.lean ====
section
/-! DEFINITION. What counts as a legal state of the engine, and the terms in which the statements speak: the
invariants of 10_state.md rules R24, R28 to R32, R48, R51, the moves of a context (42_conn_lifecycle.md rule R120,
10_state.md rule R30), the segments of a write (44_conn_send.md rule R167), and which context a wire packet reaches
(46_demux.md rules R192 to R194, R198). -/

namespace Sys2Proof

open Sys2Proof.Config

/-- The socket a datagram arrived on. -/
def Rx.sock : Rx → Sock
  | .lsock _ _ => .lsock
  | .psock c _ => .psock c

/-- The sender's address. -/
def Rx.addr : Rx → Addr
  | .lsock addr _ => addr
  | .psock _ addr => addr

end Sys2Proof

namespace Sys2Proof.Machine

open Sys2Proof.Config

/-! ### Legal contexts -/

/-- The outgoing ring invariant (R48): the slots of `base + k` for `k` below the in-flight count hold the entries of
those sequence numbers, and every other slot is `NONE`. -/
abbrev OutRingOk (c : Ctx) : Prop :=
  Ring.wf c.outRing ∧ c.inFlight.toNat ≤ ringCap ∧
    (∀ k, k < c.inFlight.toNat →
      (ringGet c.outRing (c.base + BitVec.ofNat 16 k)).map (fun e => e.packet.seq) = some (c.base + BitVec.ofNat 16 k)) ∧
    ∀ j, j < ringCap → (∀ k, k < c.inFlight.toNat → j ≠ ringIx (c.base + BitVec.ofNat 16 k)) → ringAt c.outRing j = none

/-- A packet that fits a datagram the engine emits (R93): DATA with 1 to 1400 bytes of payload, or no payload. -/
abbrev payloadFits (p : Packet) : Prop := ∀ b ∈ p.payload, p.type = tyData ∧ 1 ≤ b.length ∧ b.length ≤ mtu

/-- What an outgoing entry of a context can be: a SYN, DATA or FIN as `MakePacket` builds it (R160, R163), DATA alone
with a payload. -/
abbrev OutEntryOk (c : Ctx) (p : Packet) : Prop :=
  (p.type = tySyn ∨ p.type = tyData ∨ p.type = tyFin) ∧ (p.type = tyData → p.payload.isSome = true) ∧ payloadFits p ∧
    p.tdiff = tdiff ∧ p.wnd = window ∧ p.conn = if p.type = tySyn then c.recvId else c.sendId

/-- A legal context of slot `i`. -/
structure CtxInv (i : Nat) (c : Ctx) : Prop where
  /-- R48. -/
  out : OutRingOk c
  /-- R163, R167, R169, R170. -/
  outEntries : ∀ e ∈ c.outRing, OutEntryOk c e.2.packet
  /-- R110. -/
  inWf : Ring.wf c.inRing
  /-- Only DATA and FIN are stored (R144, R147, R150). -/
  inTypes : ∀ e ∈ c.inRing, e.2.type = tyData ∨ e.2.type = tyFin
  /-- Only the FIN takes the counter above `CAP` (R24, R166, R169). -/
  inFlightCap : c.inFlight.toNat ≤ cap ∨ c.finSent = true
  /-- The accepting role (R46, R28, R129). -/
  accepting : c.role = .accept →
    c.sock = .lsock ∧ c.bound = true ∧ c.state = .connected ∧ c.recvId = c.sendId + 1 ∧
      c.synack.map (fun p => (p.type, p.payload)) = some (tyState, none)
  /-- The connecting role (R45, R28, R122). -/
  connecting : c.role = .connect →
    c.sock = .psock i ∧ c.synack = none ∧ (c.bound = true → c.sendId = c.recvId + 1) ∧
      (c.bound = false → c.recvId = 0 ∧ c.sendId = 0 ∧ c.state = .connecting)
  /-- Before the handshake completes only the SYN can be in flight (R24, R183). -/
  handshake : c.state = .connecting →
    c.role = .connect ∧ c.finSent = false ∧ c.ack = 0 ∧ c.inFlight.toNat = c.bound.toNat
  /-- A pending write has data and the phase of its wait (R31); one held by the cap waits for packets in flight. -/
  pending : ∀ w ∈ c.pw,
    w.data ≠ [] ∧ (c.state = .connecting → w.phase = .connectWait) ∧
      (c.state = .connected → w.phase = .flushWait ∧ 1 ≤ c.inFlight.toNat)
  /-- The FIN is sent after the application ended and the last write went out (R169). -/
  finSent : c.finSent = true → c.endReq = true ∧ c.pw = none
  /-- The write half of the latch: the FIN was acknowledged (R149). -/
  wdone : c.wdone = true ↔ c.finSent = true ∧ c.inFlight.toNat = 0
  /-- A closed context that still has its slot is a connecting-role context in its grace period (R129, R130, R141). -/
  closed : c.state = .closed ↔ c.grace = true
  /-- What closing leaves (R127, R128). -/
  closedEnd : c.state = .closed → c.role = .connect ∧ c.endReq = true ∧ c.rdone = true ∧ c.pw = none
  /-- The latch was tested at the end of the last operation (R127). -/
  latch : c.latched = false

/-- A legal state. -/
structure EngineInv (s : State) : Prop where
  /-- `MAX_CONN` is at least 1 (R10). -/
  table : 1 ≤ s.maxConn
  /-- R110. -/
  tring : Ring.wf s.tring
  /-- Every context is legal. -/
  ctx : ∀ i c, s.ctx? i = some c → CtxInv i c
  /-- At most one accepting-role context has a given key (R51, R194). -/
  keys : ∀ i j c d, s.ctx? i = some c → s.ctx? j = some d → c.role = .accept → d.role = .accept → c.peer = d.peer →
    c.recvId = d.recvId → i = j
  /-- In `IDLE` no accepting-role context exists (R191). -/
  idle : s.lstate = .idle → s.slots.any isAccepting = false
  /-- In `SHUTTING` one still exists (R197). -/
  shutting : s.lstate = .shutting → s.slots.any isAccepting = true

/-! ### Moves of a context -/

/-- The moves of `c.state` that R120 lists for a context that keeps its slot. -/
def stateMove : ConnState → ConnState → Bool
  | .connecting, _ => true
  | .connected, .connected => true
  | .connected, .closed => true
  | .closed, .closed => true
  | _, _ => false

/-- What an operation may do to a context that keeps its slot: R120, R29 (the role never changes), R30 (which flags are
never cleared), R28 (the ids change only while not bound), R32 (the SYN-ACK is never rebuilt). -/
structure CtxMove (c d : Ctx) : Prop where
  state : stateMove c.state d.state = true
  role : d.role = c.role
  peer : d.peer = c.peer
  sock : d.sock = c.sock
  synack : d.synack = c.synack
  ids : c.bound = true → d.bound = true ∧ d.recvId = c.recvId ∧ d.sendId = c.sendId
  endReq : c.endReq = true → d.endReq = true
  finSent : c.finSent = true → d.finSent = true
  wdone : c.wdone = true → d.wdone = true
  rdone : c.rdone = true → d.rdone = true
  grace : c.grace = true → d.grace = true

/-- The same for a slot: FREE stays FREE or takes a new context in its creation state (R120), a context moves or is
freed. -/
inductive SlotMove : Option Ctx → Option Ctx → Prop where
  | free : SlotMove none none
  | created (d : Ctx) :
      (d.role = .connect ∧ d.state = .connecting) ∨ (d.role = .accept ∧ d.state = .connected) → SlotMove none (some d)
  | moved (c d : Ctx) : CtxMove c d → SlotMove (some c) (some d)
  | freed (c : Ctx) : SlotMove (some c) none

/-! ### Segments and packets -/

/-- The segments of a write: `ceil(L / 1400)` pieces, each but the last of 1400 bytes (R167). -/
def segments (data : Bytes) : List Bytes :=
  (List.range ((data.length + (mtu - 1)) / mtu)).map fun k => (data.drop (k * mtu)).take mtu

/-- The `k`-th DATA packet of a write that starts at context `c` (R160, R167). -/
def dataPacket (now : U32) (c : Ctx) (k : Nat) (b : Bytes) : Packet :=
  { type := tyData, conn := c.sendId, ts := now, tdiff := 0, wnd := 262144, seq := c.seq + BitVec.ofNat 16 k,
    ack := c.ack, payload := some b }

/-- A bare acknowledgment with the given counters (R162). -/
def bareAck (now : U32) (c : Ctx) (seq ack : U16) : Packet :=
  { type := tyState, conn := c.sendId, ts := now, tdiff := 0, wnd := 262144, seq := seq, ack := ack, payload := none }

/-- The FIN of a context (R169). -/
def finPacket (now : U32) (c : Ctx) : Packet :=
  { type := tyFin, conn := c.sendId, ts := now, tdiff := 0, wnd := 262144, seq := c.seq, ack := c.ack, payload := none }

/-- The events of taking the packets `qs` out of the incoming ring in order, from end-of-read flag `rdone` (R151): the
payloads of DATA packets until a FIN, whose end-of-read is the last delivery. -/
def deliveries (i : Nat) : Bool → List Packet → List Event
  | _, [] => []
  | rdone, q :: qs =>
    if rdone then []
    else if q.type = tyData then (q.payload.map (Event.rxData i)).toList ++ deliveries i false qs
    else if q.type = tyFin then [.rxEof i]
    else deliveries i false qs

/-! ### Big-endian numbers, as the spec writes them (00_scope.md rule R14) -/

/-- The `n` bytes of the number `v`, the most significant first. -/
def bigEndian (n v : Nat) : Bytes := (List.range n).map fun k => BitVec.ofNat 8 (v / 256 ^ (n - 1 - k))

/-- The `n` bytes of `B` from offset `o`, read as one number with the first byte most significant. -/
def bigEndianAt (B : Bytes) (o n : Nat) : Nat := ((B.drop o).take n).foldl (fun v b => v * 256 + b.toNat) 0

/-! ### How operations end -/

/-- The state after an operation that leaves these slots and emits these events, with result `{OK}`: every other field
is as before. -/
def State.after (s : State) (slots : List (Option Ctx)) (events : List Event) : State :=
  { s with slots := slots, events := events, result := some ⟨.ok, .none⟩ }

/-- The state after an operation that changes nothing but its outputs. -/
def State.unchanged (s : State) (events : List Event) (status : Status) (value : Value) : State :=
  { s with events := events, result := some ⟨status, value⟩ }

/-- The state after an operation that closes the context `c` of slot `i` (R129), after the events `before`: the
connecting role keeps the slot for its grace period, the accepting role frees it, and a listener that was shutting down
and has no accepting context left closes (R197). -/
def State.tornDown (s : State) (i : Nat) (c : Ctx) (before : List Event) : State :=
  match c.role with
  | .connect =>
    s.after (s.slots.set i (some { c with state := .closed, grace := true }))
      (before ++ [.timerStop i, .evClose i, .graceStart i])
  | .accept =>
    if s.lstate = .shutting ∧ (s.slots.set i none).any isAccepting = false then
      { s.after (s.slots.set i none) (before ++ [.timerStop i, .evClose i, .sockClose .lsock, .evLclosed]) with
        lstate := .idle }
    else s.after (s.slots.set i none) (before ++ [.timerStop i, .evClose i])

/-- The state after an operation that leaves the context `c` in slot `i` and then tests the latch (R127). -/
def State.afterLatch (s : State) (i : Nat) (c : Ctx) (events : List Event) : State :=
  if c.latched then s.tornDown i c events else s.after (s.slots.set i (some c)) events

/-- A context whose write side has ended and whose FIN goes out now (R125, R169). -/
def Ctx.withFin (now : U32) (c : Ctx) : Ctx :=
  { c with
    endReq := true, finSent := true, seq := c.seq + 1, inFlight := c.inFlight + 1, alive := true
    outRing := ringPut c.outRing c.seq { packet := finPacket now c, tag := now } }

/-- May the FIN of this context go out when its end is asked for (R169)? -/
def Ctx.finReady (c : Ctx) : Bool := decide (c.state = .connected) && c.pw.isNone && !c.finSent

/-- A context after its end was asked for (R125). -/
def Ctx.ended (now : U32) (c : Ctx) : Ctx := if c.finReady then c.withFin now else { c with endReq := true }

/-- The events of asking for the end of a context (R125). -/
def Ctx.endEvents (now : U32) (c : Ctx) : List Event :=
  if c.finReady then [.tx c.sock c.peer (encodePacket (finPacket now c))] else []

/-- Does a closing listener ask for the end of this context (R196)? -/
def Ctx.endedByListener (c : Ctx) : Bool :=
  decide (c.role = .accept) && decide (c.state ≠ .closed) && !c.endReq

/-- The events of a listener's socket error for the slot `i` (R200). -/
def listenerErrorEvents (o : Option Ctx) (i : Nat) : List Event :=
  match o with
  | some c =>
    if c.role = .accept then
      [.evError (.conn i) .errSocket] ++ (if c.pw.isSome then [.writeDone i .rejected] else []) ++
        [.timerStop i, .evClose i]
    else []
  | none => []

/-- The acknowledgment number `a` removes nothing at context `c` (R148). -/
abbrev Ctx.ignoresAck (c : Ctx) (a : U16) : Prop :=
  c.ackCount a = 0 ∨ ringCap ≤ (c.ackCount a).toNat ∨ c.inFlight.toNat < (c.ackCount a).toNat

/-! ### What an acknowledgment and a pump leave -/

/-- How many entries the acknowledgment number `a` removes at context `c` (R148). -/
def Ctx.acknowledged (c : Ctx) (a : U16) : Nat := if c.ignoresAck a then 0 else (c.ackCount a).toNat

/-- The ring `r` is the outgoing ring of `c` without its `n` oldest entries: their slots are `NONE`, every other slot
is as before (R148). -/
def OutRingWithout (c : Ctx) (n : Nat) (r : Ring OutEntry) : Prop :=
  ∀ t : U16,
    ((∃ k, k < n ∧ ringIx (c.base + BitVec.ofNat 16 k) = ringIx t) → ringGet r t = none) ∧
      ((∀ k, k < n → ringIx (c.base + BitVec.ofNat 16 k) ≠ ringIx t) → ringGet r t = ringGet c.outRing t)

/-- The context `c` without its `n` oldest entries, `r` being what that leaves of its outgoing ring; when nothing is
left in flight after the FIN, the write half of the latch is set (R148, R149). -/
def Ctx.withoutOldest (c : Ctx) (n : Nat) (r : Ring OutEntry) : Ctx :=
  { c with
    outRing := r, inFlight := c.inFlight - BitVec.ofNat 10 n
    wdone := c.wdone || (c.finSent && decide (1 ≤ n ∧ n = c.inFlight.toNat)) }

/-- The events of sending the first `n` segments of the bytes `b` from context `c` (R161, R167). -/
def sentSegments (now : U32) (c : Ctx) (b : Bytes) (n : Nat) : List Event :=
  ((segments b).take n).mapIdx fun k p => .tx c.sock c.peer (encodePacket (dataPacket now c k p))

/-- The context `c` after it sent the first `n` segments of the bytes `b` of its pending write, with the outgoing ring
`r`: the write is done, or the rest is held for the flush signal (R163, R165). -/
def Ctx.withSegments (c : Ctx) (b : Bytes) (n : Nat) (r : Ring OutEntry) : Ctx :=
  { c with
    outRing := r, seq := c.seq + BitVec.ofNat 16 n, inFlight := c.inFlight + BitVec.ofNat 10 n
    alive := c.alive || decide (1 ≤ n)
    pw := if n = (segments b).length then none else some ⟨b.drop (1400 * n), .flushWait⟩ }

/-- A connected context `c` whose pending write still holds the bytes `b` sends what the cap allows, and so becomes `d`
and emits `events`: the first `n` segments go out, each kept in the outgoing ring with its send time; when they are all,
the write completes and a FIN that was waiting for it follows; else the rest is held (R165 to R169). -/
def Pumped (now : U32) (i : Nat) (c : Ctx) (b : Bytes) (d : Ctx) (events : List Event) : Prop :=
  let n : Nat := min (segments b).length (511 - c.inFlight.toNat)
  ∃ r : Ring OutEntry,
    (∀ k p, k < n → (segments b)[k]? = some p →
        ringGet r (c.seq + BitVec.ofNat 16 k) = some { packet := dataPacket now c k p, tag := now }) ∧
      (∀ t : U16, (∀ k, k < n → ringIx (c.seq + BitVec.ofNat 16 k) ≠ ringIx t) → ringGet r t = ringGet c.outRing t) ∧
      if n = (segments b).length ∧ c.endReq = true then
        d = (c.withSegments b n r).ended now ∧
          events = sentSegments now c b n ++ [.writeDone i .ok] ++ (c.withSegments b n r).endEvents now
      else
        d = c.withSegments b n r ∧
          events = sentSegments now c b n ++ if n = (segments b).length then [.writeDone i .ok] else []

/-- The bytes of a write held by the cap, waiting for the flush signal (R31, R149). -/
def heldWrite : Option PendingWrite → Option Bytes
  | some ⟨b, .flushWait⟩ => some b
  | _ => none

/-- The connected context `c` processes the acknowledgment number `a`, and so becomes `d` and emits `events`: the entries
that it acknowledges are removed, and when these were all that was in flight a held write resumes (R148, R149). -/
def Acked (now : U32) (i : Nat) (c : Ctx) (a : U16) (d : Ctx) (events : List Event) : Prop :=
  let n : Nat := c.acknowledged a
  ∃ r : Ring OutEntry, OutRingWithout c n r ∧
    (∀ b, heldWrite c.pw = some b → 1 ≤ n → n = c.inFlight.toNat → Pumped now i (c.withoutOldest n r) b d events) ∧
      (heldWrite c.pw = none ∨ n = 0 ∨ n ≠ c.inFlight.toNat → d = c.withoutOldest n r ∧ events = [])

/-! ### Which context a wire packet reaches -/

/-- The packet `p`, arriving on the socket `rx`, is dispatched to context `c` of slot `i` (R192 to R194, R198). -/
def Reaches (s : State) (rx : Rx) (p : Packet) (i : Nat) (c : Ctx) : Prop :=
  match rx with
  | .lsock addr _ => s.lookup addr (effectiveId p) = some i ∧ s.ctx? i = some c
  | .psock k _ => k = i ∧ s.connectCtx? i = some c ∧ c.bound = true ∧ p.type ≠ tySyn ∧ p.conn = c.recvId

/-- The instruction `op` is the receipt of a packet of type `ty` on the socket `rx`: the packet's own row of the opcode
table (entry 2), or the command that carries the datagram (R192, R198). -/
def Receives (op : Instr) (now : U32) (rx : Rx) (ty : BitVec 4) (h : WireHeader) (pl : Option Bytes) : Prop :=
  (ty = tyData ∧ op = .data now rx h pl) ∨ (ty = tyFin ∧ op = .fin now rx h pl) ∨
    (ty = tyState ∧ op = .state now rx h pl) ∨ (ty = tyReset ∧ op = .reset now rx h pl) ∨
    (ty = tySyn ∧ op = .syn now rx h pl) ∨
    pl ≠ some [] ∧ ty.toNat ≤ 4 ∧
      match rx with
      | .lsock addr isn => op = .dgramL now addr (wireBytes ty h pl) isn
      | .psock c addr => op = .dgramP now c addr (wireBytes ty h pl)

/-- The handle a per-connection instruction names (R131): a command with an argument `c`, a socket error of a private
socket, a wire packet on a private socket. -/
def handleOf : Instr → Option Nat
  | .data _ (.psock c _) _ _ => some c
  | .fin _ (.psock c _) _ _ => some c
  | .state _ (.psock c _) _ _ => some c
  | .reset _ (.psock c _) _ _ => some c
  | .syn _ (.psock c _) _ _ => some c
  | .bound _ c _ => some c
  | .dgramP _ c _ _ => some c
  | .graceExpired _ c => some c
  | .write _ c _ => some c
  | .endWrite _ c => some c
  | .readEnd _ c => some c
  | .tickRetx _ c => some c
  | .tickKa _ c => some c
  | .sockErr _ (.psock c) => some c
  | .ctxRead _ c _ => some c
  | .ringPeek _ c _ _ => some c
  | .data _ (.lsock _ _) _ _ => none
  | .fin _ (.lsock _ _) _ _ => none
  | .state _ (.lsock _ _) _ _ => none
  | .reset _ (.lsock _ _) _ _ => none
  | .syn _ (.lsock _ _) _ _ => none
  | .sockErr _ .lsock => none
  | .encode _ _ => none
  | .decode _ _ => none
  | .ringPut _ _ _ => none
  | .ringGet _ _ => none
  | .ringDel _ _ => none
  | .listen _ => none
  | .lclose _ => none
  | .dgramL _ _ _ _ => none
  | .connect _ _ _ => none
  | .glbRead _ _ => none

/-- Does the instruction's handle have to name a connecting-role context (R131, R200)? -/
def needsConnectRole : Instr → Bool
  | .data _ (.psock _ _) _ _ => true
  | .fin _ (.psock _ _) _ _ => true
  | .state _ (.psock _ _) _ _ => true
  | .reset _ (.psock _ _) _ _ => true
  | .syn _ (.psock _ _) _ _ => true
  | .bound _ _ _ => true
  | .dgramP _ _ _ _ => true
  | .graceExpired _ _ => true
  | .sockErr _ (.psock _) => true
  | _ => false

end Sys2Proof.Machine
end

