-- ==== Sys2Proof/Certificates/Slice0/Obligations.lean ====
section
/-! DEFINITION. The statements for the provers. A statement that gives a next state in full says its frame with it:
`s.after slots events` and `s.unchanged …` change nothing of `s` but what they name, and `s.slots.set i …` changes no other
slot. Where a statement asks `c.latched = false`, the context was not due to close when the operation began, which holds
after every operation (`EveryOperationTestsTheLatch`). A statement over `Receives` is about the commands DGRAM_L and DGRAM_P
and, by the model's choice (log entry 2), about the packet's own row of the opcode table; `handleOf` names the handle of
such a row too. -/

open Sys2Proof Sys2Proof.Machine Sys2Proof.Config

/-! ### Codec -/

/-- ENCODE writes the header of R100 byte for byte, each field big-endian, and then the payload. -/
def Obligations.EncodeWritesHeaderAndPayload : Prop :=
  ∀ (now : U32) (p : Packet) (s : State),
    exec (.encode now p) s =
      .next (s.unchanged [] .ok
        (.bytes ([BitVec.ofNat 8 (p.type.toNat * 16 + 1), 0] ++ bigEndian 2 p.conn.toNat ++ bigEndian 4 p.ts.toNat ++
          bigEndian 4 p.tdiff.toNat ++ bigEndian 4 p.wnd.toNat ++ bigEndian 2 p.seq.toNat ++ bigEndian 2 p.ack.toNat ++
          p.payload.getD [])))

/-- DECODE answers SHORT below 20 bytes; any other byte string is a packet whose fields are the bytes of R101. -/
def Obligations.DecodeReadsHeaderAndPayload : Prop :=
  ∀ (now : U32) (B : Bytes) (s : State),
    (B.length < 20 → exec (.decode now B) s = .next (s.unchanged [] .short .none)) ∧
      (20 ≤ B.length →
        ∃ p : Packet, exec (.decode now B) s = .next (s.unchanged [] .ok (.packet p)) ∧
          p.type.toNat = (B.getD 0 0).toNat / 16 ∧ p.conn.toNat = bigEndianAt B 2 2 ∧ p.ts.toNat = bigEndianAt B 4 4 ∧
          p.tdiff.toNat = bigEndianAt B 8 4 ∧ p.wnd.toNat = bigEndianAt B 12 4 ∧ p.seq.toNat = bigEndianAt B 16 2 ∧
          p.ack.toNat = bigEndianAt B 18 2 ∧ p.payload = if B.length = 20 then none else some (B.drop 20))

/-- The round trip of R102 in both directions, with the length law of R104; re-encoding changes byte 0's low nibble and
byte 1 only. -/
def Obligations.CodecRoundTripAndLengths : Prop :=
  (∀ p : Packet, (encodePacket p).length = 20 + (p.payload.getD []).length) ∧
    (∀ p : Packet, p.payload ≠ some [] → decodePacket (encodePacket p) = some p) ∧
    ∀ B : Bytes, 20 ≤ B.length →
      ∃ p : Packet, decodePacket B = some p ∧ (p.payload.getD []).length = B.length - 20 ∧
        (p.payload = none ↔ B.length = 20) ∧
        (encodePacket p = B ↔ (B.getD 0 0).toNat % 16 = 1 ∧ B.getD 1 0 = 0) ∧
        encodePacket p = BitVec.ofNat 8 ((B.getD 0 0).toNat / 16 * 16 + 1) :: 0 :: B.drop 2

/-! ### Frames and instructions -/

/-- Decoding inverts encoding: every well-formed instruction, with every operand at every value. -/
def Obligations.DecodeInvertsEncode : Prop := ∀ i : Instr, WellFormed i → decode (encode i) = .ok i

/-- Encoding inverts decoding: a datagram's instruction holds every bit of it, and a command keeps its op code and its
clock sample. -/
def Obligations.EncodeInvertsDecode : Prop :=
  (∀ (now : U32) (rx : Rx) (B : Bytes) (i : Instr),
      decode (.datagram now rx B) = .ok i → WellFormed i ∧ encode i = .datagram now rx B) ∧
    ∀ (op : Byte) (now : U32) (a : Args) (i : Instr),
      decode (.command op now a) = .ok i → ∃ b : Args, encode i = .command op now b

/-- Some words written out from the tables of R82 and R87 decode to the instructions they stand for. -/
def Obligations.WrittenWordsDecode : Prop :=
  decode (.command 0x10 7 {}) = .ok (.listen 7) ∧
    decode (.command 0x18 100 { addr := [83], isn := 0x1000 }) = .ok (.connect 100 [83] 0x1000) ∧
    decode (.command 0x19 200 { c := 0, port := 12345 }) = .ok (.bound 200 0 12345) ∧
    decode (.command 0x20 400 { c := 1, bytes := [1, 2] }) = .ok (.write 400 1 [1, 2]) ∧
    decode (.command 0x28 5 { c := 2 }) = .ok (.tickRetx 5 2) ∧
    decode (.command 0x3A 6 { c := 3, which := 1, s := 9 }) = .ok (.ringPeek 6 3 1 9) ∧
    decode
        (.datagram 9 (.psock 0 [83])
          [0x21, 0, 0x30, 0x39, 0, 0, 1, 0x2C, 0, 0, 0, 0, 0, 4, 0, 0, 0x20, 0, 0x10, 0]) =
      .ok (.state 9 (.psock 0 [83])
        { ver := 1, ext := 0, conn := 0x3039, ts := 0x12C, tdiff := 0, wnd := 0x40000, seq := 0x2000, ack := 0x1000 }
        none) ∧
    decode
        (.datagram 9 (.lsock [67] 5)
          [1, 0, 0x30, 0x3A, 0, 0, 1, 0x90, 0, 0, 0, 0, 0, 4, 0, 0, 0x10, 1, 0x1F, 0xFF, 0x68, 0x65]) =
      .ok (.data 9 (.lsock [67] 5)
        { ver := 1, ext := 0, conn := 0x303A, ts := 0x190, tdiff := 0, wnd := 0x40000, seq := 0x1001, ack := 0x1FFF }
        (some [0x68, 0x65]))

/-- A reserved op code is refused with nothing changed; every other op code is a row of R87 (R88). -/
def Obligations.ReservedOpCodesRefused : Prop :=
  ∀ (op : Byte) (now : U32) (a : Args) (s : State) (rest : List Frame),
    (op.toNat ∈ [0x01, 0x02, 0x08, 0x09, 0x0A, 0x10, 0x11, 0x12, 0x18, 0x19, 0x1A, 0x1B, 0x20, 0x21, 0x22, 0x28, 0x29,
        0x30, 0x38, 0x39, 0x3A] → ∃ i, decode (.command op now a) = .ok i) ∧
      (op.toNat ∉ [0x01, 0x02, 0x08, 0x09, 0x0A, 0x10, 0x11, 0x12, 0x18, 0x19, 0x1A, 0x1B, 0x20, 0x21, 0x22, 0x28, 0x29,
          0x30, 0x38, 0x39, 0x3A] →
        step { s with port := .command op now a :: rest } =
          .next ({ s with port := rest }.unchanged [] (.refused .reservedOp) .none))

/-- A datagram of fewer than 20 bytes is SHORT for DECODE and discarded by the router; any other decodes, and one that
decodes to a type 5 to 15 is surfaced (R221). -/
def Obligations.ShortDiscardedUnknownTypeSurfaced : Prop :=
  ∀ (now : U32) (B : Bytes) (s : State),
    (B.length < 20 →
        exec (.decode now B) s = .next (s.unchanged [] .short .none) ∧
          (∀ addr isn, exec (.dgramL now addr B isn) s = .next (s.unchanged [] .ok .none)) ∧
          ∀ c addr x, s.connectCtx? c = some x → exec (.dgramP now c addr B) s = .next (s.unchanged [] .ok .none)) ∧
      (20 ≤ B.length → ∃ p : Packet, exec (.decode now B) s = .next (s.unchanged [] .ok (.packet p))) ∧
      (20 ≤ B.length → 5 ≤ (B.getD 0 0).toNat / 16 →
        (∀ addr isn, exec (.dgramL now addr B isn) s = .next (s.unchanged [.unrecognized .lsock addr B] .ok .none)) ∧
          ∀ c addr x, s.connectCtx? c = some x → x.bound = true →
            exec (.dgramP now c addr B) s = .next (s.unchanged [.unrecognized (.psock c) addr B] .ok .none))

/-- A step with an instruction next in line runs it on the state without that frame. -/
def Obligations.StepRunsTheDecodedInstruction : Prop :=
  ∀ (s : State) (f : Frame) (rest : List Frame) (i : Instr),
    s.port = f :: rest → decode f = .ok i → step s = exec i { s with port := rest }

/-- Without an instruction next in line a step holds the state when nothing waits (R239), and gives a datagram that is no
wire packet of the table to the command that carries it (log entry 2). -/
def Obligations.StepWithoutAnInstruction : Prop :=
  (∀ s : State, s.port = [] → step s = .next s) ∧
    ∀ (s : State) (now : U32) (rx : Rx) (B : Bytes) (rest : List Frame) (e : DecodeError),
      s.port = .datagram now rx B :: rest → decode (.datagram now rx B) = .error e →
        step s =
          match rx with
          | .lsock addr isn => exec (.dgramL now addr B isn) { s with port := rest }
          | .psock c addr => exec (.dgramP now c addr B) { s with port := rest }

/-- A received wire packet is handled as the DGRAM_L or DGRAM_P command that carries its datagram. This is the model's
choice (log entry 2). -/
def Obligations.WirePacketIsItsDatagramCommand : Prop :=
  ∀ (now : U32) (h : WireHeader) (pl : Option Bytes) (s : State), pl ≠ some [] →
    (∀ addr isn,
        exec (.data now (.lsock addr isn) h pl) s = exec (.dgramL now addr (wireBytes tyData h pl) isn) s ∧
          exec (.fin now (.lsock addr isn) h pl) s = exec (.dgramL now addr (wireBytes tyFin h pl) isn) s ∧
          exec (.state now (.lsock addr isn) h pl) s = exec (.dgramL now addr (wireBytes tyState h pl) isn) s ∧
          exec (.reset now (.lsock addr isn) h pl) s = exec (.dgramL now addr (wireBytes tyReset h pl) isn) s ∧
          exec (.syn now (.lsock addr isn) h pl) s = exec (.dgramL now addr (wireBytes tySyn h pl) isn) s) ∧
      ∀ c addr,
        exec (.data now (.psock c addr) h pl) s = exec (.dgramP now c addr (wireBytes tyData h pl)) s ∧
          exec (.fin now (.psock c addr) h pl) s = exec (.dgramP now c addr (wireBytes tyFin h pl)) s ∧
          exec (.state now (.psock c addr) h pl) s = exec (.dgramP now c addr (wireBytes tyState h pl)) s ∧
          exec (.reset now (.psock c addr) h pl) s = exec (.dgramP now c addr (wireBytes tyReset h pl)) s ∧
          exec (.syn now (.psock c addr) h pl) s = exec (.dgramP now c addr (wireBytes tySyn h pl)) s

/-! ### The test ring -/

/-- RING_PUT writes the one slot that its sequence number selects (R116, R111). -/
def Obligations.RingPutWritesOneSlot : Prop :=
  ∀ (now : U32) (q : U16) (v : Item) (s : State),
    ∃ r : Machine.Ring Item, exec (.ringPut now q v) s = .next { s.unchanged [] .ok .none with tring := r } ∧
      (∀ t : U16, ringGet r t = if t.toNat % 512 = q.toNat % 512 then some v else ringGet s.tring t) ∧
      (Machine.Ring.wf s.tring → Machine.Ring.wf r)

/-- RING_GET answers the slot and changes nothing; sequence numbers 512 apart read one slot (R117, R114). -/
def Obligations.RingGetReadsItsSlot : Prop :=
  ∀ (now : U32) (q : U16) (s : State),
    exec (.ringGet now q) s = .next (s.unchanged [] .ok (.item (ringGet s.tring q))) ∧
      ∀ k : Nat, exec (.ringGet now (q + BitVec.ofNat 16 (512 * k))) s = exec (.ringGet now q) s

/-- RING_DEL answers the slot and leaves it `NONE` (R118, R113). -/
def Obligations.RingDelTakesOneSlot : Prop :=
  ∀ (now : U32) (q : U16) (s : State),
    ∃ r : Machine.Ring Item, exec (.ringDel now q) s = .next { s.unchanged [] .ok (.item (ringGet s.tring q)) with tring := r } ∧
      (∀ t : U16, ringGet r t = if t.toNat % 512 = q.toNat % 512 then none else ringGet s.tring t) ∧
      (Machine.Ring.wf s.tring → Machine.Ring.wf r)

/-- The test ring is apart: no other instruction reads or writes it, the three that do touch no connection and not the
listener, and it is empty after reset (R119). -/
def Obligations.TestRingIsSeparate : Prop :=
  (∀ (i : Instr) (s t : State) (r : Machine.Ring Item),
      (∀ now q v, i ≠ .ringPut now q v) → (∀ now q, i ≠ .ringGet now q) → (∀ now q, i ≠ .ringDel now q) →
      exec i s = .next t → t.tring = s.tring ∧ exec i { s with tring := r } = .next { t with tring := r }) ∧
    (∀ (now : U32) (q : U16) (v : Item) (s t : State),
      exec (.ringPut now q v) s = .next t ∨ exec (.ringGet now q) s = .next t ∨ exec (.ringDel now q) s = .next t →
        t.slots = s.slots ∧ t.lstate = s.lstate ∧ t.events = []) ∧
    ∀ q : U16, ringGet State.reset.tring q = none

/-! ### The listener -/

/-- LISTEN opens an idle listener and is refused otherwise (R191). -/
def Obligations.ListenOpensAnIdleListener : Prop :=
  ∀ (now : U32) (s : State),
    (s.lstate = .idle → exec (.listen now) s = .next { s.unchanged [] .ok .none with lstate := .listening }) ∧
      (s.lstate ≠ .idle → exec (.listen now) s = .next (s.unchanged [] (.refused .listenState) .none))

/-- LCLOSE asks every accepting context for its end, in slot order, and closes at once a listener that has none
(R196, R197). -/
def Obligations.LcloseEndsEveryAcceptingContext : Prop :=
  ∀ (now : U32) (s : State),
    (s.lstate ≠ .listening → exec (.lclose now) s = .next (s.unchanged [] .ok .none)) ∧
      (s.lstate = .listening → (∀ i c, s.ctx? i = some c → c.latched = false) →
        exec (.lclose now) s =
          .next
            { s.after (s.slots.map (Option.map fun c => if c.endedByListener then c.ended now else c))
                ((s.slots.flatMap fun o =>
                    (o.map fun c => if c.endedByListener then c.endEvents now else []).getD []) ++
                  if s.slots.any isAccepting then [] else [.sockClose .lsock, .evLclosed]) with
              lstate := if s.slots.any isAccepting then .shutting else .idle })

/-- Of the packets without a context, exactly a SYN while listening with a FREE slot creates an accepting context: in the
lowest one, with the values of R46, its SYN-ACK cached and sent; every other one is surfaced (R123, R195). -/
def Obligations.AcceptExactlyNewSynWhileListening : Prop :=
  ∀ (now : U32) (addr : Addr) (B : Bytes) (isn : U16) (p : Packet) (s : State),
    decodePacket B = some p → p.type.toNat ≤ 4 →
    (∀ j c, s.ctx? j = some c → c.role = .accept → c.peer = addr →
      c.recvId ≠ if p.type = tySyn then p.conn + 1 else p.conn) →
      (∀ i, p.type = tySyn → s.lstate = .listening → s.slots[i]? = some none →
        (∀ j, j < i → (s.ctx? j).isSome = true) →
          let synAck : Packet :=
            { type := tyState, conn := p.conn, ts := now, tdiff := 0, wnd := 262144, seq := isn, ack := p.seq,
              payload := none }
          exec (.dgramL now addr B isn) s =
            .next (s.after
              (s.slots.set i
                (some
                  { role := .accept, state := .connected, sock := .lsock, peer := addr, bound := true,
                    recvId := p.conn + 1, sendId := p.conn, seq := isn, ack := p.seq, inFlight := 0, outRing := [],
                    inRing := [], alive := true, synack := some synAck, pw := none, endReq := false, finSent := false,
                    wdone := false, rdone := false, grace := false, retxCount := 0 }))
              [.timerStart i, .tx .lsock addr (encodePacket synAck), .evAccept i])) ∧
        ((p.type ≠ tySyn ∨ s.lstate ≠ .listening ∨ ∀ i, i < s.maxConn → (s.ctx? i).isSome = true) →
          exec (.dgramL now addr B isn) s = .next (s.unchanged [.unrecognized .lsock addr B] .ok .none))

/-- SOCK_ERR of the listener socket closes the listener and frees every accepting context in slot order; of a private
socket it closes that context without a grace period, or ends its grace period (R200). That a socket beyond the table gives
BADCONN is the model's reading (R220 X15, log entry 18). -/
def Obligations.SocketErrorIsFatal : Prop :=
  (∀ (now : U32) (s : State),
      (s.lstate = .idle → exec (.sockErr now .lsock) s = .next (s.unchanged [] .ok .none)) ∧
        (s.lstate ≠ .idle → (∀ i c, s.ctx? i = some c → c.role = .accept → c.state ≠ .closed) →
          exec (.sockErr now .lsock) s =
            .next
              { s.after (s.slots.map fun o => if isAccepting o then none else o)
                  ([.evError .listener .errSocket] ++
                    (s.slots.zipIdx.flatMap fun e => listenerErrorEvents e.1 e.2) ++ [.sockClose .lsock]) with
                lstate := .idle })) ∧
    ∀ (now : U32) (i : Nat) (s : State),
      (s.connectCtx? i = none → exec (.sockErr now (.psock i)) s = .next (s.unchanged [] .badConn .none)) ∧
        ∀ c, s.connectCtx? i = some c →
          (c.state ≠ .closed →
              exec (.sockErr now (.psock i)) s =
                .next (s.after (s.slots.set i none)
                  ([.evError (.conn i) .errSocket] ++ (if c.pw.isSome then [.writeDone i .rejected] else []) ++
                    [.timerStop i, .evClose i, .sockClose (.psock i)]))) ∧
            (c.state = .closed → c.grace = true →
              exec (.sockErr now (.psock i)) s = .next (s.after (s.slots.set i none) [.sockClose (.psock i)])) ∧
            (c.state = .closed → c.grace = false →
              exec (.sockErr now (.psock i)) s = .next (s.unchanged [] .ok .none))

/-- GRACE_EXPIRED frees a slot in its grace period and closes its socket (R199). -/
def Obligations.GraceExpiredFreesTheSlot : Prop :=
  ∀ (now : U32) (i : Nat) (s : State),
    (s.connectCtx? i = none → exec (.graceExpired now i) s = .next (s.unchanged [] .badConn .none)) ∧
      ∀ c, s.connectCtx? i = some c →
        exec (.graceExpired now i) s =
          .next (if c.grace = true then s.after (s.slots.set i none) [.sockClose (.psock i)]
            else s.unchanged [] .ok .none)

/-! ### Creation and close by the application -/

/-- CONNECT takes the lowest FREE slot with the values of R44 and R45; with none it answers TABLE_FULL (R121). -/
def Obligations.ConnectCreatesInLowestFreeSlot : Prop :=
  ∀ (now : U32) (addr : Addr) (isn : U16) (s : State),
    ((∀ i, i < s.maxConn → (s.ctx? i).isSome = true) →
        exec (.connect now addr isn) s = .next (s.unchanged [] .tableFull .none)) ∧
      ∀ i, s.slots[i]? = some none → (∀ j, j < i → (s.ctx? j).isSome = true) →
        exec (.connect now addr isn) s =
          .next
            { s with
              slots :=
                s.slots.set i
                  (some
                    { role := .connect, state := .connecting, sock := .psock i, peer := addr, bound := false,
                      recvId := 0, sendId := 0, seq := isn, ack := 0, inFlight := 0, outRing := [], inRing := [],
                      alive := false, synack := none, pw := none, endReq := false, finSent := false, wdone := false,
                      rdone := false, grace := false, retxCount := 0 })
              events := [.bindReq i, .timerStart i]
              result := some ⟨.ok, .handle i⟩ }

/-- BOUND derives the ids and sends the SYN, once (R122, R170). -/
def Obligations.BoundDerivesIdsAndSendsSyn : Prop :=
  ∀ (now : U32) (i : Nat) (port : U16) (s : State),
    (s.connectCtx? i = none → exec (.bound now i port) s = .next (s.unchanged [] .badConn .none)) ∧
      ∀ c, s.connectCtx? i = some c →
        (c.bound = true ∨ c.state = .closed → exec (.bound now i port) s = .next (s.unchanged [] .ok .none)) ∧
          (c.bound = false → c.state ≠ .closed → c.latched = false →
            let syn : Packet :=
              { type := tySyn, conn := port, ts := now, tdiff := 0, wnd := 262144, seq := c.seq, ack := c.ack,
                payload := none }
            exec (.bound now i port) s =
              .next (s.after
                (s.slots.set i
                  (some
                    { c with
                      bound := true, recvId := port, sendId := port + 1, seq := c.seq + 1,
                      inFlight := c.inFlight + 1, alive := true,
                      outRing := ringPut c.outRing c.seq { packet := syn, tag := now } }))
                [.tx c.sock c.peer (encodePacket syn)]))

/-- END marks the end of the write side and sends the FIN when the context is connected and no write is pending; asking
again has no effect (R125). -/
def Obligations.EndSendsFinOrDefers : Prop :=
  ∀ (now : U32) (i : Nat) (s : State),
    (s.ctx? i = none → exec (.endWrite now i) s = .next (s.unchanged [] .badConn .none)) ∧
      ∀ c, s.ctx? i = some c →
        (c.state = .closed ∨ c.endReq = true → exec (.endWrite now i) s = .next (s.unchanged [] .ok .none)) ∧
          (c.state ≠ .closed → c.endReq = false → c.latched = false →
            exec (.endWrite now i) s = .next (s.after (s.slots.set i (some (c.ended now))) (c.endEvents now)))

/-- READ_END sets the read half of the latch without a notification, and closes the context if the write half was set
(R126). -/
def Obligations.ReadEndSetsRdoneAndMayClose : Prop :=
  ∀ (now : U32) (i : Nat) (s : State),
    (s.ctx? i = none → exec (.readEnd now i) s = .next (s.unchanged [] .badConn .none)) ∧
      ∀ c, s.ctx? i = some c →
        (c.state = .closed → exec (.readEnd now i) s = .next (s.unchanged [] .ok .none)) ∧
          (c.state ≠ .closed → c.wdone = false →
            exec (.readEnd now i) s = .next (s.after (s.slots.set i (some { c with rdone := true })) [])) ∧
          (c.state ≠ .closed → c.wdone = true →
            exec (.readEnd now i) s = .next (s.tornDown i { c with rdone := true } []))

/-- After every operation no context has both halves of the latch set without being closed (R127). -/
def Obligations.EveryOperationTestsTheLatch : Prop :=
  ∀ (i : Instr) (s t : State),
    (∀ j c, s.ctx? j = some c → c.latched = false) → exec i s = .next t → ∀ j c, t.ctx? j = some c → c.latched = false

/-- A handle that names no context, or one of the wrong role, gives BADCONN with nothing changed (R131). That this holds
of the wire packets' own rows and of SOCK_ERR beyond the table is the model's reading (log entries 2 and 18). -/
def Obligations.BadHandleChangesNothing : Prop :=
  ∀ (i : Instr) (c : Nat) (s : State), handleOf i = some c →
    ((s.maxConn ≤ c ∨ s.slots[c]? = some none) ∨
        needsConnectRole i = true ∧ ∃ x, s.ctx? c = some x ∧ x.role = .accept) →
      exec i s = .next (s.unchanged [] .badConn .none)

/-- Nothing but a datagram, the grace period, a socket error and the status reads acts on a closed context (R130). -/
def Obligations.ClosedContextIgnoresCommands : Prop :=
  ∀ (now : U32) (i : Nat) (c : Ctx) (s : State), s.ctx? i = some c → c.state = .closed →
    (∀ port, c.role = .connect → exec (.bound now i port) s = .next (s.unchanged [] .ok .none)) ∧
      exec (.endWrite now i) s = .next (s.unchanged [] .ok .none) ∧
      exec (.readEnd now i) s = .next (s.unchanged [] .ok .none) ∧
      exec (.tickRetx now i) s = .next (s.unchanged [] .ok .none) ∧
      exec (.tickKa now i) s = .next (s.unchanged [] .ok .none) ∧
      ∀ b, c.pw = none → exec (.write now i b) s = .next (s.after s.slots [.writeDone i .rejected])

/-! ### Receiving -/

/-- A closed context processes no packet of any type: the datagram is surfaced and nothing changes (R141). -/
def Obligations.ClosedContextSurfacesPackets : Prop :=
  ∀ (op : Instr) (now : U32) (rx : Rx) (ty : BitVec 4) (h : WireHeader) (pl : Option Bytes) (s : State) (i : Nat) (c : Ctx),
    Receives op now rx ty h pl → Reaches s rx (packetOf ty h pl) i c → c.state = .closed →
      exec op s = .next (s.unchanged [.unrecognized rx.sock rx.addr (wireBytes ty h pl)] .ok .none)

/-- A duplicate SYN makes an accepting context send its cached SYN-ACK again, unchanged; in the connecting role a SYN is
not handled (R142). -/
def Obligations.DuplicateSynResendsCachedSynAck : Prop :=
  (∀ (op : Instr) (now : U32) (rx : Rx) (h : WireHeader) (pl : Option Bytes) (s : State) (i : Nat) (c : Ctx)
      (synAck : Packet),
      Receives op now rx tySyn h pl → Reaches s rx (packetOf tySyn h pl) i c → c.role = .accept → c.state ≠ .closed →
      c.latched = false → c.synack = some synAck →
        exec op s =
          .next (s.after (s.slots.set i (some { c with alive := true })) [.tx c.sock c.peer (encodePacket synAck)])) ∧
    ∀ (now : U32) (i : Nat) (c : Ctx) (p : Packet) (s : State), p.type = tySyn → c.role = .connect →
      recvIncoming now i c p s = .ok ⟨s, false⟩

/-- A RESET closes a context whatever its numbers: end-of-read once, a pending write rejected, then the teardown of the
context's role; nothing is sent (R143). -/
def Obligations.ResetForcesClose : Prop :=
  ∀ (op : Instr) (now : U32) (rx : Rx) (h : WireHeader) (pl : Option Bytes) (s : State) (i : Nat) (c : Ctx),
    Receives op now rx tyReset h pl → Reaches s rx (packetOf tyReset h pl) i c → c.state ≠ .closed →
      exec op s =
        .next (s.tornDown i { c with rdone := true, pw := none, endReq := true }
          ((if c.rdone then [] else [.rxEof i]) ++ if c.pw.isSome then [.writeDone i .rejected] else []))

/-- While connecting, a DATA or FIN packet is stored under its own number, with no window test, no acknowledgment
processing and no reply (R144). -/
def Obligations.ConnectingBuffersDataAndFin : Prop :=
  ∀ (op : Instr) (now : U32) (rx : Rx) (ty : BitVec 4) (h : WireHeader) (pl : Option Bytes) (s : State) (i : Nat) (c : Ctx),
    (ty = tyData ∨ ty = tyFin) → Receives op now rx ty h pl → Reaches s rx (packetOf ty h pl) i c →
    c.state = .connecting → c.latched = false →
      exec op s =
        .next (s.after (s.slots.set i (some { c with inRing := ringPut c.inRing h.seq (packetOf ty h pl) })) [])

/-- A STATE packet completes the handshake, whether or not it acknowledges the SYN that is in flight (R124). -/
def Obligations.StateCompletesHandshake : Prop :=
  ∀ (op : Instr) (now : U32) (rx : Rx) (h : WireHeader) (pl : Option Bytes) (s : State) (i : Nat) (c : Ctx),
    Receives op now rx tyState h pl → Reaches s rx (packetOf tyState h pl) i c →
    c.state = .connecting → c.latched = false → c.inFlight = 1 →
    c.pw = none → c.endReq = false → c.finSent = false → ringGet c.inRing h.seq = none →
      exec op s =
        .next (s.after
          (s.slots.set i
            (some
              (if h.ack = c.seq - 1 then
                { c with state := .connected, ack := h.seq - 1, inFlight := 0, outRing := ringDel c.outRing (c.seq - 1) }
              else { c with state := .connected, ack := h.seq - 1 })))
          [.evConnect i])

/-- The handshake replays what was queued while connecting, whether or not the STATE packet acknowledges the SYN: the
segments of a queued write go out up to the cap, and an END goes out as a FIN once no write is pending (R124, R165,
R169). -/
def Obligations.HandshakeReplaysWriteAndEnd : Prop :=
  ∀ (op : Instr) (now : U32) (rx : Rx) (h : WireHeader) (pl : Option Bytes) (s : State) (i : Nat) (c : Ctx),
    Receives op now rx tyState h pl → Reaches s rx (packetOf tyState h pl) i c →
    c.state = .connecting → c.latched = false → c.inFlight = 1 →
    c.finSent = false → ringGet c.inRing h.seq = none →
      let d : Ctx :=
        if h.ack = c.seq - 1 then
          { c with state := .connected, ack := h.seq - 1, inFlight := 0, outRing := ringDel c.outRing (c.seq - 1) }
        else { c with state := .connected, ack := h.seq - 1 }
      (c.pw = none → c.endReq = true →
          exec op s =
            .next (s.after (s.slots.set i (some (d.withFin now)))
              [.evConnect i, .tx c.sock c.peer (encodePacket (finPacket now d))])) ∧
        ∀ w : PendingWrite, c.pw = some w → w.data ≠ [] →
          ∃ (e : Ctx) (events : List Event), Pumped now i d w.data e events ∧
            exec op s = .next (s.after (s.slots.set i (some e)) (.evConnect i :: events))

/-- A DATA packet that was buffered under the STATE packet's own number is delivered and acknowledged in the operation
that completes the handshake (R145). -/
def Obligations.HandshakeDeliversBufferedData : Prop :=
  ∀ (op : Instr) (now : U32) (rx : Rx) (h : WireHeader) (pl : Option Bytes) (s : State) (i : Nat) (c : Ctx) (q : Packet)
    (b : Bytes), Receives op now rx tyState h pl →
    Reaches s rx (packetOf tyState h pl) i c → c.state = .connecting → c.inFlight = 1 → c.pw = none →
    c.endReq = false → c.finSent = false → c.rdone = false → h.ack = c.seq - 1 →
    ringGet c.inRing h.seq = some q → q.type = tyData → q.seq = h.seq → q.payload = some b →
    ringGet c.inRing (h.seq + 1) = none →
      ∃ r : Machine.Ring Packet,
        exec op s =
          .next (s.after
            (s.slots.set i
              (some
                { c with
                  state := .connected, ack := h.seq, inFlight := 0, outRing := ringDel c.outRing (c.seq - 1),
                  inRing := r, alive := true }))
            [.evConnect i, .rxData i b, .tx c.sock c.peer (encodePacket (bareAck now c c.seq h.seq))]) ∧
          ∀ t : U16, ringGet r t = if t.toNat % 512 = h.seq.toNat % 512 then none else ringGet c.inRing t

/-- A DATA or FIN packet in the window: its acknowledgment is processed as that of a STATE packet is (`Acked`: entries
removed, a held write resumed); the packet is stored; the packets `qs` that now stand in order from the cursor are taken
out and delivered in order; one bare ack carries the cursor as that left it; and then the latch is tested (R147, R148,
R150, R151). The packets may carry any number (R49). -/
def Obligations.DataAndFinStoredDrainedAcknowledged : Prop :=
  ∀ (op : Instr) (now : U32) (rx : Rx) (ty : BitVec 4) (h : WireHeader) (pl : Option Bytes) (s : State) (i : Nat) (c : Ctx)
    (qs : List Packet), (ty = tyData ∨ ty = tyFin) → Receives op now rx ty h pl →
    Reaches s rx (packetOf ty h pl) i c → c.state = .connected →
    (h.seq - c.ack).toNat < 512 → (s.dupAtCursorStale = true → h.seq ≠ c.ack) →
    (∀ w, c.pw = some w → w.data ≠ []) →
      let ring : Machine.Ring Packet := ringPut c.inRing h.seq (packetOf ty h pl)
      qs.length ≤ 512 →
      (∀ k q, qs[k]? = some q → ringGet ring (c.ack + 1 + BitVec.ofNat 16 k) = some q) →
      (qs.length < 512 → ringGet ring (c.ack + 1 + BitVec.ofNat 16 qs.length) = none) →
        ∃ (d : Ctx) (events : List Event) (r : Machine.Ring Packet), Acked now i c h.ack d events ∧
          exec op s =
            .next (s.afterLatch i
              { d with
                inRing := r, ack := c.ack + BitVec.ofNat 16 qs.length,
                rdone := c.rdone || qs.any fun q => decide (q.type = tyFin), alive := true }
              (events ++ deliveries i c.rdone qs ++
                [.tx c.sock c.peer (encodePacket (bareAck now c d.seq (c.ack + BitVec.ofNat 16 qs.length)))])) ∧
            ∀ t : U16,
              ((∃ k, k < qs.length ∧ ringIx (c.ack + 1 + BitVec.ofNat 16 k) = ringIx t) → ringGet r t = none) ∧
                ((∀ k, k < qs.length → ringIx (c.ack + 1 + BitVec.ofNat 16 k) ≠ ringIx t) →
                  ringGet r t = ringGet ring t)

/-- DGRAM_P: the next DATA packet in order, with nothing behind it, is delivered and acknowledged (R198, R150). -/
def Obligations.DgramPDeliversNextData : Prop :=
  ∀ (now : U32) (i : Nat) (addr : Addr) (B : Bytes) (p : Packet) (b : Bytes) (s : State) (c : Ctx),
    decodePacket B = some p → p.type = tyData → p.payload = some b → s.connectCtx? i = some c → c.bound = true →
    p.conn = c.recvId → c.state = .connected → c.rdone = false → p.seq = c.ack + 1 → c.ignoresAck p.ack →
    ringGet c.inRing (c.ack + 2) = none →
      ∃ r : Machine.Ring Packet,
        exec (.dgramP now i addr B) s =
          .next (s.after (s.slots.set i (some { c with inRing := r, ack := c.ack + 1, alive := true }))
            [.rxData i b, .tx c.sock c.peer (encodePacket (bareAck now c c.seq (c.ack + 1)))]) ∧
          ∀ t : U16, ringGet r t = if t.toNat % 512 = (c.ack + 1).toNat % 512 then none else ringGet c.inRing t

/-- A packet outside the receive window is answered with a bare ack; neither its acknowledgment nor its payload is used.
With `DUP_AT_CURSOR_STALE` a duplicate at the cursor is such a packet too (R146). -/
def Obligations.StalePacketsGetABareAck : Prop :=
  ∀ (op : Instr) (now : U32) (rx : Rx) (ty : BitVec 4) (h : WireHeader) (pl : Option Bytes) (s : State) (i : Nat) (c : Ctx),
    (ty = tyData ∨ ty = tyFin ∨ ty = tyState) → Receives op now rx ty h pl → Reaches s rx (packetOf ty h pl) i c →
    c.state = .connected → c.latched = false →
    (512 ≤ (h.seq - c.ack).toNat ∨ s.dupAtCursorStale = true ∧ h.seq = c.ack) →
      exec op s =
        .next (s.after (s.slots.set i (some { c with alive := true }))
          [.tx c.sock c.peer (encodePacket (bareAck now c c.seq c.ack))])

/-- A STATE packet in the window acknowledges: it removes exactly the `n` oldest entries, ends the write half of the latch
when that acknowledges the FIN, and sends nothing; an acknowledgment out of range or of unsent numbers is ignored. Then
the latch is tested, so that a half-closed context stays until its FIN is acknowledged (R147, R148, R149). -/
def Obligations.StateAcknowledgesOldestEntries : Prop :=
  ∀ (op : Instr) (now : U32) (rx : Rx) (h : WireHeader) (pl : Option Bytes) (s : State) (i : Nat) (c : Ctx),
    Receives op now rx tyState h pl → Reaches s rx (packetOf tyState h pl) i c →
    c.state = .connected → (h.seq - c.ack).toNat < 512 →
    (s.dupAtCursorStale = true → h.seq ≠ c.ack) → c.pw = none →
      let n : Nat := (h.ack - (c.seq - c.inFlight.setWidth 16) + 1).toNat
      (n = 0 ∨ 512 ≤ n ∨ c.inFlight.toNat < n → exec op s = .next (s.afterLatch i c [])) ∧
        (1 ≤ n → n < 512 → n ≤ c.inFlight.toNat →
          ∃ r : Machine.Ring OutEntry,
            exec op s =
              .next (s.afterLatch i
                { c with
                  outRing := r, inFlight := c.inFlight - BitVec.ofNat 10 n,
                  wdone := c.wdone || (c.finSent && decide (n = c.inFlight.toNat)) } []) ∧
              ∀ t : U16,
                ((∃ k, k < n ∧ ringIx (c.base + BitVec.ofNat 16 k) = ringIx t) → ringGet r t = none) ∧
                  ((∀ k, k < n → ringIx (c.base + BitVec.ofNat 16 k) ≠ ringIx t) → ringGet r t = ringGet c.outRing t))

/-- A write held by the cap resumes when the last packet in flight is acknowledged, not before: its segments go out up to
the cap again, and when they are all, the write completes and an END that waited for it sends its FIN (R149, R165, R166,
R169). -/
def Obligations.FlushResumesHeldWrite : Prop :=
  ∀ (op : Instr) (now : U32) (rx : Rx) (h : WireHeader) (pl : Option Bytes) (s : State) (i : Nat) (c : Ctx) (b : Bytes),
    Receives op now rx tyState h pl → Reaches s rx (packetOf tyState h pl) i c → c.state = .connected →
    (h.seq - c.ack).toNat < 512 → (s.dupAtCursorStale = true → h.seq ≠ c.ack) →
    c.pw = some ⟨b, .flushWait⟩ → b ≠ [] →
      let n : Nat := (c.ackCount h.ack).toNat
      1 ≤ n → n < 512 →
        (n < c.inFlight.toNat →
            ∃ r : Machine.Ring OutEntry, OutRingWithout c n r ∧
              exec op s =
                .next (s.afterLatch i { c with outRing := r, inFlight := c.inFlight - BitVec.ofNat 10 n } [])) ∧
          (n = c.inFlight.toNat →
            ∃ (r : Machine.Ring OutEntry) (d : Ctx) (events : List Event), OutRingWithout c n r ∧
              Pumped now i (c.withoutOldest n r) b d events ∧ exec op s = .next (s.afterLatch i d events))

/-- The two halves of the latch close a context in either order: the acknowledgment of its FIN when end-of-read came
first, the peer's FIN when the acknowledgment did (R127). -/
def Obligations.LatchClosesInEitherOrder : Prop :=
  ∀ (op : Instr) (now : U32) (rx : Rx) (h : WireHeader) (pl : Option Bytes) (s : State) (i : Nat) (c : Ctx),
    c.state = .connected → (s.dupAtCursorStale = true → h.seq ≠ c.ack) →
      (Receives op now rx tyState h pl → Reaches s rx (packetOf tyState h pl) i c → (h.seq - c.ack).toNat < 512 →
        c.rdone = true → c.finSent = true → c.pw = none → 1 ≤ c.inFlight.toNat → c.inFlight.toNat < 512 →
        (c.ackCount h.ack).toNat = c.inFlight.toNat →
          ∃ r : Machine.Ring OutEntry,
            OutRingWithout c c.inFlight.toNat r ∧
              exec op s = .next (s.tornDown i { c with outRing := r, inFlight := 0, wdone := true } [])) ∧
        (Receives op now rx tyFin h pl → Reaches s rx (packetOf tyFin h pl) i c → h.seq = c.ack + 1 →
          c.ignoresAck h.ack → c.rdone = false → c.wdone = true → ringGet c.inRing (c.ack + 2) = none →
            ∃ r : Machine.Ring Packet,
              exec op s =
                .next (s.tornDown i { c with inRing := r, ack := c.ack + 1, rdone := true, alive := true }
                  [.rxEof i, .tx c.sock c.peer (encodePacket (bareAck now c c.seq (c.ack + 1)))]) ∧
                ∀ t : U16, ringGet r t = if t.toNat % 512 = (c.ack + 1).toNat % 512 then none else ringGet c.inRing t)

/-- The connector filter: before BOUND everything is discarded, a SYN is discarded, and a packet with another connection
id is surfaced (R198). -/
def Obligations.PrivateSocketFilter : Prop :=
  ∀ (now : U32) (i : Nat) (addr : Addr) (B : Bytes) (s : State) (c : Ctx), s.connectCtx? i = some c →
    (c.bound = false → exec (.dgramP now i addr B) s = .next (s.unchanged [] .ok .none)) ∧
      ∀ p : Packet, decodePacket B = some p → p.type.toNat ≤ 4 → c.bound = true →
        (p.type = tySyn → exec (.dgramP now i addr B) s = .next (s.unchanged [] .ok .none)) ∧
          (p.type ≠ tySyn → p.conn ≠ c.recvId →
            exec (.dgramP now i addr B) s = .next (s.unchanged [.unrecognized (.psock i) addr B] .ok .none))

/-! ### Sending -/

/-- What WRITE does when it sends nothing: a bad handle, a write still pending, a closed or ended context, an empty
write, a context still connecting (R164). -/
def Obligations.WriteWithoutSending : Prop :=
  ∀ (now : U32) (i : Nat) (b : Bytes) (s : State),
    (s.ctx? i = none → exec (.write now i b) s = .next (s.unchanged [] .badConn .none)) ∧
      ∀ c, s.ctx? i = some c →
        (c.pw ≠ none → exec (.write now i b) s = .next (s.unchanged [] (.refused .writeBusy) .none)) ∧
          (c.pw = none → c.latched = false →
            (c.state = .closed ∨ c.endReq = true →
                exec (.write now i b) s = .next (s.after (s.slots.set i (some c)) [.writeDone i .rejected])) ∧
              (c.state ≠ .closed → c.endReq = false → b = [] →
                exec (.write now i b) s = .next (s.after (s.slots.set i (some c)) [.writeDone i .ok])) ∧
              (c.state = .connecting → c.endReq = false → b ≠ [] →
                exec (.write now i b) s =
                  .next (s.after (s.slots.set i (some { c with pw := some ⟨b, .connectWait⟩ })) [])))

/-- WRITE on a connected context cuts the bytes into segments of at most 1400, sends the first of them while
fewer than 511 packets are in flight, each stored in the outgoing ring with its send time, and completes or holds the
rest for the flush signal (R165, R166, R167). -/
def Obligations.WriteSendsSegmentsUpToTheCap : Prop :=
  ∀ (now : U32) (i : Nat) (b : Bytes) (s : State) (c : Ctx), s.ctx? i = some c → c.state = .connected → c.pw = none →
    c.endReq = false → c.latched = false → b ≠ [] →
      let n : Nat := min (segments b).length (511 - c.inFlight.toNat)
      ∃ r : Machine.Ring OutEntry,
        exec (.write now i b) s =
          .next (s.after
            (s.slots.set i
              (some
                { c with
                  outRing := r, seq := c.seq + BitVec.ofNat 16 n, inFlight := c.inFlight + BitVec.ofNat 10 n,
                  alive := c.alive || decide (1 ≤ n),
                  pw := if n = (segments b).length then none else some ⟨b.drop (1400 * n), .flushWait⟩ }))
            ((((segments b).take n).mapIdx fun k d => .tx c.sock c.peer (encodePacket (dataPacket now c k d))) ++
              if n = (segments b).length then [.writeDone i .ok] else [])) ∧
          (∀ k d, k < n → (segments b)[k]? = some d →
            ringGet r (c.seq + BitVec.ofNat 16 k) = some { packet := dataPacket now c k d, tag := now }) ∧
          ∀ t : U16, (∀ k, k < n → ringIx (c.seq + BitVec.ofNat 16 k) ≠ ringIx t) → ringGet r t = ringGet c.outRing t

/-- The segments of a write: as many as R167 says, none empty, each but the last of 1400 bytes, and together the bytes
written. -/
def Obligations.SegmentsJoinToTheWrite : Prop :=
  ∀ b : Bytes,
    (segments b).flatten = b ∧ (segments b).length = (b.length + 1399) / 1400 ∧
      ∀ k d, (segments b)[k]? = some d →
        1 ≤ d.length ∧ d.length ≤ 1400 ∧ (k + 1 < (segments b).length → d.length = 1400)

/-! ### Ticks -/

/-- TICK_RETX does nothing to a closed or unbound context, or with nothing in flight, or while the oldest entry is not
older than 500000; else it sends every entry older than that again, unchanged, oldest first (R181). -/
def Obligations.TickRetxResendsExpiredEntries : Prop :=
  ∀ (now : U32) (i : Nat) (s : State),
    (s.ctx? i = none → exec (.tickRetx now i) s = .next (s.unchanged [] .badConn .none)) ∧
      ∀ c, s.ctx? i = some c →
        (c.state = .closed ∨ c.bound = false ∨ c.inFlight = 0 →
            exec (.tickRetx now i) s = .next (s.unchanged [] .ok .none)) ∧
          ∀ es : List OutEntry, c.state ≠ .closed → c.bound = true → c.inFlight.toNat = es.length → 1 ≤ es.length →
            es.length ≤ 512 →
            (∀ k e, es[k]? = some e → ringGet c.outRing (c.base + BitVec.ofNat 16 k) = some e) →
              let old : OutEntry → Bool := fun e => decide (500000 < (now - e.tag).toNat)
              (∀ e, es[0]? = some e → old e = false → exec (.tickRetx now i) s = .next (s.unchanged [] .ok .none)) ∧
                (∀ e, es[0]? = some e → old e = true →
                  ∃ r : Machine.Ring OutEntry,
                    exec (.tickRetx now i) s =
                      .next (s.after
                        (s.slots.set i
                          (some
                            { c with
                              outRing := r, alive := true,
                              retxCount := c.retxCount + BitVec.ofNat 32 (es.countP old) }))
                        ((es.filter old).map fun e => .tx c.sock c.peer (encodePacket e.packet))) ∧
                      (∀ k e, es[k]? = some e →
                        ringGet r (c.base + BitVec.ofNat 16 k) =
                          some (if old e && s.retxTagRefresh then { e with tag := now } else e)) ∧
                      ∀ t : U16, (∀ k, k < es.length → ringIx (c.base + BitVec.ofNat 16 k) ≠ ringIx t) →
                        ringGet r t = ringGet c.outRing t)

/-- TICK_KA clears the activity flag of a connected context, or sends a bare ack when it finds it clear (R182). -/
def Obligations.TickKaProbesIdleContexts : Prop :=
  ∀ (now : U32) (i : Nat) (s : State),
    (s.ctx? i = none → exec (.tickKa now i) s = .next (s.unchanged [] .badConn .none)) ∧
      ∀ c, s.ctx? i = some c →
        (c.state ≠ .connected → exec (.tickKa now i) s = .next (s.unchanged [] .ok .none)) ∧
          (c.state = .connected → c.alive = true →
            exec (.tickKa now i) s = .next (s.after (s.slots.set i (some { c with alive := false })) [])) ∧
          (c.state = .connected → c.alive = false →
            exec (.tickKa now i) s =
              .next (s.after (s.slots.set i (some { c with alive := true }))
                [.tx c.sock c.peer (encodePacket (bareAck now c c.seq c.ack))]))

/-- Only the retransmit tick changes the retransmission counter of a context that keeps its slot (R42). -/
def Obligations.OnlyTheRetransmitTickCounts : Prop :=
  ∀ (i : Instr) (s t : State) (j : Nat) (c d : Ctx), (∀ now k, i ≠ .tickRetx now k) → exec i s = .next t →
    s.ctx? j = some c → t.ctx? j = some d → d.retxCount = c.retxCount

/-! ### Status reads -/

/-- CTX_READ answers the registers of R38 and refuses the reserved ones (R201, R38, R39). A length that 32 bits do not
hold shows a free value (log entry 21). -/
def Obligations.CtxReadAnswersTheRegisterMap : Prop :=
  ∀ (now : U32) (i : Nat) (s : State),
    (∀ r, s.ctx? i = none → exec (.ctxRead now i r) s = .next (s.unchanged [] .badConn .none)) ∧
      ∀ c, s.ctx? i = some c →
        (∀ r : Byte, 8 < r.toNat → exec (.ctxRead now i r) s = .next (s.unchanged [] (.refused .reservedReg) .none)) ∧
          exec (.ctxRead now i 0) s =
            .next (s.unchanged [] .ok (.reg (BitVec.ofNat 32
              ((match c.state with | .connecting => 0 | .connected => 1 | .closed => 2) +
                4 * (match c.role with | .accept => 0 | .connect => 1) + 8 * c.bound.toNat + 16 * c.alive.toNat +
                32 * c.endReq.toNat + 64 * c.finSent.toNat + 128 * c.wdone.toNat + 256 * c.rdone.toNat +
                512 * c.pw.isSome.toNat + 1024 * (match c.pw with | some ⟨_, .flushWait⟩ => 1 | _ => 0) +
                2048 * c.synack.isSome.toNat + 4096 * c.grace.toNat)))) ∧
          exec (.ctxRead now i 1) s = .next (s.unchanged [] .ok (.reg (BitVec.ofNat 32 c.recvId.toNat))) ∧
          exec (.ctxRead now i 2) s = .next (s.unchanged [] .ok (.reg (BitVec.ofNat 32 c.sendId.toNat))) ∧
          exec (.ctxRead now i 3) s = .next (s.unchanged [] .ok (.reg (BitVec.ofNat 32 c.seq.toNat))) ∧
          exec (.ctxRead now i 4) s = .next (s.unchanged [] .ok (.reg (BitVec.ofNat 32 c.ack.toNat))) ∧
          exec (.ctxRead now i 5) s = .next (s.unchanged [] .ok (.reg (BitVec.ofNat 32 c.inFlight.toNat))) ∧
          exec (.ctxRead now i 6) s = .next (s.unchanged [] .ok (.addr c.peer)) ∧
          exec (.ctxRead now i 7) s = .next (s.unchanged [] .ok (.reg c.retxCount)) ∧
          (c.pw = none → exec (.ctxRead now i 8) s = .next (s.unchanged [] .ok (.reg 0))) ∧
          ∀ w, c.pw = some w →
            ∃ v : U32, exec (.ctxRead now i 8) s = .next (s.unchanged [] .ok (.reg v)) ∧
              (w.data.length < 2 ^ 32 → v.toNat = w.data.length)

/-- GLB_READ answers the registers of R40 and refuses the reserved ones (R202, R40). A count that 32 bits do not hold
shows a free value (log entry 21). -/
def Obligations.GlbReadAnswersTheRegisterMap : Prop :=
  ∀ (now : U32) (s : State),
    (∀ r : Byte, 2 < r.toNat → exec (.glbRead now r) s = .next (s.unchanged [] (.refused .reservedReg) .none)) ∧
      exec (.glbRead now 0) s =
        .next (s.unchanged [] .ok (.reg (match s.lstate with | .idle => 0 | .listening => 1 | .shutting => 2))) ∧
      (∃ v : U32, exec (.glbRead now 1) s = .next (s.unchanged [] .ok (.reg v)) ∧
          ((s.slots.filter Option.isSome).length < 2 ^ 32 → v.toNat = (s.slots.filter Option.isSome).length)) ∧
      ∃ v : U32, exec (.glbRead now 2) s = .next (s.unchanged [] .ok (.reg v)) ∧
        (s.slots.length < 2 ^ 32 → v.toNat = s.slots.length)

/-- RING_PEEK answers one slot of either ring of a context, changes nothing, and refuses any other selector (R203). -/
def Obligations.RingPeekReadsOneSlot : Prop :=
  ∀ (now : U32) (i : Nat) (which : Byte) (q : U16) (s : State),
    (s.ctx? i = none → exec (.ringPeek now i which q) s = .next (s.unchanged [] .badConn .none)) ∧
      ∀ c, s.ctx? i = some c →
        (1 < which.toNat → exec (.ringPeek now i which q) s = .next (s.unchanged [] (.refused .reservedReg) .none)) ∧
          exec (.ringPeek now i 0 q) s = .next (s.unchanged [] .ok (.outSlot (ringGet c.outRing q))) ∧
          exec (.ringPeek now i 1 q) s = .next (s.unchanged [] .ok (.inSlot (ringGet c.inRing q))) ∧
          ∀ k : Nat, exec (.ringPeek now i which (q + BitVec.ofNat 16 (512 * k))) s = exec (.ringPeek now i which q) s

/-! ### The whole machine -/

/-- The codes of events, statuses, reasons and errors (R89, R228, R224). -/
def Obligations.OutputCodes : Prop :=
  (∀ a b c d e, (Event.tx a b c).code = 1 ∧ (Event.rxData d c).code = 2 ∧ (Event.rxEof d).code = 3 ∧
      (Event.evConnect d).code = 4 ∧ (Event.evAccept d).code = 5 ∧ (Event.evClose d).code = 6 ∧
      (Event.evError e .errSocket).code = 7 ∧ (∀ w, (Event.writeDone d w).code = 8) ∧
      (Event.unrecognized a b c).code = 9 ∧ (Event.bindReq d).code = 10 ∧ (Event.timerStart d).code = 11 ∧
      (Event.timerStop d).code = 12 ∧ (Event.graceStart d).code = 13 ∧ (Event.sockClose a).code = 14 ∧
      Event.evLclosed.code = 15) ∧
    Status.ok.code = 0 ∧ Status.badConn.code = 1 ∧ Status.short.code = 2 ∧ Status.tableFull.code = 3 ∧
    (∀ r, (Status.refused r).code = 4) ∧ Reason.reservedOp.code = 1 ∧ Reason.reservedReg.code = 2 ∧
    Reason.writeBusy.code = 3 ∧ Reason.listenState.code = 4 ∧ WriteStatus.ok.code = 0 ∧ WriteStatus.rejected.code = 1 ∧
    ErrCode.errSocket.code = 1

/-- After reset the listener is idle, every slot FREE and the test ring empty, whatever the parameters (R43). -/
def Obligations.ResetLeavesAnEmptyBlock : Prop :=
  (∀ (n : Nat) (dup refresh : Bool),
      (State.resetWith n dup refresh).lstate = .idle ∧ (State.resetWith n dup refresh).maxConn = n ∧
        (∀ i, (State.resetWith n dup refresh).ctx? i = none) ∧
        ∀ q, ringGet (State.resetWith n dup refresh).tring q = none) ∧
    ∃ n, State.reset = State.resetWith n false true

/-- The state after reset is legal, whatever the parameters. -/
def Obligations.ResetIsLegal : Prop := ∀ (n : Nat) (dup refresh : Bool), 1 ≤ n → EngineInv (State.resetWith n dup refresh)

/-- HEADLINE. Every step from a legal state leads to a legal state. -/
def Obligations.EveryStepKeepsStatesLegal : Prop := ∀ s t : State, EngineInv s → step s = .next t → EngineInv t

/-- HEADLINE. No step from a legal state stops: every instruction, and every frame that is none, completes. -/
def Obligations.LegalStatesNeverStop : Prop := ∀ s : State, EngineInv s → ∃ t, step s = .next t

/-- Every datagram emitted from a legal state is 20 to 1420 bytes long (R93). -/
def Obligations.EmittedDatagramsFitTheMtu : Prop :=
  ∀ (i : Instr) (s t : State) (sock : Sock) (addr : Addr) (b : Bytes), EngineInv s → exec i s = .next t →
    Event.tx sock addr b ∈ t.events → 20 ≤ b.length ∧ b.length ≤ 1420

/-- From a legal state an instruction moves each slot only as R120 lists: a context keeps its role, its peer, its socket,
its SYN-ACK and, once bound, its ids; its flags other than `alive` are never cleared; CLOSED is terminal. -/
def Obligations.ContextsMoveOnlyAsListed : Prop :=
  ∀ (i : Instr) (s t : State), EngineInv s → exec i s = .next t →
    ∀ j, SlotMove (s.ctx? j) (t.ctx? j)

/-- The notifications of R132: a connect notification marks exactly the connecting-role context that becomes CONNECTED from
CONNECTING (or closes in the same operation by the latch, with its write half set), an accept notification exactly the new
accepting-role context, a close notification exactly the end of a context that was not closed; and no operation gives one
of them twice. -/
def Obligations.LifecycleNotificationsMarkTheirMoves : Prop :=
  ∀ (i : Instr) (s t : State) (j : Nat), EngineInv s → exec i s = .next t →
    (Event.evConnect j ∈ t.events ↔
        ∃ c d, s.ctx? j = some c ∧ t.ctx? j = some d ∧ c.role = .connect ∧ c.state = .connecting ∧
          (d.state = .connected ∨ d.state = .closed ∧ d.wdone = true)) ∧
      (Event.evAccept j ∈ t.events ↔ s.ctx? j = none ∧ ∃ d, t.ctx? j = some d ∧ d.role = .accept) ∧
      (∀ d, s.ctx? j = none → t.ctx? j = some d → d.role = .accept → d.state = .connected) ∧
      (Event.evClose j ∈ t.events ↔
        ∃ c, s.ctx? j = some c ∧ c.state ≠ .closed ∧ ∀ d, t.ctx? j = some d → d.state = .closed) ∧
      t.events.count (.evConnect j) ≤ 1 ∧ t.events.count (.evAccept j) ≤ 1 ∧ t.events.count (.evClose j) ≤ 1

/-- No instruction changes the size of the table, the parameters, or the frames still waiting. An instruction that names
a context touches no other slot, and of the listener only its close; a datagram on the listener socket touches at most
one slot (R73). -/
def Obligations.OneContextPerOperation : Prop :=
  ∀ (i : Instr) (s t : State), exec i s = .next t →
    (t.maxConn = s.maxConn ∧ t.dupAtCursorStale = s.dupAtCursorStale ∧ t.retxTagRefresh = s.retxTagRefresh ∧
        t.port = s.port) ∧
      (∀ c, handleOf i = some c →
        (∀ j, j ≠ c → t.slots[j]? = s.slots[j]?) ∧
          (t.lstate = s.lstate ∨ s.lstate = .shutting ∧ t.lstate = .idle)) ∧
      ((∃ now addr B isn, i = .dgramL now addr B isn) →
        ∃ k : Nat, ∀ j, j ≠ k → t.slots[j]? = s.slots[j]?)

/-- HEADLINE. What an instruction does to a connecting-role context it names depends on nothing else of the table: two
states that agree on that context and on the parameters give it the same new contents, the same events and the same
result (R73). -/
def Obligations.ConnectingRoleContextsAreIsolated : Prop :=
  ∀ (i : Instr) (c : Nat) (x : Ctx) (s s' t : State), handleOf i = some c → s.ctx? c = some x → s'.ctx? c = some x →
    x.role = .connect → s'.dupAtCursorStale = s.dupAtCursorStale → s'.retxTagRefresh = s.retxTagRefresh →
    exec i s = .next t →
      t.lstate = s.lstate ∧
        ∃ t', exec i s' = .next t' ∧ t'.ctx? c = t.ctx? c ∧ t'.events = t.events ∧ t'.result = t.result ∧
          t'.lstate = s'.lstate
end

