-- ==== Sys2Proof/Laws/State.lean ====
section
/-! SUPPORT. One lemma per field per update of the state and of a run, so that no proof unfolds a record update. -/

namespace Sys2Proof.Machine

open Sys2Proof.Config

/-! ### `State.emits` -/

@[simp] theorem emits_lstate (s : State) (es : List Event) : (s.emits es).lstate = s.lstate := rfl
@[simp] theorem emits_slots (s : State) (es : List Event) : (s.emits es).slots = s.slots := rfl
@[simp] theorem emits_tring (s : State) (es : List Event) : (s.emits es).tring = s.tring := rfl
@[simp] theorem emits_dup (s : State) (es : List Event) : (s.emits es).dupAtCursorStale = s.dupAtCursorStale := rfl
@[simp] theorem emits_refresh (s : State) (es : List Event) : (s.emits es).retxTagRefresh = s.retxTagRefresh := rfl
@[simp] theorem emits_port (s : State) (es : List Event) : (s.emits es).port = s.port := rfl
@[simp] theorem emits_events (s : State) (es : List Event) : (s.emits es).events = s.events ++ es := rfl
@[simp] theorem emits_result (s : State) (es : List Event) : (s.emits es).result = s.result := rfl
@[simp] theorem emits_maxConn (s : State) (es : List Event) : (s.emits es).maxConn = s.maxConn := rfl
@[simp] theorem emits_ctx? (s : State) (es : List Event) (i : Nat) : (s.emits es).ctx? i = s.ctx? i := rfl
@[simp] theorem emits_connectCtx? (s : State) (es : List Event) (i : Nat) :
    (s.emits es).connectCtx? i = s.connectCtx? i := rfl

/-! ### `State.setSlot` -/

@[simp] theorem setSlot_lstate (s : State) (i : Nat) (o : Option Ctx) : (s.setSlot i o).lstate = s.lstate := rfl
@[simp] theorem setSlot_slots (s : State) (i : Nat) (o : Option Ctx) : (s.setSlot i o).slots = s.slots.set i o := rfl
@[simp] theorem setSlot_tring (s : State) (i : Nat) (o : Option Ctx) : (s.setSlot i o).tring = s.tring := rfl
@[simp] theorem setSlot_dup (s : State) (i : Nat) (o : Option Ctx) :
    (s.setSlot i o).dupAtCursorStale = s.dupAtCursorStale := rfl
@[simp] theorem setSlot_refresh (s : State) (i : Nat) (o : Option Ctx) :
    (s.setSlot i o).retxTagRefresh = s.retxTagRefresh := rfl
@[simp] theorem setSlot_port (s : State) (i : Nat) (o : Option Ctx) : (s.setSlot i o).port = s.port := rfl
@[simp] theorem setSlot_events (s : State) (i : Nat) (o : Option Ctx) : (s.setSlot i o).events = s.events := rfl
@[simp] theorem setSlot_result (s : State) (i : Nat) (o : Option Ctx) : (s.setSlot i o).result = s.result := rfl
@[simp] theorem setSlot_maxConn (s : State) (i : Nat) (o : Option Ctx) : (s.setSlot i o).maxConn = s.maxConn := by
  simp [State.maxConn]

/-! ### `State.start` -/

@[simp] theorem start_lstate (s : State) : s.start.lstate = s.lstate := rfl
@[simp] theorem start_slots (s : State) : s.start.slots = s.slots := rfl
@[simp] theorem start_tring (s : State) : s.start.tring = s.tring := rfl
@[simp] theorem start_dup (s : State) : s.start.dupAtCursorStale = s.dupAtCursorStale := rfl
@[simp] theorem start_refresh (s : State) : s.start.retxTagRefresh = s.retxTagRefresh := rfl
@[simp] theorem start_port (s : State) : s.start.port = s.port := rfl
@[simp] theorem start_events (s : State) : s.start.events = [] := rfl
@[simp] theorem start_result (s : State) : s.start.result = s.result := rfl
@[simp] theorem start_maxConn (s : State) : s.start.maxConn = s.maxConn := rfl
@[simp] theorem start_ctx? (s : State) (i : Nat) : s.start.ctx? i = s.ctx? i := rfl
@[simp] theorem start_connectCtx? (s : State) (i : Nat) : s.start.connectCtx? i = s.connectCtx? i := rfl

/-! ### `State.runOn` -/

@[simp] theorem runOn_lstate (s : State) (i : Nat) (c : Ctx) (f : Run → Run) : (s.runOn i c f).lstate = s.lstate := rfl
@[simp] theorem runOn_slots (s : State) (i : Nat) (c : Ctx) (f : Run → Run) :
    (s.runOn i c f).slots = s.slots.set i (some (f ⟨c, []⟩).ctx) := rfl
@[simp] theorem runOn_tring (s : State) (i : Nat) (c : Ctx) (f : Run → Run) : (s.runOn i c f).tring = s.tring := rfl
@[simp] theorem runOn_dup (s : State) (i : Nat) (c : Ctx) (f : Run → Run) :
    (s.runOn i c f).dupAtCursorStale = s.dupAtCursorStale := rfl
@[simp] theorem runOn_refresh (s : State) (i : Nat) (c : Ctx) (f : Run → Run) :
    (s.runOn i c f).retxTagRefresh = s.retxTagRefresh := rfl
@[simp] theorem runOn_port (s : State) (i : Nat) (c : Ctx) (f : Run → Run) : (s.runOn i c f).port = s.port := rfl
@[simp] theorem runOn_events (s : State) (i : Nat) (c : Ctx) (f : Run → Run) :
    (s.runOn i c f).events = s.events ++ (f ⟨c, []⟩).ev := rfl
@[simp] theorem runOn_result (s : State) (i : Nat) (c : Ctx) (f : Run → Run) : (s.runOn i c f).result = s.result := rfl

/-! ### `Run.emit` and `transmit` -/

@[simp] theorem emit_ctx (r : Run) (e : Event) : (r.emit e).ctx = r.ctx := rfl
@[simp] theorem emit_ev (r : Run) (e : Event) : (r.emit e).ev = r.ev ++ [e] := rfl
@[simp] theorem transmit_ctx (p : Packet) (r : Run) : (transmit p r).ctx = { r.ctx with alive := true } := rfl
@[simp] theorem transmit_ev (p : Packet) (r : Run) :
    (transmit p r).ev = r.ev ++ [.tx r.ctx.sock r.ctx.peer (encodePacket p)] := rfl

/-! ### Answers: each is a next state -/

@[simp] theorem answer_eq (s : State) (st : Status) (v : Value) :
    s.answer st v = .next { s with result := some ⟨st, v⟩ } := rfl
@[simp] theorem done_eq (s : State) : s.done = .next { s with result := some ⟨.ok, .none⟩ } := rfl
@[simp] theorem badConn_eq (s : State) :
    s.badConn = .next { s with events := [], result := some ⟨.badConn, .none⟩ } := rfl
@[simp] theorem refuse_eq (s : State) (r : Reason) :
    s.refuse r = .next { s with events := [], result := some ⟨.refused r, .none⟩ } := rfl
@[simp] theorem discard_eq (s : State) : s.discard = .next { s with events := [], result := some ⟨.ok, .none⟩ } := rfl
@[simp] theorem surface_eq (s : State) (sock : Sock) (addr : Addr) (raw : Bytes) :
    s.surface sock addr raw =
      .next { s with events := s.events ++ [.unrecognized sock addr raw], result := some ⟨.ok, .none⟩ } := rfl

end Sys2Proof.Machine
end

