-- ==== Sys2Proof/Laws/Codec.lean ====
section
/-! SUPPORT. The laws of the codec's field primitives (00_scope.md rule R14, 30_encoding.md rules R80, R83). -/

namespace Sys2Proof

open Sys2Proof.Config

@[simp] theorem bytes16_length (v : U16) : (bytes16 v).length = 2 := rfl
@[simp] theorem bytes32_length (v : U32) : (bytes32 v).length = 4 := rfl

/-- Two bytes written and read back (R14). -/
theorem join16 (v : U16) : (v.extractLsb' 8 8 ++ v.extractLsb' 0 8 : BitVec 16) = v := by
  ext i hi
  simp only [BitVec.getElem_append, BitVec.getElem_extractLsb']
  split
  · simp [BitVec.getLsbD_eq_getElem hi]
  · rw [BitVec.getLsbD_eq_getElem (by omega)]; congr 1; omega

/-- Two halves written and read back (R14). -/
theorem join32 (v : U32) : (v.extractLsb' 16 16 ++ v.extractLsb' 0 16 : BitVec 32) = v := by
  ext i hi
  simp only [BitVec.getElem_append, BitVec.getElem_extractLsb']
  split
  · simp [BitVec.getLsbD_eq_getElem hi]
  · rw [BitVec.getLsbD_eq_getElem (by omega)]; congr 1; omega

/-- The high nibble of byte 0 (R81). -/
theorem extract_high (a b : BitVec 4) : (a ++ b : BitVec 8).extractLsb' 4 4 = a := by
  ext i hi
  simp only [BitVec.getElem_extractLsb', BitVec.getLsbD_append]
  rw [if_neg (by omega), BitVec.getLsbD_eq_getElem (by omega)]
  congr 1; omega

/-- The low nibble of byte 0 (R81). -/
theorem extract_low (a b : BitVec 4) : (a ++ b : BitVec 8).extractLsb' 0 4 = b := by
  ext i hi
  simp only [BitVec.getElem_extractLsb', BitVec.getLsbD_append]
  rw [if_pos (by omega), BitVec.getLsbD_eq_getElem (by omega)]
  congr 1; omega

/-- Byte 0 from its nibbles. -/
theorem join_nibbles (b : Byte) : (b.extractLsb' 4 4 ++ b.extractLsb' 0 4 : BitVec 8) = b := by
  ext i hi
  simp only [BitVec.getElem_append, BitVec.getElem_extractLsb']
  split
  · simp [BitVec.getLsbD_eq_getElem hi]
  · rw [BitVec.getLsbD_eq_getElem (by omega)]; congr 1; omega

/-- A wire packet as its 20 header bytes, written out, and the payload (R80). -/
theorem wireBytes_eq (t : BitVec 4) (h : WireHeader) (pl : Option Bytes) :
    wireBytes t h pl =
      [(t ++ h.ver : Byte), h.ext, h.conn.extractLsb' 8 8, h.conn.extractLsb' 0 8,
        (h.ts.extractLsb' 16 16).extractLsb' 8 8, (h.ts.extractLsb' 16 16).extractLsb' 0 8,
        (h.ts.extractLsb' 0 16).extractLsb' 8 8, (h.ts.extractLsb' 0 16).extractLsb' 0 8,
        (h.tdiff.extractLsb' 16 16).extractLsb' 8 8, (h.tdiff.extractLsb' 16 16).extractLsb' 0 8,
        (h.tdiff.extractLsb' 0 16).extractLsb' 8 8, (h.tdiff.extractLsb' 0 16).extractLsb' 0 8,
        (h.wnd.extractLsb' 16 16).extractLsb' 8 8, (h.wnd.extractLsb' 16 16).extractLsb' 0 8,
        (h.wnd.extractLsb' 0 16).extractLsb' 8 8, (h.wnd.extractLsb' 0 16).extractLsb' 0 8,
        h.seq.extractLsb' 8 8, h.seq.extractLsb' 0 8, h.ack.extractLsb' 8 8, h.ack.extractLsb' 0 8] ++ pl.getD [] :=
  rfl

/-- The length of a wire packet (R93). -/
theorem wireBytes_length (t : BitVec 4) (h : WireHeader) (pl : Option Bytes) :
    (wireBytes t h pl).length = hdrLen + (pl.getD []).length := by
  rw [wireBytes_eq, List.length_append]; rfl

/-- A wire packet's type, header and payload read back (R83, R84). -/
theorem wireType_wireBytes (t : BitVec 4) (h : WireHeader) (pl : Option Bytes) : wireType (wireBytes t h pl) = t := by
  simp only [wireBytes_eq, wireType, byteAt, List.cons_append, List.getD_cons_zero]
  exact extract_high t h.ver

theorem wireHeader_wireBytes (t : BitVec 4) (h : WireHeader) (pl : Option Bytes) :
    wireHeader (wireBytes t h pl) = h := by
  simp only [wireBytes_eq, wireHeader, memRead32, memRead16, byteAt, List.cons_append, List.getD_cons_zero,
    List.getD_cons_succ, join16, join32]
  simp only [extract_low]

theorem wirePayload_wireBytes (t : BitVec 4) (h : WireHeader) {pl : Option Bytes} (hp : payloadOk pl) :
    wirePayload (wireBytes t h pl) = pl := by
  rw [wirePayload, wireBytes_length]
  match pl, hp with
  | none, _ => rfl
  | some [], hp => exact absurd rfl hp
  | some (b :: bs), _ => rw [if_neg (by simp)]; rfl

end Sys2Proof
end

