-- ==== Sys2Proof/Laws/Ring.lean ====
section
/-! SUPPORT. The laws of rings (41_ring.md rules R110 to R114): what a slot reads after a put or a delete, and that
both keep the canonical form. -/

namespace Sys2Proof.Machine

open Sys2Proof.Config

variable {α : Type}

theorem ringIx_lt (s : U16) : ringIx s < ringCap := Nat.mod_lt _ (by decide)

@[simp] theorem ringAt_nil (j : Nat) : ringAt ([] : Ring α) j = none := rfl

theorem ringAt_ringSet (r : Ring α) (j k : Nat) (v : α) :
    ringAt (ringSet r j v) k = if j = k then some v else ringAt r k := by
  induction r with
  | nil => rfl
  | cons e t ih =>
    obtain ⟨i, w⟩ := e
    simp only [ringSet]
    split
    · rfl
    · split
      · next h => subst h; simp only [ringAt]; split <;> rfl
      · simp only [ringAt, ih]
        split <;> split <;> simp_all

theorem ringAt_filter (r : Ring α) (j k : Nat) :
    ringAt (r.filter fun e => e.1 ≠ j) k = if j = k then none else ringAt r k := by
  induction r with
  | nil => simp
  | cons e t ih =>
    obtain ⟨i, w⟩ := e
    simp only [List.filter_cons]
    by_cases hij : i = j
    · subst hij
      simp only [ne_eq, not_true_eq_false, decide_false, Bool.false_eq_true, if_false, ringAt, ih]
      split <;> rfl
    · simp only [ne_eq, hij, not_false_eq_true, decide_true, if_true, ringAt, ih]
      split <;> split <;> simp_all

/-- A slot after a put (R111). -/
theorem ringGet_ringPut (r : Ring α) (s q : U16) (v : α) :
    ringGet (ringPut r s v) q = if ringIx s = ringIx q then some v else ringGet r q := ringAt_ringSet ..

/-- A slot after a delete (R113). -/
theorem ringGet_ringDel (r : Ring α) (s q : U16) :
    ringGet (ringDel r s) q = if ringIx s = ringIx q then none else ringGet r q := ringAt_filter ..

@[simp] theorem ringGet_ringPut_self (r : Ring α) (s : U16) (v : α) : ringGet (ringPut r s v) s = some v := by
  simp [ringGet_ringPut]

@[simp] theorem ringGet_ringDel_self (r : Ring α) (s : U16) : ringGet (ringDel r s) s = none := by
  simp [ringGet_ringDel]

/-- Sequence numbers 512 apart share a slot (R114). -/
theorem ringIx_add_mul (s : U16) (k : Nat) : ringIx (s + BitVec.ofNat 16 (512 * k)) = ringIx s := by
  simp only [ringIx, ringCap, BitVec.toNat_add, BitVec.toNat_ofNat]
  omega

theorem mem_of_ringAt {r : Ring α} {j : Nat} {v : α} (h : ringAt r j = some v) : (j, v) ∈ r := by
  induction r with
  | nil => cases h
  | cons e t ih =>
    obtain ⟨k, w⟩ := e
    simp only [ringAt] at h
    split at h
    · cases h; subst_vars; simp
    · exact List.mem_cons_of_mem _ (ih h)

theorem mem_of_ringGet {r : Ring α} {s : U16} {v : α} (h : ringGet r s = some v) : (ringIx s, v) ∈ r := mem_of_ringAt h

theorem mem_ringSet {r : Ring α} {j : Nat} {v : α} {e : Nat × α} (h : e ∈ ringSet r j v) : e = (j, v) ∨ e ∈ r := by
  induction r with
  | nil => exact .inl (by simpa [ringSet] using h)
  | cons x t ih =>
    obtain ⟨k, w⟩ := x
    simp only [ringSet] at h
    split at h
    · rcases List.mem_cons.1 h with h | h
      · exact .inl h
      · exact .inr h
    · split at h
      · rcases List.mem_cons.1 h with h | h
        · exact .inl h
        · exact .inr (List.mem_cons_of_mem _ h)
      · rcases List.mem_cons.1 h with h | h
        · exact .inr (h ▸ List.mem_cons_self ..)
        · exact (ih h).imp id (List.mem_cons_of_mem _)

theorem mem_ringPut {r : Ring α} {s : U16} {v : α} {e : Nat × α} (h : e ∈ ringPut r s v) :
    e = (ringIx s, v) ∨ e ∈ r := mem_ringSet h

theorem mem_ringDel {r : Ring α} {s : U16} {e : Nat × α} (h : e ∈ ringDel r s) : e ∈ r := (List.mem_filter.1 h).1

/-! ### The canonical form -/

theorem ringSet_pairwise {r : Ring α} (h : List.Pairwise (· < ·) (r.map Prod.fst)) (j : Nat) (v : α) :
    List.Pairwise (· < ·) ((ringSet r j v).map Prod.fst) := by
  induction r with
  | nil => simp [ringSet]
  | cons x t ih =>
    obtain ⟨k, w⟩ := x
    simp only [List.map_cons, List.pairwise_cons, List.mem_map] at h
    simp only [ringSet]
    split
    · next hj =>
      simp only [List.map_cons, List.pairwise_cons, List.mem_cons, List.mem_map]
      refine ⟨?_, h.1 , h.2⟩
      rintro a (rfl | ha)
      · exact hj
      · exact Nat.lt_trans hj (h.1 a ha)
    · split
      · next hj => subst hj; simpa [List.pairwise_cons] using h
      · simp only [List.map_cons, List.pairwise_cons, List.mem_map]
        refine ⟨?_, ih h.2⟩
        rintro a ⟨e, he, rfl⟩
        rcases mem_ringSet he with rfl | he
        · show k < j; omega
        · exact h.1 _ ⟨e, he, rfl⟩

/-- A put keeps the canonical form. -/
theorem ringPut_wf {r : Ring α} (h : Ring.wf r) (s : U16) (v : α) : Ring.wf (ringPut r s v) := by
  refine ⟨ringSet_pairwise h.1 _ _, fun e he => ?_⟩
  rcases mem_ringPut he with rfl | he
  · exact ringIx_lt s
  · exact h.2 e he

/-- A delete keeps the canonical form. -/
theorem ringDel_wf {r : Ring α} (h : Ring.wf r) (s : U16) : Ring.wf (ringDel r s) :=
  ⟨h.1.sublist (List.filter_sublist.map _), fun e he => h.2 e (mem_ringDel he)⟩

/-- A delete of an occupied slot shortens the list: the drain loop ends. -/
theorem ringDel_length_lt {r : Ring α} {s : U16} {v : α} (h : ringGet r s = some v) :
    (ringDel r s).length < r.length := by
  refine List.length_filter_lt_length_iff_exists.2 ⟨_, mem_of_ringGet h, ?_⟩
  simp

/-- In canonical form an entry is what its slot reads. -/
theorem ringAt_of_mem {r : Ring α} (h : List.Pairwise (· < ·) (r.map Prod.fst)) {e : Nat × α} (he : e ∈ r) :
    ringAt r e.1 = some e.2 := by
  induction r with
  | nil => cases he
  | cons x t ih =>
    obtain ⟨k, w⟩ := x
    simp only [List.map_cons, List.pairwise_cons, List.mem_map] at h
    rcases List.mem_cons.1 he with rfl | he
    · simp [ringAt]
    · have hlt := h.1 e.1 ⟨e, he, rfl⟩
      simp only [ringAt, if_neg (Nat.ne_of_lt hlt)]
      exact ih h.2 he

end Sys2Proof.Machine
end

