-- ==== Sys2Proof/Laws/Conn.lean ====
section
/-! SUPPORT. What each operation on one context can do: the fields it leaves alone (`SendFrame`, `RecvFrame`), that it
only appends events, and its cases. Later proofs cite these and unfold no operation. -/

namespace Sys2Proof.Machine

open Sys2Proof.Config

/-! ### Frames -/

/-- The fields that the send path and the processing of an acknowledgment leave alone. What is left to change: `seq`,
`inFlight`, `outRing`, `alive`, `pw`, and `finSent` and `wdone`, which are never cleared. -/
structure SendFrame (c d : Ctx) : Prop where
  role : d.role = c.role
  state : d.state = c.state
  sock : d.sock = c.sock
  peer : d.peer = c.peer
  bound : d.bound = c.bound
  recvId : d.recvId = c.recvId
  sendId : d.sendId = c.sendId
  ack : d.ack = c.ack
  inRing : d.inRing = c.inRing
  synack : d.synack = c.synack
  endReq : d.endReq = c.endReq
  rdone : d.rdone = c.rdone
  grace : d.grace = c.grace
  retxCount : d.retxCount = c.retxCount
  finSent : c.finSent = true → d.finSent = true
  wdone : c.wdone = true → d.wdone = true

theorem SendFrame.refl (c : Ctx) : SendFrame c c := by constructor <;> simp

theorem SendFrame.trans {c d e : Ctx} (h : SendFrame c d) (k : SendFrame d e) : SendFrame c e := by
  obtain ⟨h1, h2, h3, h4, h5, h6, h7, h8, h9, h10, h11, h12, h13, h14, h15, h16⟩ := h
  obtain ⟨k1, k2, k3, k4, k5, k6, k7, k8, k9, k10, k11, k12, k13, k14, k15, k16⟩ := k
  constructor <;> simp_all

theorem transmit_frame (p : Packet) (r : Run) : SendFrame r.ctx (transmit p r).ctx := by constructor <;> simp

theorem sendAck_frame (now : U32) (r : Run) : SendFrame r.ctx (sendAck now r).ctx := transmit_frame ..

/-- Everything `SendOutgoing` does to the context (R163). -/
@[simp] theorem sendOutgoing_ctx (p : Packet) (r : Run) :
    (sendOutgoing p r).ctx =
      { r.ctx with
        outRing := ringPut r.ctx.outRing p.seq { packet := p, tag := p.ts }
        seq := r.ctx.seq + 1
        inFlight := r.ctx.inFlight + 1
        alive := true } := rfl

@[simp] theorem sendOutgoing_ev (p : Packet) (r : Run) :
    (sendOutgoing p r).ev = r.ev ++ [.tx r.ctx.sock r.ctx.peer (encodePacket p)] := rfl

theorem sendOutgoing_frame (p : Packet) (r : Run) : SendFrame r.ctx (sendOutgoing p r).ctx := by
  constructor <;> simp

/-- Everything `TryFin` does (R169). -/
theorem tryFin_cases (now : U32) (r : Run) :
    (r.ctx.finDue = false ∧ tryFin now r = r) ∨
      (r.ctx.finDue = true ∧
        tryFin now r =
          { ctx := { (sendOutgoing (makePacket now r.ctx tyFin none) r).ctx with finSent := true }
            ev := r.ev ++ [.tx r.ctx.sock r.ctx.peer (encodePacket (makePacket now r.ctx tyFin none))] }) := by
  unfold tryFin
  by_cases h : r.ctx.finDue <;> simp [h, sendOutgoing, transmit]

theorem finDue_iff (c : Ctx) :
    c.finDue = true ↔ c.endReq = true ∧ c.finSent = false ∧ c.pw = none ∧ c.state = .connected := by
  simp [Ctx.finDue, and_assoc]

theorem tryFin_frame (now : U32) (r : Run) : SendFrame r.ctx (tryFin now r).ctx := by
  rcases tryFin_cases now r with ⟨-, h⟩ | ⟨-, h⟩ <;> rw [h]
  · exact .refl _
  · constructor <;> simp

/-- `TryFin` never touches the pending write. -/
theorem tryFin_pw (now : U32) (r : Run) : (tryFin now r).ctx.pw = r.ctx.pw := by
  rcases tryFin_cases now r with ⟨-, h⟩ | ⟨-, h⟩ <;> rw [h]; rfl

theorem SendFrame.setPw {c d : Ctx} (h : SendFrame c d) (w : Option PendingWrite) :
    SendFrame c { d with pw := w } := by
  obtain ⟨h1, h2, h3, h4, h5, h6, h7, h8, h9, h10, h11, h12, h13, h14, h15, h16⟩ := h
  constructor <;> simp_all

theorem pumpLoop_frame (now : U32) (i : Nat) (fuel : Nat) (r : Run) :
    SendFrame r.ctx (pumpLoop now i fuel r).ctx := by
  induction fuel generalizing r with
  | zero => exact .refl _
  | succ n ih =>
    rw [pumpLoop]
    split
    · exact .refl _
    · split
      · exact (SendFrame.refl _).setPw _
      · simp only
        split
        · refine SendFrame.trans ?_ (tryFin_frame now _)
          exact (sendOutgoing_frame _ r).setPw none
        · refine SendFrame.trans ?_ (ih _)
          exact (sendOutgoing_frame _ r).setPw _

theorem pump_frame (now : U32) (i : Nat) (r : Run) : SendFrame r.ctx (pump now i r).ctx := by
  unfold pump
  split
  · exact pumpLoop_frame ..
  · exact .refl _

theorem SendFrame.setWdone {c d : Ctx} (h : SendFrame c d) : SendFrame c { d with wdone := true } := by
  obtain ⟨h1, h2, h3, h4, h5, h6, h7, h8, h9, h10, h11, h12, h13, h14, h15, h16⟩ := h
  constructor <;> simp_all

/-- Everything `OnFlush` does (R149). -/
theorem onFlush_cases (now : U32) (i : Nat) (r : Run) :
    (flushResumes r.ctx.pw = false ∧
      onFlush now i r = { r with ctx := { r.ctx with wdone := r.ctx.wdone || r.ctx.finSent } }) ∨
      (flushResumes r.ctx.pw = true ∧
        onFlush now i r = pump now i { r with ctx := { r.ctx with wdone := r.ctx.wdone || r.ctx.finSent } }) := by
  obtain ⟨c, ev⟩ := r
  unfold onFlush
  by_cases hf : c.finSent = true
  · cases h : flushResumes c.pw <;> simp [hf, h]
  · have hf' : c.finSent = false := by simpa using hf
    cases h : flushResumes c.pw <;> simp [hf', h]
    · obtain ⟨⟩ := c; simp_all
    · obtain ⟨⟩ := c; simp_all

theorem onFlush_frame (now : U32) (i : Nat) (r : Run) : SendFrame r.ctx (onFlush now i r).ctx := by
  have h0 : SendFrame r.ctx { r.ctx with wdone := r.ctx.wdone || r.ctx.finSent } := by
    constructor <;> simp +contextual
  rcases onFlush_cases now i r with ⟨-, h⟩ | ⟨-, h⟩ <;> rw [h]
  · exact h0
  · refine SendFrame.trans ?_ (pump_frame now i _)
    exact h0

/-- The removals of `RecvAck` change the outgoing ring and the counter only (R148). -/
theorem dropAcked_eq (k : Nat) (s : U16) (c : Ctx) :
    dropAcked k s c = { c with outRing := (dropAcked k s c).outRing, inFlight := c.inFlight - BitVec.ofNat 10 k } := by
  induction k generalizing s c with
  | zero => simp [dropAcked]
  | succ n ih =>
    rw [dropAcked, ih]
    simp only [Ctx.mk.injEq, true_and, and_true]
    rw [BitVec.ofNat_add, BitVec.sub_sub, BitVec.add_comm]
    rfl

/-- The slots of the outgoing ring after the removals of `RecvAck` (R148). -/
theorem ringAt_dropAcked (k : Nat) (s : U16) (c : Ctx) (j : Nat) :
    ringAt (dropAcked k s c).outRing j =
      if ∃ m, m < k ∧ ringIx (s + BitVec.ofNat 16 m) = j then none else ringAt c.outRing j := by
  induction k generalizing s c with
  | zero => simp [dropAcked]
  | succ n ih =>
    rw [dropAcked, ih]
    simp only
    have hs : ringAt (ringDel c.outRing s) j = if ringIx s = j then none else ringAt c.outRing j := ringAt_filter ..
    rw [hs]
    have step : ∀ m, s + 1 + BitVec.ofNat 16 m = s + BitVec.ofNat 16 (m + 1) := by
      intro m; rw [BitVec.ofNat_add, BitVec.add_assoc, BitVec.add_comm (1 : U16)]; rfl
    by_cases h0 : ringIx s = j
    · rw [if_pos (show ∃ m, m < n + 1 ∧ _ from ⟨0, by omega, by simpa using h0⟩), if_pos h0]; simp
    · rw [if_neg h0]
      have key : (∃ m, m < n ∧ ringIx (s + 1 + BitVec.ofNat 16 m) = j) ↔
          ∃ m, m < n + 1 ∧ ringIx (s + BitVec.ofNat 16 m) = j := by
        constructor
        · rintro ⟨m, hm, h⟩; exact ⟨m + 1, by omega, by rw [← step]; exact h⟩
        · rintro ⟨m, hm, h⟩
          match m, h with
          | 0, h => exact absurd (by simpa using h) h0
          | m + 1, h => exact ⟨m, by omega, by rw [step]; exact h⟩
      simp only [key]

theorem mem_dropAcked {k : Nat} {s : U16} {c : Ctx} {e : Nat × OutEntry} (h : e ∈ (dropAcked k s c).outRing) :
    e ∈ c.outRing := by
  induction k generalizing s c with
  | zero => exact h
  | succ n ih => exact mem_ringDel (ih h)

theorem dropAcked_wf (k : Nat) (s : U16) {c : Ctx} (h : Ring.wf c.outRing) : Ring.wf (dropAcked k s c).outRing := by
  induction k generalizing s c with
  | zero => exact h
  | succ n ih => exact ih _ (ringDel_wf h s)

theorem dropAcked_frame (k : Nat) (s : U16) (c : Ctx) : SendFrame c (dropAcked k s c) := by
  rw [dropAcked_eq]; constructor <;> simp

/-- Everything `RecvAck` does (R148): an acknowledgment out of range or beyond what is in flight is ignored; any other
removes the entries it covers, and signals a flush when it empties the counter. -/
theorem recvAck_cases (now : U32) (i : Nat) (a : U16) (r : Run) :
    ((ringCap ≤ (r.ctx.ackCount a).toNat ∨ r.ctx.inFlight.toNat < (r.ctx.ackCount a).toNat) ∧ recvAck now i a r = r) ∨
      ((r.ctx.ackCount a).toNat < ringCap ∧ (r.ctx.ackCount a).toNat ≤ r.ctx.inFlight.toNat ∧
        ¬ (1 ≤ (r.ctx.ackCount a).toNat ∧ (dropAcked (r.ctx.ackCount a).toNat r.ctx.base r.ctx).inFlight = 0) ∧
        recvAck now i a r = { r with ctx := dropAcked (r.ctx.ackCount a).toNat r.ctx.base r.ctx }) ∨
      ((r.ctx.ackCount a).toNat < ringCap ∧ (r.ctx.ackCount a).toNat ≤ r.ctx.inFlight.toNat ∧
        1 ≤ (r.ctx.ackCount a).toNat ∧ (dropAcked (r.ctx.ackCount a).toNat r.ctx.base r.ctx).inFlight = 0 ∧
        recvAck now i a r =
          onFlush now i { r with ctx := dropAcked (r.ctx.ackCount a).toNat r.ctx.base r.ctx }) := by
  unfold recvAck
  simp only
  split
  · next h => exact .inl ⟨.inl h, rfl⟩
  · next h1 =>
    split
    · next h => exact .inl ⟨.inr h, rfl⟩
    · next h2 =>
      split
      · next h => exact .inr (.inr ⟨by omega, by omega, h.1, h.2, rfl⟩)
      · next h => exact .inr (.inl ⟨by omega, by omega, h, rfl⟩)

theorem recvAck_frame (now : U32) (i : Nat) (a : U16) (r : Run) : SendFrame r.ctx (recvAck now i a r).ctx := by
  rcases recvAck_cases now i a r with ⟨-, h⟩ | ⟨-, -, -, h⟩ | ⟨-, -, -, -, h⟩ <;> rw [h]
  · exact .refl _
  · exact dropAcked_frame ..
  · refine SendFrame.trans ?_ (onFlush_frame now i _)
    exact dropAcked_frame ..

/-- What the drain loop and `deliver` leave alone: all but `inRing`, `ack` and `rdone`, which is never cleared. -/
structure RecvFrame (c d : Ctx) : Prop where
  eq : d = { c with inRing := d.inRing, ack := d.ack, rdone := d.rdone }
  rdone : c.rdone = true → d.rdone = true

theorem RecvFrame.refl (c : Ctx) : RecvFrame c c := ⟨rfl, id⟩

theorem RecvFrame.trans {c d e : Ctx} (h : RecvFrame c d) (k : RecvFrame d e) : RecvFrame c e :=
  ⟨by rw [k.eq]; rw [h.eq], fun hc => k.rdone (h.rdone hc)⟩

theorem setRdone_eq {c : Ctx} {b : Bool} (h : c.rdone = b) : c = { c with rdone := b } := by subst h; rfl

/-- Everything `deliver` does (R151). -/
theorem deliver_eq (i : Nat) (q : Packet) (r : Run) :
    deliver i q r =
      { ctx := { r.ctx with rdone := r.ctx.rdone || decide (q.type = tyFin) }
        ev := r.ev ++
          if r.ctx.rdone then [] else if q.type = tyData then (q.payload.map (Event.rxData i)).toList
          else if q.type = tyFin then [.rxEof i] else [] } := by
  obtain ⟨c, ev⟩ := r
  unfold deliver
  cases hr : c.rdone
  · have hc := setRdone_eq hr
    by_cases hd : q.type = tyData
    · have hf : q.type ≠ tyFin := by rw [hd]; decide
      cases hp : q.payload <;> simp [hd, Run.emit] <;> exact hc
    · by_cases hf : q.type = tyFin
      · simp [hf, Run.emit]
      · simp only [hd, hf]; simp; exact hc
  · simp; exact setRdone_eq hr

theorem deliver_frame (i : Nat) (q : Packet) (r : Run) : RecvFrame r.ctx (deliver i q r).ctx := by
  rw [deliver_eq]; exact ⟨rfl, fun h => by simp [h]⟩

theorem drainLoop_frame (i : Nat) (fuel : Nat) (r : Run) : RecvFrame r.ctx (drainLoop i fuel r).ctx := by
  induction fuel generalizing r with
  | zero => exact .refl _
  | succ n ih =>
    rw [drainLoop]
    split
    · exact .refl _
    · refine RecvFrame.trans ?_ (ih _)
      refine RecvFrame.trans ?_ (deliver_frame i _ _)
      exact ⟨rfl, id⟩

theorem drain_frame (i : Nat) (r : Run) : RecvFrame r.ctx (drain i r).ctx := drainLoop_frame ..

/-! ### Events are only appended -/

/-- An operation that reads no event and only appends events. -/
def Appends (f : Run → Run) : Prop :=
  ∀ c es, f ⟨c, es⟩ = ⟨(f ⟨c, []⟩).ctx, es ++ (f ⟨c, []⟩).ev⟩

theorem appends_transmit (p : Packet) : Appends (transmit p) := fun _ _ => by simp [transmit]

theorem appends_sendOutgoing (p : Packet) : Appends (sendOutgoing p) := fun _ _ => by simp [sendOutgoing, transmit]

theorem appends_sendAck (now : U32) : Appends (sendAck now) := fun _ _ => by simp [sendAck, transmit]

theorem appends_tryFin (now : U32) : Appends (tryFin now) := by
  intro c es
  unfold tryFin
  by_cases h : c.finDue = true <;> simp [h, sendOutgoing, transmit]

theorem appends_pumpLoop (now : U32) (i : Nat) (fuel : Nat) : Appends (pumpLoop now i fuel) := by
  induction fuel with
  | zero => intro c es; simp [pumpLoop]
  | succ n ih =>
    intro c es
    simp only [pumpLoop]
    cases hw : c.pw with
    | none => simp
    | some w =>
      simp only
      by_cases h1 : cap ≤ c.inFlight.toNat
      · simp [h1]
      · simp only [h1, if_false]
        by_cases h2 : w.data.length ≤ mtu
        · simp only [h2, if_true, Run.emit, sendOutgoing, transmit]
          rw [appends_tryFin, appends_tryFin (es := _ ++ _)]
          simp
        · simp only [h2, if_false, sendOutgoing, transmit]
          rw [ih, ih (es := _ ++ _)]
          simp

theorem appends_pump (now : U32) (i : Nat) : Appends (pump now i) := by
  intro c es
  unfold pump
  by_cases h : c.state = .connected
  · simp only [h, if_true]; exact appends_pumpLoop ..
  · simp [h]

theorem appends_onFlush (now : U32) (i : Nat) : Appends (onFlush now i) := by
  intro c es
  unfold onFlush
  by_cases hf : c.finSent = true <;> simp only [hf, if_true, Bool.false_eq_true, if_false] <;> split
  · exact appends_pump ..
  · simp
  · exact appends_pump ..
  · simp

theorem appends_recvAck (now : U32) (i : Nat) (a : U16) : Appends (recvAck now i a) := by
  intro c es
  unfold recvAck
  simp only
  split
  · simp
  · split
    · simp
    · split
      · exact appends_onFlush ..
      · simp

theorem appends_deliver (i : Nat) (q : Packet) : Appends (deliver i q) := by
  intro c es; rw [deliver_eq, deliver_eq]; simp

theorem appends_drainLoop (i : Nat) (fuel : Nat) : Appends (drainLoop i fuel) := by
  induction fuel with
  | zero => intro c es; simp [drainLoop]
  | succ n ih =>
    intro c es
    simp only [drainLoop]
    split
    · simp
    · rw [appends_deliver, ih, ih (deliver _ _ _).ctx (deliver _ _ _).ev]; simp

theorem drain_eq (i : Nat) (c : Ctx) (es : List Event) :
    drain i ⟨c, es⟩ = ⟨(drain i ⟨c, []⟩).ctx, es ++ (drain i ⟨c, []⟩).ev⟩ := appends_drainLoop i _ c es

theorem appends_drain (i : Nat) : Appends (drain i) := drain_eq i

theorem appends_completeConnect (now : U32) (i : Nat) (p : Packet) : Appends (completeConnect now i p) := by
  intro c es
  unfold completeConnect
  simp only
  rw [appends_recvAck]
  generalize recvAck now i p.ack ⟨{ c with ack := p.seq - 1 }, []⟩ = r
  simp only [Run.emit]
  by_cases h : r.ctx.pw.isSome = true
  · simp only [h, if_true]
    rw [appends_pump, appends_tryFin, appends_pump (es := r.ev ++ _), appends_tryFin (es := r.ev ++ _ ++ _)]; simp
  · simp only [h, Bool.false_eq_true, if_false]
    rw [appends_tryFin, appends_tryFin (es := r.ev ++ _)]; simp

theorem appends_recvEstablished (now : U32) (i : Nat) (dup : Bool) (p : Packet) :
    Appends (recvEstablished now i dup p) := by
  intro c es
  unfold recvEstablished
  simp only
  split
  · exact appends_sendAck ..
  · rw [appends_recvAck]
    split
    · rfl
    · generalize recvAck now i p.ack ⟨c, []⟩ = r
      rw [drain_eq, appends_sendAck, drain_eq (es := r.ev), appends_sendAck (es := r.ev ++ _)]; simp

theorem appends_recvOpen (now : U32) (i : Nat) (dup : Bool) (p : Packet) : Appends (recvOpen now i dup p) := by
  intro c es
  unfold recvOpen
  simp only
  split
  · split
    · rw [appends_completeConnect]
      generalize completeConnect now i p ⟨c, []⟩ = r
      simp only
      split
      · rfl
      · rw [appends_recvEstablished, appends_recvEstablished (es := r.ev)]; simp
    · simp
  · exact appends_recvEstablished ..

end Sys2Proof.Machine
end

