-- ==== Sys2Proof/Laws/Slots.lean ====
section
/-! SUPPORT. The laws of the slot table: reading a slot after a write, the lowest FREE slot, the lookup of a key
(42_conn_lifecycle.md rule R131, 46_demux.md rules R194, R195). -/

namespace Sys2Proof.Machine

open Sys2Proof.Config

theorem ctx?_eq_some {s : State} {i : Nat} {c : Ctx} : s.ctx? i = some c ↔ s.slots[i]? = some (some c) := by
  simp [State.ctx?, Option.join_eq_some_iff]

theorem ctx?_lt {s : State} {i : Nat} {c : Ctx} (h : s.ctx? i = some c) : i < s.slots.length :=
  (List.getElem?_eq_some_iff.1 (ctx?_eq_some.1 h)).1

theorem ctx?_setSlot_ne (s : State) {i j : Nat} (o : Option Ctx) (h : i ≠ j) : (s.setSlot i o).ctx? j = s.ctx? j := by
  simp [State.ctx?, List.getElem?_set_ne h]

theorem ctx?_setSlot_self {s : State} {i : Nat} (o : Option Ctx) (h : i < s.slots.length) :
    (s.setSlot i o).ctx? i = o := by
  simp [State.ctx?, List.getElem?_set_self h]

theorem ctx?_setSlot (s : State) (i j : Nat) (o : Option Ctx) :
    (s.setSlot i o).ctx? j = if i = j ∧ i < s.slots.length then o else s.ctx? j := by
  by_cases h : i = j
  · subst h
    by_cases hl : i < s.slots.length
    · simp [hl, ctx?_setSlot_self]
    · simp [State.ctx?, hl, List.set_eq_of_length_le (Nat.le_of_not_lt hl)]
  · simp [h, ctx?_setSlot_ne]

theorem ctx?_runOn_ne (s : State) {i j : Nat} (c : Ctx) (f : Run → Run) (h : i ≠ j) :
    (s.runOn i c f).ctx? j = s.ctx? j := ctx?_setSlot_ne s _ h

theorem ctx?_runOn_self {s : State} {i : Nat} {c d : Ctx} (f : Run → Run) (h : s.ctx? i = some d) :
    (s.runOn i c f).ctx? i = some (f ⟨c, []⟩).ctx := ctx?_setSlot_self _ (ctx?_lt h)

/-- What naming a connecting-role context says (R131). -/
theorem connectCtx?_eq_some {s : State} {i : Nat} {c : Ctx} :
    s.connectCtx? i = some c ↔ s.ctx? i = some c ∧ c.role = .connect := by
  simp only [State.connectCtx?]
  split
  · next x hx =>
    split <;> simp_all
    · rintro rfl; assumption
    · rintro rfl; assumption
  · simp_all

/-- The lowest FREE slot (R121, R195): it is FREE and no lower one is. -/
theorem freeSlot?_eq_some {s : State} {i : Nat} (h : s.freeSlot? = some i) :
    s.slots[i]? = some none ∧ ∀ j, j < i → (s.ctx? j).isSome = true := by
  rw [State.freeSlot?, List.findIdx?_eq_some_iff_getElem] at h
  obtain ⟨hl, hn, hj⟩ := h
  refine ⟨?_, fun j hji => ?_⟩
  · rw [List.getElem?_eq_getElem hl]; simpa using hn
  · have h2 : ¬ (s.slots[j]'(by omega)).isNone = true := hj j hji
    simp only [State.ctx?, List.getElem?_eq_getElem (show j < s.slots.length by omega), Option.join_some]
    cases hh : s.slots[j]'(by omega) <;> simp_all

/-- What a lookup finds (R194): an accepting-role context of the key. -/
theorem lookup_eq_some {s : State} {addr : Addr} {eff : U16} {i : Nat} (h : s.lookup addr eff = some i) :
    ∃ c, s.ctx? i = some c ∧ c.role = .accept ∧ c.peer = addr ∧ c.recvId = eff := by
  rw [State.lookup, List.findIdx?_eq_some_iff_getElem] at h
  obtain ⟨hl, hk, -⟩ := h
  cases hs : s.slots[i] with
  | none => simp [hs, hasKey] at hk
  | some c =>
    refine ⟨c, ?_, ?_⟩
    · rw [ctx?_eq_some, List.getElem?_eq_getElem hl, hs]
    · simpa [hs, hasKey, and_assoc] using hk

/-- No accepting-role context has a key that the lookup does not find (R194). -/
theorem lookup_eq_none {s : State} {addr : Addr} {eff : U16} (h : s.lookup addr eff = none) {i : Nat} {c : Ctx}
    (hc : s.ctx? i = some c) (hr : c.role = .accept) (hp : c.peer = addr) : c.recvId ≠ eff := by
  rw [State.lookup, List.findIdx?_eq_none_iff] at h
  have := h (some c) (List.mem_of_getElem? (ctx?_eq_some.1 hc))
  simp_all [hasKey]

/-- Some slot holds an accepting-role context. -/
theorem any_isAccepting {s : State} :
    s.slots.any isAccepting = true ↔ ∃ i c, s.ctx? i = some c ∧ c.role = .accept := by
  rw [List.any_eq_true]
  constructor
  · rintro ⟨o, ho, hacc⟩
    cases o with
    | none => simp [isAccepting] at hacc
    | some c =>
      obtain ⟨i, hi⟩ := List.getElem?_of_mem ho
      exact ⟨i, c, ctx?_eq_some.2 hi, by simpa [isAccepting] using hacc⟩
  · rintro ⟨i, c, hc, hr⟩
    exact ⟨some c, List.mem_of_getElem? (ctx?_eq_some.1 hc), by simp [isAccepting, hr]⟩

end Sys2Proof.Machine
end

