-- ==== Sys2Proof/Laws/Block.lean ====
section
/-! SUPPORT. What each operation on the block can do: its cases, and what every one of them leaves alone (`BlockFrame`):
the test ring, the parameters, the frames not yet taken, the last result, the size of the table and every slot but the
one it works on (20_memory.md rule R73). -/

namespace Sys2Proof.Machine

open Sys2Proof.Config

/-! ### Frames -/

/-- What an operation on slot `i` leaves alone; events are only appended. -/
structure BlockFrame (i : Nat) (s t : State) : Prop where
  size : t.slots.length = s.slots.length
  tring : t.tring = s.tring
  dup : t.dupAtCursorStale = s.dupAtCursorStale
  refresh : t.retxTagRefresh = s.retxTagRefresh
  port : t.port = s.port
  result : t.result = s.result
  others : ∀ j, j ≠ i → t.slots[j]? = s.slots[j]?
  events : ∃ es, t.events = s.events ++ es

theorem BlockFrame.refl (i : Nat) (s : State) : BlockFrame i s s :=
  ⟨rfl, rfl, rfl, rfl, rfl, rfl, fun _ _ => rfl, [], by simp⟩

theorem BlockFrame.trans {i : Nat} {s t u : State} (h : BlockFrame i s t) (k : BlockFrame i t u) : BlockFrame i s u := by
  obtain ⟨es, he⟩ := h.events
  obtain ⟨fs, hf⟩ := k.events
  exact ⟨k.size.trans h.size, k.tring.trans h.tring, k.dup.trans h.dup, k.refresh.trans h.refresh,
    k.port.trans h.port, k.result.trans h.result, fun j hj => (k.others j hj).trans (h.others j hj),
    es ++ fs, by rw [hf, he, List.append_assoc]⟩

/-- What a frame says of the contexts of the other slots. -/
theorem BlockFrame.ctx? {i : Nat} {s t : State} (h : BlockFrame i s t) {j : Nat} (hj : j ≠ i) :
    t.ctx? j = s.ctx? j := by
  rw [State.ctx?, State.ctx?, h.others j hj]

theorem emits_frame (i : Nat) (s : State) (es : List Event) : BlockFrame i s (s.emits es) :=
  ⟨rfl, rfl, rfl, rfl, rfl, rfl, fun _ _ => rfl, es, rfl⟩

theorem setSlot_frame (i : Nat) (s : State) (o : Option Ctx) : BlockFrame i s (s.setSlot i o) :=
  ⟨by simp, rfl, rfl, rfl, rfl, rfl, fun j hj => by simp [List.getElem?_set_ne (Ne.symm hj)], [], by simp⟩

theorem runOn_frame (i : Nat) (s : State) (c : Ctx) (f : Run → Run) : BlockFrame i s (s.runOn i c f) :=
  (setSlot_frame i s _).trans (emits_frame i _ _)

/-! ### The listener -/

/-- Everything `ListenerCloseCheck` does (R197). -/
theorem listenerCloseCheck_cases (s : State) :
    (s.lstate = .shutting ∧ s.slots.any isAccepting = false ∧
        listenerCloseCheck s =
          { s with lstate := .idle, events := s.events ++ [.sockClose .lsock, .evLclosed] }) ∨
      (¬ (s.lstate = .shutting ∧ s.slots.any isAccepting = false) ∧ listenerCloseCheck s = s) := by
  unfold listenerCloseCheck
  split
  · next h => exact .inl ⟨h.1, h.2, rfl⟩
  · next h => exact .inr ⟨h, rfl⟩

theorem listenerCloseCheck_frame (i : Nat) (s : State) : BlockFrame i s (listenerCloseCheck s) := by
  rcases listenerCloseCheck_cases s with ⟨-, -, h⟩ | ⟨-, h⟩ <;> rw [h]
  · exact ⟨rfl, rfl, rfl, rfl, rfl, rfl, fun _ _ => rfl, _, rfl⟩
  · exact .refl ..

@[simp] theorem listenerCloseCheck_slots (s : State) : (listenerCloseCheck s).slots = s.slots := by
  rcases listenerCloseCheck_cases s with ⟨-, -, h⟩ | ⟨-, h⟩ <;> rw [h]

/-! ### Teardown and forced close -/

/-- A teardown in the accepting role frees the slot and looks whether the listener can close (R129). -/
theorem teardown_accept {c : Ctx} (h : c.role = .accept) (i : Nat) (mode : CloseMode) (s : State) :
    teardown i c mode s = listenerCloseCheck ((s.emits [.timerStop i, .evClose i]).setSlot i none) := by
  simp [teardown, h]

/-- A teardown in the connecting role starts the grace period (R129). -/
theorem teardown_normal {c : Ctx} (h : c.role = .connect) (i : Nat) (s : State) :
    teardown i c .normal s =
      (s.setSlot i (some { c with grace := true })).emits [.timerStop i, .evClose i, .graceStart i] := by
  simp [teardown, h, State.emits, State.setSlot]

/-- A teardown in the connecting role whose socket has failed frees the slot (R129). -/
theorem teardown_noGrace {c : Ctx} (h : c.role = .connect) (i : Nat) (s : State) :
    teardown i c .noGrace s =
      (s.setSlot i none).emits [.timerStop i, .evClose i, .sockClose (.psock i)] := by
  simp [teardown, h, State.emits, State.setSlot]

theorem teardown_frame (i : Nat) (c : Ctx) (mode : CloseMode) (s : State) : BlockFrame i s (teardown i c mode s) := by
  cases hr : c.role with
  | accept =>
    rw [teardown_accept hr]
    exact ((emits_frame i s _).trans (setSlot_frame i _ _)).trans (listenerCloseCheck_frame i _)
  | connect =>
    cases mode with
    | normal => rw [teardown_normal hr]; exact (setSlot_frame i s _).trans (emits_frame i _ _)
    | noGrace => rw [teardown_noGrace hr]; exact (setSlot_frame i s _).trans (emits_frame i _ _)

/-- A normal teardown that ends an operation, in the terms of the statements: `t` is the state it runs in, which has
changed nothing of `s` but the slot `i` and the events. -/
theorem teardown_done {s t : State} {i : Nat} {c : Ctx} (hc : c.state = .closed) {o : Option Ctx} {before : List Event}
    (ht : t = { s with slots := s.slots.set i o, events := before }) :
    (teardown i c .normal t).done = .next (s.tornDown i c before) := by
  subst ht
  cases hr : c.role with
  | connect => rw [teardown_normal hr]; simp [State.tornDown, hr, State.after, State.emits, State.setSlot, ← hc]
  | accept =>
    rw [teardown_accept hr]
    simp only [State.tornDown, hr, listenerCloseCheck, setSlot_lstate, emits_lstate, setSlot_slots, emits_slots,
      List.set_set]
    split <;> simp [State.after, State.emits, State.setSlot, List.set_set]

/-- The slot after a teardown (R129). -/
theorem teardown_slot {i : Nat} {s : State} {c d : Ctx} (h : s.ctx? i = some d) (mode : CloseMode) :
    (teardown i c mode s).ctx? i =
      if c.role = .connect ∧ mode = .normal then some { c with grace := true } else none := by
  have hl := ctx?_lt h
  cases hr : c.role with
  | accept =>
    have e : ∀ t : State, (listenerCloseCheck t).ctx? i = t.ctx? i := fun t => by
      rw [State.ctx?, State.ctx?, listenerCloseCheck_slots]
    rw [teardown_accept hr, e, ctx?_setSlot_self _ (by simpa using hl)]; simp
  | connect =>
    cases mode with
    | normal => rw [teardown_normal hr, emits_ctx?, ctx?_setSlot_self _ hl]; simp [hr]
    | noGrace => rw [teardown_noGrace hr, emits_ctx?, ctx?_setSlot_self _ hl]; simp

/-- `ForceClose` at a closed context does nothing (R128). -/
theorem forceClose_closed {c : Ctx} (h : c.state = .closed) (i : Nat) (mode : CloseMode) (s : State) :
    forceClose i c mode s = s := by simp [forceClose, h]

/-- `ForceClose` at a context that is not closed (R128). -/
theorem forceClose_open {c : Ctx} (h : c.state ≠ .closed) (i : Nat) (mode : CloseMode) (s : State) :
    forceClose i c mode s =
      teardown i { c with pw := none, endReq := true, state := .closed } mode
        (if c.pw.isSome then s.emits [.writeDone i .rejected] else s) := by simp [forceClose, h]

theorem forceClose_frame (i : Nat) (c : Ctx) (mode : CloseMode) (s : State) :
    BlockFrame i s (forceClose i c mode s) := by
  by_cases h : c.state = .closed
  · rw [forceClose_closed h]; exact .refl ..
  · rw [forceClose_open h]
    refine BlockFrame.trans ?_ (teardown_frame i _ mode _)
    split
    · exact emits_frame i s _
    · exact .refl ..

/-! ### The latch -/

/-- Everything `EndOfOp` does (R127): the latched context is closed and torn down. -/
theorem endOfOp_cases (i : Nat) (s : State) :
    (∃ c, s.ctx? i = some c ∧ c.latched = true ∧ endOfOp i s = teardown i { c with state := .closed } .normal s) ∨
      ((∀ c, s.ctx? i = some c → c.latched = false) ∧ endOfOp i s = s) := by
  unfold endOfOp
  cases hc : s.ctx? i with
  | none => exact .inr ⟨by simp, rfl⟩
  | some c =>
    cases hl : c.latched with
    | true => exact .inl ⟨c, rfl, hl, by simp [hl]⟩
    | false => exact .inr ⟨fun d hd => by cases hd; exact hl, by simp [hl]⟩

theorem endOfOp_frame (i : Nat) (s : State) : BlockFrame i s (endOfOp i s) := by
  rcases endOfOp_cases i s with ⟨c, -, -, h⟩ | ⟨-, h⟩ <;> rw [h]
  · exact teardown_frame ..
  · exact .refl ..

/-- The operation ends without the latch. -/
theorem endOfOp_unlatched {i : Nat} {s : State} {c : Ctx} (h : s.ctx? i = some c) (hl : c.latched = false) :
    endOfOp i s = s := by simp [endOfOp, h, hl]

/-- The latch closes the context. -/
theorem endOfOp_latched {i : Nat} {s : State} {c : Ctx} (h : s.ctx? i = some c) (hl : c.latched = true) :
    endOfOp i s = teardown i { c with state := .closed } .normal s := by simp [endOfOp, h, hl]

theorem latched_iff (c : Ctx) : c.latched = true ↔ c.state ≠ .closed ∧ c.wdone = true ∧ c.rdone = true := by
  simp [Ctx.latched, and_assoc]

/-! ### Creation -/

/-- Everything `AcceptCreate` does (R123): a context with its SYN-ACK cached and sent once. -/
theorem acceptCreate_eq (now : U32) (i : Nat) (addr : Addr) (p : Packet) (isn : U16) (s : State) :
    acceptCreate now i addr p isn s =
      (s.setSlot i
        (some { newAcceptCtx addr p isn with
          synack := some (makeSynAck now (newAcceptCtx addr p isn)), alive := true })).emits
        [.timerStart i, .tx .lsock addr (encodePacket (makeSynAck now (newAcceptCtx addr p isn))), .evAccept i] := rfl

theorem acceptCreate_frame (now : U32) (i : Nat) (addr : Addr) (p : Packet) (isn : U16) (s : State) :
    BlockFrame i s (acceptCreate now i addr p isn s) := by
  rw [acceptCreate_eq]; exact (setSlot_frame i s _).trans (emits_frame i _ _)

/-! ### Receive processing -/

/-- Step 0 (R141). -/
theorem recvIncoming_closed {c : Ctx} (h : c.state = .closed) (now : U32) (i : Nat) (p : Packet) (s : State) :
    recvIncoming now i c p s = .ok ⟨s, false⟩ := by simp [recvIncoming, h]

/-- Step 1 in the accepting role (R142). -/
theorem recvIncoming_syn {c : Ctx} {p sa : Packet} (hs : c.state ≠ .closed) (hp : p.type = tySyn)
    (hr : c.role = .accept) (hsa : c.synack = some sa) (now : U32) (i : Nat) (s : State) :
    recvIncoming now i c p s = .ok ⟨s.runOn i c (transmit sa), true⟩ := by simp [recvIncoming, hs, hp, hr, hsa]

/-- Step 1 in the connecting role (R142). -/
theorem recvIncoming_syn_connect {c : Ctx} {p : Packet} (hp : p.type = tySyn) (hr : c.role = .connect) (now : U32)
    (i : Nat) (s : State) : recvIncoming now i c p s = .ok ⟨s, false⟩ := by
  unfold recvIncoming
  split
  · rfl
  · simp [hr]

/-- Step 2 (R143). -/
theorem recvIncoming_reset {c : Ctx} {p : Packet} (hs : c.state ≠ .closed) (hp : p.type = tyReset) (now : U32) (i : Nat)
    (s : State) :
    recvIncoming now i c p s =
      .ok ⟨forceClose i { c with rdone := true } .normal (if c.rdone then s else s.emits [.rxEof i]), true⟩ := by
  simp [recvIncoming, hs, hp]

/-- Steps 3 to 8 (R144 to R150). -/
theorem recvIncoming_open {c : Ctx} {p : Packet} (hs : c.state ≠ .closed) (h1 : p.type ≠ tySyn) (h2 : p.type ≠ tyReset)
    (now : U32) (i : Nat) (s : State) :
    recvIncoming now i c p s = .ok ⟨s.runOn i c (recvOpen now i s.dupAtCursorStale p), true⟩ := by
  rw [recvIncoming, if_neg hs, if_neg h1, if_neg h2]

theorem recvIncoming_frame {now : U32} {i : Nat} {c : Ctx} {p : Packet} {s : State} {r : Received}
    (h : recvIncoming now i c p s = .ok r) : BlockFrame i s r.state := by
  by_cases hs : c.state = .closed
  · rw [recvIncoming_closed hs] at h; cases h; exact .refl ..
  · by_cases h1 : p.type = tySyn
    · cases hr : c.role with
      | connect => rw [recvIncoming_syn_connect h1 hr] at h; cases h; exact .refl ..
      | accept =>
        cases hsa : c.synack with
        | none => simp [recvIncoming, hs, h1, hr, hsa] at h
        | some sa => rw [recvIncoming_syn hs h1 hr hsa] at h; cases h; exact runOn_frame ..
    · by_cases h2 : p.type = tyReset
      · rw [recvIncoming_reset hs h2] at h; cases h
        refine BlockFrame.trans ?_ (forceClose_frame i _ _ _)
        split
        · exact .refl ..
        · exact emits_frame ..
      · rw [recvIncoming_open hs h1 h2] at h; cases h; exact runOn_frame ..

/-- A receive that ends well ends with the latch (R192, R198). -/
theorem afterReceive_ok (i : Nat) (sock : Sock) (addr : Addr) (raw : Bytes) (r : Received) :
    afterReceive i sock addr raw (.ok r) =
      (endOfOp i (if r.handled then r.state else r.state.emits [.unrecognized sock addr raw])).done := rfl

/-- A wire packet that reaches a context is dispatched to it, on either socket (R192, R198). -/
theorem receiveWire_reaches {s : State} {rx : Rx} {p : Packet} {i : Nat} {c : Ctx} (h : Reaches s rx p i c) (now : U32)
    (raw : Bytes) :
    receiveWire now rx raw p s = afterReceive i rx.sock rx.addr raw (recvIncoming now i c p s.start) := by
  cases rx with
  | lsock addr isn => simp [receiveWire, routeListener, h.1, h.2, Rx.sock, Rx.addr]
  | psock k addr =>
    obtain ⟨rfl, h1, h2, h3, h4⟩ := h
    simp only [receiveWire, routePrivate, h1, h2, Bool.true_eq_false, if_false, if_neg h3, ne_eq, h4, not_true_eq_false]
    rfl

/-- A context that a wire packet reaches is in its slot. -/
theorem reaches_ctx? {s : State} {rx : Rx} {p : Packet} {i : Nat} {c : Ctx} (h : Reaches s rx p i c) :
    s.ctx? i = some c := by
  cases rx with
  | lsock addr isn => exact h.2
  | psock k addr => exact (connectCtx?_eq_some.1 h.2.1).1

/-! ### Rounds of the loops over the table -/

theorem lcloseSlot_frame (now : U32) (i : Nat) (s : State) : BlockFrame i s (lcloseSlot now i s) := by
  unfold lcloseSlot
  split
  · split
    · refine BlockFrame.trans ?_ (endOfOp_frame i _)
      split
      · exact runOn_frame ..
      · exact .refl ..
    · exact .refl ..
  · exact .refl ..

theorem failSlot_frame (i : Nat) (s : State) : BlockFrame i s (failSlot i s) := by
  unfold failSlot
  split
  · split
    · exact (emits_frame i s _).trans (forceClose_frame i _ _ _)
    · exact .refl ..
  · exact .refl ..

/-! ### Ticks -/

/-- One round of the retransmit scan (R181). -/
theorem retxLoop_succ {now : U32} {refresh : Bool} {k : Nat} {q : U16} {r : Run} {e : OutEntry}
    (h : ringGet r.ctx.outRing q = some e) :
    retxLoop now refresh (k + 1) q r =
      if isExpired now e.tag then
        retxLoop now refresh k (q + 1)
          { ctx :=
              { r.ctx with
                alive := true
                outRing := if refresh then ringPut r.ctx.outRing q { e with tag := now } else r.ctx.outRing
                retxCount := r.ctx.retxCount + 1 }
            ev := r.ev ++ [.tx r.ctx.sock r.ctx.peer (encodePacket e.packet)] }
      else retxLoop now refresh k (q + 1) r := by
  rw [retxLoop, h]; rfl

/-- The scan writes the ring's tags, `alive` and the counter and nothing else (R181). -/
theorem retxLoop_frame {now : U32} {refresh : Bool} {k : Nat} {q : U16} {r t : Run}
    (h : retxLoop now refresh k q r = some t) :
    t.ctx = { r.ctx with outRing := t.ctx.outRing, alive := t.ctx.alive, retxCount := t.ctx.retxCount } := by
  induction k generalizing q r with
  | zero => cases h; rfl
  | succ n ih =>
    cases hg : ringGet r.ctx.outRing q with
    | none => simp [retxLoop, hg] at h
    | some e =>
      rw [retxLoop_succ hg] at h
      split at h
      · rw [ih h]
      · exact ih h

/-- Everything the keep-alive check does (R182). -/
theorem keepAlive_eq (now : U32) (r : Run) :
    keepAlive now r =
      if r.ctx.alive then { r with ctx := { r.ctx with alive := false } }
      else
        { ctx := { r.ctx with alive := true }
          ev := r.ev ++ [.tx r.ctx.sock r.ctx.peer (encodePacket (makePacket now r.ctx tyState none))] } := rfl

/-- Everything `CompleteConnect` leaves alone (R124): the identity of the context, its incoming ring and its read side. -/
theorem completeConnect_frame (now : U32) (i : Nat) (p : Packet) (r : Run) :
    SendFrame { r.ctx with ack := p.seq - 1, state := .connected } (completeConnect now i p r).ctx := by
  unfold completeConnect
  simp only
  refine SendFrame.trans ?_ (tryFin_frame now _)
  have h0 : SendFrame { r.ctx with ack := p.seq - 1, state := .connected }
      { (recvAck now i p.ack { r with ctx := { r.ctx with ack := p.seq - 1 } }).ctx with state := .connected } := by
    obtain ⟨h1, h2, h3, h4, h5, h6, h7, h8, h9, h10, h11, h12, h13, h14, h15, h16⟩ :=
      recvAck_frame now i p.ack { r with ctx := { r.ctx with ack := p.seq - 1 } }
    constructor <;> simp_all
  split
  · refine SendFrame.trans ?_ (pump_frame now i _)
    exact h0
  · exact h0

end Sys2Proof.Machine
end

