-- ==== Sys2Proof/Laws/Send.lean ====
section
/-! SUPPORT. `Pump` and `Drain` satisfy the loops of 44_conn_send.md rule R165 and 43_conn_receive.md rule R151: the
bounds their definitions put on the rounds are never reached. What a pump leaves. -/

namespace Sys2Proof.Machine.Laws.Send

open Sys2Proof.Config

/-- One round of the loop of R165 that sends a segment, before it looks whether data is left. -/
def sendSegment (now : U32) (w : PendingWrite) (r : Run) : Run :=
  sendOutgoing (makePacket now r.ctx tyData (some (w.data.take mtu))) r

theorem sendSegment_inFlight (now : U32) (w : PendingWrite) {r : Run} (h : r.ctx.inFlight.toNat < cap) :
    (sendSegment now w r).ctx.inFlight.toNat = r.ctx.inFlight.toNat + 1 := by
  simp only [cap] at h
  show (r.ctx.inFlight + 1).toNat = _
  rw [BitVec.toNat_add]
  exact Nat.mod_eq_of_lt (by show r.ctx.inFlight.toNat + 1 < 1024; omega)

theorem pumpLoop_succ (now : U32) (i : Nat) (fuel : Nat) (r : Run) :
    pumpLoop now i (fuel + 1) r =
      match r.ctx.pw with
      | none => r
      | some w =>
        if cap ≤ r.ctx.inFlight.toNat then
          { r with ctx := { r.ctx with pw := some { w with phase := .flushWait } } }
        else
          if w.data.length ≤ mtu then
            tryFin now
              (Run.emit { sendSegment now w r with ctx := { (sendSegment now w r).ctx with pw := none } }
                (.writeDone i .ok))
          else
            pumpLoop now i fuel
              { sendSegment now w r with
                ctx := { (sendSegment now w r).ctx with pw := some { w with data := w.data.drop mtu } } } := rfl

/-- More rounds change nothing once the bound passes the room below the cap. -/
theorem pumpLoop_fuel (now : U32) (i : Nat) (fuel : Nat) (r : Run) (h : cap ≤ fuel + r.ctx.inFlight.toNat) :
    pumpLoop now i (fuel + 2) r = pumpLoop now i (fuel + 1) r := by
  induction fuel generalizing r with
  | zero =>
    rw [pumpLoop_succ, pumpLoop_succ]
    cases r.ctx.pw <;> simp only [if_pos (show cap ≤ r.ctx.inFlight.toNat by omega)]
  | succ n ih =>
    rw [pumpLoop_succ, pumpLoop_succ (fuel := n + 1)]
    cases hw : r.ctx.pw with
    | none => rfl
    | some w =>
      simp only
      split
      · rfl
      · next h1 =>
        split
        · rfl
        · refine ih _ ?_
          show cap ≤ n + (sendSegment now w r).ctx.inFlight.toNat
          rw [sendSegment_inFlight now w (by omega)]
          omega

/-- `Pump(c)` at a connected context is the loop of R165. -/
theorem pump_loop (now : U32) (i : Nat) (r : Run) (hs : r.ctx.state = .connected) :
    pump now i r =
      match r.ctx.pw with
      | none => r
      | some w =>
        if cap ≤ r.ctx.inFlight.toNat then
          { r with ctx := { r.ctx with pw := some { w with phase := .flushWait } } }
        else
          if w.data.length ≤ mtu then
            tryFin now
              (Run.emit { sendSegment now w r with ctx := { (sendSegment now w r).ctx with pw := none } }
                (.writeDone i .ok))
          else
            pump now i
              { sendSegment now w r with
                ctx := { (sendSegment now w r).ctx with pw := some { w with data := w.data.drop mtu } } } := by
  unfold pump
  rw [if_pos hs, pumpLoop_succ]
  cases hw : r.ctx.pw with
  | none => rfl
  | some w =>
    simp only
    split
    · rfl
    · next h1 =>
      split
      · rfl
      · rw [if_pos (show (sendSegment now w r).ctx.state = .connected from hs)]
        refine (pumpLoop_fuel now i 510 _ ?_).symm
        show cap ≤ 510 + (sendSegment now w r).ctx.inFlight.toNat
        rw [sendSegment_inFlight now w (by omega)]
        simp only [cap]; omega

/-- What a pump leaves pending: nothing, or data held by the cap for the next flush (R165, R166). -/
theorem pump_pending (now : U32) (i : Nat) (r : Run) (hs : r.ctx.state = .connected) :
    (pump now i r).ctx.pw = none ∨
      ∃ w, (pump now i r).ctx.pw = some w ∧ w.phase = .flushWait ∧ cap ≤ (pump now i r).ctx.inFlight.toNat := by
  have main : ∀ fuel r, r.ctx.state = .connected → cap ≤ fuel + r.ctx.inFlight.toNat →
      (pumpLoop now i (fuel + 1) r).ctx.pw = none ∨
        ∃ w, (pumpLoop now i (fuel + 1) r).ctx.pw = some w ∧ w.phase = .flushWait ∧
          cap ≤ (pumpLoop now i (fuel + 1) r).ctx.inFlight.toNat := by
    intro fuel
    induction fuel with
    | zero =>
      intro r _ h
      rw [pumpLoop_succ]
      cases hw : r.ctx.pw with
      | none => exact .inl hw
      | some w =>
        simp only [if_pos (show cap ≤ r.ctx.inFlight.toNat by omega)]
        exact .inr ⟨_, rfl, rfl, by omega⟩
    | succ n ih =>
      intro r hr h
      rw [pumpLoop_succ]
      cases hw : r.ctx.pw with
      | none => exact .inl hw
      | some w =>
        simp only
        split
        · next h1 => exact .inr ⟨_, rfl, rfl, h1⟩
        · next h1 =>
          split
          · left; rw [tryFin_pw]; rfl
          · refine ih _ hr ?_
            show cap ≤ n + (sendSegment now w r).ctx.inFlight.toNat
            rw [sendSegment_inFlight now w (by omega)]
            omega
  rw [pump, if_pos hs]
  exact main 511 r hs (by simp only [cap]; omega)

/-- More rounds change nothing once there are as many as occupied slots. -/
theorem drainLoop_fuel (i : Nat) (fuel : Nat) (r : Run) (h : r.ctx.inRing.length ≤ fuel) :
    drainLoop i (fuel + 1) r = drainLoop i fuel r := by
  induction fuel generalizing r with
  | zero =>
    have h0 : r.ctx.inRing = [] := List.length_eq_zero_iff.1 (by omega)
    simp [drainLoop, h0, ringGet]
  | succ n ih =>
    rw [drainLoop, drainLoop]
    cases hg : ringGet r.ctx.inRing (r.ctx.ack + 1) with
    | none => rfl
    | some q =>
      refine ih _ ?_
      rw [(deliver_frame i q _).eq, deliver_eq]
      have := ringDel_length_lt hg
      show (ringDel r.ctx.inRing (r.ctx.ack + 1)).length ≤ n
      omega

/-- `Drain(c)` is the loop of R151. -/
theorem drain_loop (i : Nat) (r : Run) :
    drain i r =
      match ringGet r.ctx.inRing (r.ctx.ack + 1) with
      | none => r
      | some q =>
        drain i
          (deliver i q
            { r with
              ctx := { r.ctx with inRing := ringDel r.ctx.inRing (r.ctx.ack + 1), ack := r.ctx.ack + 1 } }) := by
  have more : ∀ fuel (r : Run), r.ctx.inRing.length ≤ fuel → drainLoop i fuel r = drain i r := by
    intro fuel r h
    obtain ⟨k, rfl⟩ := Nat.exists_eq_add_of_le h
    clear h
    induction k with
    | zero => rfl
    | succ k ih => rw [← Nat.add_assoc, drainLoop_fuel i _ r (by omega), ih]
  rw [← more _ r (Nat.le_succ _), drainLoop]
  cases hg : ringGet r.ctx.inRing (r.ctx.ack + 1) with
  | none => rfl
  | some q =>
    refine more _ _ ?_
    rw [deliver_eq]
    exact Nat.le_of_lt (ringDel_length_lt hg)

end Sys2Proof.Machine.Laws.Send
end

