-- ==== Sys2Proof/Laws/Receive.lean ====
section
/-! SUPPORT. Receive processing in the terms of the statements: staleness, ignored acknowledgments, what the drain loop
takes out, and a dispatch that ends without the latch. -/

namespace Sys2Proof.Machine

open Sys2Proof.Config

/-- The staleness test, in full (R146). -/
theorem isStale_iff (dup : Bool) (a q : U16) :
    isStale dup a q = true ↔ 512 ≤ (q - a).toNat ∨ dup = true ∧ q = a := by
  have e : q - a = 0 ↔ q = a := by
    rw [BitVec.sub_eq_iff_eq_add]; simp
  simp only [isStale, Bool.or_eq_true, Bool.and_eq_true, decide_eq_true_eq, ringCap, e]

/-- A packet in the window (R146). -/
theorem isStale_false {dup : Bool} {a q : U16} (h : (q - a).toNat < 512) (hd : dup = true → q ≠ a) :
    isStale dup a q = false := by
  rw [← Bool.not_eq_true, isStale_iff]
  rintro (h1 | ⟨h1, h2⟩)
  · omega
  · exact hd h1 h2

/-- An acknowledgment that removes nothing changes nothing (R148). -/
theorem recvAck_ignored {now : U32} {i : Nat} {a : U16} {r : Run} (h : r.ctx.ignoresAck a) : recvAck now i a r = r := by
  rcases recvAck_cases now i a r with ⟨-, e⟩ | ⟨h1, h2, h3, e⟩ | ⟨h1, h2, h3, h4, e⟩
  · exact e
  · rcases h with h | h | h
    · rw [e, h]; rfl
    · omega
    · omega
  · rcases h with h | h | h
    · simp [h] at h3
    · omega
    · omega

/-- The slots of consecutive sequence numbers fewer than 512 apart differ (R114). -/
theorem ringIx_add_ne (s : U16) {j k : Nat} (hjk : j < k) (hk : k < j + 512) :
    ringIx (s + BitVec.ofNat 16 j) ≠ ringIx (s + BitVec.ofNat 16 k) := by
  simp only [ringIx, ringCap, BitVec.toNat_add, BitVec.toNat_ofNat]
  omega

/-- A packet that is neither SYN nor RESET, dispatched to a context that is not closed, when the latch does not close the
context: receive steps 3 to 8 say everything (R144 to R150). -/
theorem receiveWire_open {now : U32} {rx : Rx} {p : Packet} {s : State} {i : Nat} {c d : Ctx} {es : List Event}
    (hr : Reaches s rx p i c) (hc : c.state ≠ .closed) (h1 : p.type ≠ tySyn) (h2 : p.type ≠ tyReset)
    (he : recvOpen now i s.dupAtCursorStale p ⟨c, []⟩ = ⟨d, es⟩) (hl : d.latched = false) (raw : Bytes) :
    receiveWire now rx raw p s = .next (s.after (s.slots.set i (some d)) es) := by
  rw [receiveWire_reaches hr, recvIncoming_open hc h1 h2, afterReceive_ok]
  simp only [if_true]
  rw [endOfOp_unlatched (ctx?_runOn_self _ (by simpa using reaches_ctx? hr))
    (by rw [start_dup, he]; exact hl)]
  simp [State.runOn, he, State.after, State.emits, State.setSlot, State.start]

/-- The same when the latch closes the context (R127). -/
theorem receiveWire_latched {now : U32} {rx : Rx} {p : Packet} {s : State} {i : Nat} {c d : Ctx} {es : List Event}
    (hr : Reaches s rx p i c) (hc : c.state ≠ .closed) (h1 : p.type ≠ tySyn) (h2 : p.type ≠ tyReset)
    (he : recvOpen now i s.dupAtCursorStale p ⟨c, []⟩ = ⟨d, es⟩) (hl : d.latched = true) (raw : Bytes) :
    receiveWire now rx raw p s = .next (s.tornDown i { d with state := .closed } es) := by
  rw [receiveWire_reaches hr, recvIncoming_open hc h1 h2, afterReceive_ok]
  simp only [if_true]
  have hi : (s.start.runOn i c (recvOpen now i s.start.dupAtCursorStale p)).ctx? i = some d := by
    rw [ctx?_runOn_self _ (by simpa using reaches_ctx? hr), start_dup, he]
  rw [endOfOp_latched hi hl]
  refine teardown_done rfl (o := some d) ?_
  simp [State.runOn, he, State.emits, State.setSlot, State.start]

end Sys2Proof.Machine
end

