-- ==== Sys2Proof/Laws/Ack.lean ====
section
/-! SUPPORT. What a pump, an acknowledgment and the drain loop leave, in the terms of the statements (`Pumped`, `Acked`,
`deliveries`); what the receipt of a packet is, and how it ends with the test of the latch. Proofs about sending and receiving cite these and
unfold no loop. -/

namespace Sys2Proof.Machine

open Sys2Proof.Config

/-! ### Segments (R167) -/

/-- Data that fits one packet is one segment. -/
theorem segments_short {b : Bytes} (h0 : b ≠ []) (h : b.length ≤ mtu) : segments b = [b] := by
  have hl : 0 < b.length := List.length_pos_iff.2 h0
  have : (b.length + (mtu - 1)) / mtu = 1 := by simp only [mtu] at *; omega
  rw [segments, this]
  simp [List.take_of_length_le h]

/-- Longer data is a full segment and the segments of the rest. -/
theorem segments_long {b : Bytes} (h : mtu < b.length) : segments b = b.take mtu :: segments (b.drop mtu) := by
  have e : (b.length + (mtu - 1)) / mtu = ((b.drop mtu).length + (mtu - 1)) / mtu + 1 := by
    simp only [mtu, List.length_drop] at *; omega
  unfold segments
  rw [e, List.range_succ_eq_map]
  simp [List.drop_drop, Function.comp_def, Nat.succ_eq_add_one, Nat.add_mul, Nat.add_comm]

/-! ### Pump (R165 to R169) -/

/-- What sending its first segment makes of a context that is pumping. -/
def sentOne (now : U32) (c : Ctx) (b : Bytes) (pw : Option PendingWrite) : Ctx :=
  { c with
    outRing := ringPut c.outRing c.seq { packet := dataPacket now c 0 (b.take mtu), tag := now }
    seq := c.seq + 1, inFlight := c.inFlight + 1, alive := true, pw := pw }

theorem sendSegment_run (now : U32) (c : Ctx) (w : PendingWrite) (es : List Event) (pw : Option PendingWrite) :
    ({ Laws.Send.sendSegment now w ⟨c, es⟩ with ctx := { (Laws.Send.sendSegment now w ⟨c, es⟩).ctx with pw := pw } } : Run) =
      ⟨sentOne now c w.data pw, es ++ [.tx c.sock c.peer (encodePacket (dataPacket now c 0 (w.data.take mtu)))]⟩ := by
  simp [Laws.Send.sendSegment, sendOutgoing, transmit, makePacket, sentOne, dataPacket]

/-- `TryFin` after the last segment of a write. -/
theorem tryFin_ended (now : U32) (c : Ctx) (es : List Event) :
    tryFin now ⟨c, es⟩ =
      ⟨if c.endReq then c.ended now else c, es ++ if c.endReq then c.endEvents now else []⟩ := by
  rcases tryFin_cases now ⟨c, es⟩ with ⟨h, e⟩ | ⟨h, e⟩
  · rw [e]
    cases he : c.endReq with
    | false => simp
    | true =>
      have hf : c.finReady = false := by
        rw [← Bool.not_eq_true] at h ⊢
        intro hf
        refine h ((finDue_iff c).2 ?_)
        simpa [Ctx.finReady, he, and_assoc, and_comm, and_left_comm] using hf
      have hc : c = { c with endReq := true } := by rw [← he]
      simpa [Ctx.ended, Ctx.endEvents, hf] using hc
  · obtain ⟨h1, h2, h3, h4⟩ := (finDue_iff c).1 h
    have hf : c.finReady = true := by simp [Ctx.finReady, h2, h3, h4]
    rw [e]
    simp [h1, Ctx.ended, Ctx.endEvents, hf, Ctx.withFin, sendOutgoing, transmit, makePacket, finPacket]

theorem toNat_add_one {x : BitVec 10} (h : x.toNat < 511) : (x + 1).toNat = x.toNat + 1 := by
  rw [BitVec.toNat_add]; exact Nat.mod_eq_of_lt (by show x.toNat + 1 < 1024; omega)

theorem add_one_add (s : U16) (k : Nat) : s + 1 + BitVec.ofNat 16 k = s + BitVec.ofNat 16 (k + 1) := by
  rw [BitVec.ofNat_add, BitVec.add_assoc, BitVec.add_comm (BitVec.ofNat 16 k)]; rfl

theorem withSegments_cons (now : U32) {c : Ctx} {b : Bytes} (pw : Option PendingWrite) (m : Nat) (r : Ring OutEntry)
    (hl : mtu < b.length) :
    (sentOne now c b pw).withSegments (b.drop mtu) m r = c.withSegments b (m + 1) r := by
  have h1 : (m = (segments (b.drop mtu)).length) ↔ (m + 1 = (segments b).length) := by
    rw [segments_long hl, List.length_cons]; omega
  have h2 : (b.drop mtu).drop (1400 * m) = b.drop (1400 * (m + 1)) := by
    rw [List.drop_drop]; congr 1; simp only [mtu]; omega
  have h3 : c.inFlight + 1 + BitVec.ofNat 10 m = c.inFlight + BitVec.ofNat 10 (m + 1) := by
    rw [BitVec.ofNat_add, BitVec.add_assoc, BitVec.add_comm (BitVec.ofNat 10 m)]; rfl
  simp only [Ctx.withSegments, h1, h2]
  simp only [sentOne, add_one_add, h3, Bool.true_or]
  simp

theorem dataPacket_sentOne (now : U32) (c : Ctx) (b : Bytes) (pw : Option PendingWrite) (k : Nat) (p : Bytes) :
    dataPacket now (sentOne now c b pw) k p = dataPacket now c (k + 1) p := by
  simp only [dataPacket, sentOne, add_one_add]

theorem sentSegments_cons (now : U32) {c : Ctx} {b : Bytes} (pw : Option PendingWrite) (m : Nat) (hl : mtu < b.length) :
    sentSegments now c b (m + 1) =
      .tx c.sock c.peer (encodePacket (dataPacket now c 0 (b.take mtu))) ::
        sentSegments now (sentOne now c b pw) (b.drop mtu) m := by
  simp only [sentSegments, segments_long hl, List.take_succ_cons, List.mapIdx_cons, dataPacket_sentOne]
  rfl

/-- A pump that sent one segment and has more to send. -/
theorem Pumped.cons {now : U32} {i : Nat} {c d : Ctx} {b : Bytes} {es : List Event} {pw : Option PendingWrite}
    (hl : mtu < b.length) (hf : c.inFlight.toNat < 511) (h : Pumped now i (sentOne now c b pw) (b.drop mtu) d es) :
    Pumped now i c b d (.tx c.sock c.peer (encodePacket (dataPacket now c 0 (b.take mtu))) :: es) := by
  have hseg := segments_long hl
  have hin : (sentOne now c b pw).inFlight.toNat = c.inFlight.toNat + 1 := toNat_add_one hf
  have hn : min (segments b).length (511 - c.inFlight.toNat) =
      min (segments (b.drop mtu)).length (511 - (sentOne now c b pw).inFlight.toNat) + 1 := by
    rw [hseg, hin, List.length_cons]; omega
  unfold Pumped at h ⊢
  rw [hn]
  generalize hm : min (segments (b.drop mtu)).length (511 - (sentOne now c b pw).inFlight.toNat) = m at *
  have hm' : m ≤ 510 := by omega
  have hall : (m = (segments (b.drop mtu)).length) ↔ (m + 1 = (segments b).length) := by
    rw [hseg, List.length_cons]; omega
  obtain ⟨r, h1, h2, h3⟩ := h
  rw [withSegments_cons now pw m r hl] at h3
  rw [show (sentOne now c b pw).seq = c.seq + 1 from rfl] at h1 h2
  simp only [add_one_add, dataPacket_sentOne] at h1 h2
  refine ⟨r, ?_, ?_, ?_⟩
  · intro k p hk hp
    rw [hseg] at hp
    cases k with
    | zero =>
      rw [h2 _ (fun j hj => ?_)]
      · simp only [List.getElem?_cons_zero, Option.some.injEq] at hp
        subst hp
        simp [sentOne]
      · have := ringIx_add_ne c.seq (j := 0) (k := j + 1) (by omega) (by omega)
        simpa using this.symm
    | succ k => exact h1 k p (by omega) (by simpa using hp)
  · intro t ht
    rw [h2 t (fun k hk => ht (k + 1) (by omega))]
    simp only [sentOne, ringGet_ringPut]
    rw [if_neg]
    simpa using ht 0 (by omega)
  · rw [sentSegments_cons now pw m hl]
    simp only [hall, show (sentOne now c b pw).endReq = c.endReq from rfl] at h3
    split at h3
    · next hc =>
      obtain ⟨rfl, rfl⟩ := h3
      rw [if_pos hc]
      exact ⟨rfl, rfl⟩
    · next hc =>
      obtain ⟨rfl, rfl⟩ := h3
      rw [if_neg hc]
      exact ⟨rfl, rfl⟩

/-- Everything `Pump` does at a connected context with data to send. -/
theorem pump_pumped (now : U32) (i : Nat) {c : Ctx} {w : PendingWrite} (hs : c.state = .connected)
    (hw : c.pw = some w) (hb : w.data ≠ []) (es : List Event) :
    ∃ (d : Ctx) (ev : List Event), Pumped now i c w.data d ev ∧ pump now i ⟨c, es⟩ = ⟨d, es ++ ev⟩ := by
  generalize hroom : 511 - c.inFlight.toNat = room
  induction room generalizing c w es with
  | zero =>
    have hpos : 0 < (segments w.data).length := by
      have := List.length_pos_iff.2 hb
      simp only [segments, List.length_map, List.length_range]
      exact Nat.div_pos (by omega) (by decide)
    have hne : ¬ 0 = (segments w.data).length := by omega
    rw [Laws.Send.pump_loop _ _ _ hs, hw]
    simp only [if_pos (show cap ≤ c.inFlight.toNat by simp only [cap]; omega)]
    refine ⟨_, [], ⟨c.outRing, ?_⟩, by rw [List.append_nil]⟩
    simp [hroom, hne, Ctx.withSegments, sentSegments]
  | succ m ih =>
    rw [Laws.Send.pump_loop _ _ _ hs, hw]
    simp only [if_neg (show ¬ cap ≤ c.inFlight.toNat by simp only [cap]; omega)]
    split
    · next hl =>
      have hseg := segments_short hb hl
      have htake : w.data.take mtu = w.data := List.take_of_length_le hl
      rw [sendSegment_run, Run.emit, tryFin_ended]
      have he : sentOne now c w.data none = c.withSegments w.data 1 (sentOne now c w.data none).outRing := by
        simp [sentOne, Ctx.withSegments, hseg]
      have hev : sentSegments now c w.data 1 = [.tx c.sock c.peer (encodePacket (dataPacket now c 0 w.data))] := by
        simp [sentSegments, hseg]
      rw [htake]
      refine ⟨_, _, ⟨(sentOne now c w.data none).outRing, ?_⟩, by rw [List.append_assoc, List.append_assoc]⟩
      simp only [hseg, List.length_singleton, show min 1 (511 - c.inFlight.toNat) = 1 by omega, ← he, hev]
      refine ⟨?_, ?_, ?_⟩
      · intro k p hk hp
        obtain rfl : k = 0 := by omega
        simp only [List.getElem?_cons_zero, Option.some.injEq] at hp
        subst hp
        simp [sentOne, htake]
      · intro t ht
        simp only [sentOne, ringGet_ringPut]
        rw [if_neg]
        simpa using ht 0 (by omega)
      · rw [show (sentOne now c w.data none).endReq = c.endReq from rfl]
        cases c.endReq <;> simp
    · next hl =>
      rw [sendSegment_run]
      obtain ⟨d, ev, h1, h2⟩ := ih (c := sentOne now c w.data (some { w with data := w.data.drop mtu })) hs rfl
        (by simp only [ne_eq, List.drop_eq_nil_iff]; omega)
        (es ++ [.tx c.sock c.peer (encodePacket (dataPacket now c 0 (w.data.take mtu)))])
        (by rw [show (sentOne now c w.data (some { w with data := w.data.drop mtu })).inFlight = c.inFlight + 1 from rfl,
              toNat_add_one (by omega)]; omega)
      exact ⟨d, _, h1.cons (by omega) (by omega), by rw [h2]; simp⟩

/-! ### Acknowledgments (R148, R149) -/

theorem heldWrite_iff (pw : Option PendingWrite) : flushResumes pw = true ↔ ∃ b, heldWrite pw = some b := by
  rcases pw with _ | ⟨b, _ | _⟩ <;> simp [flushResumes, heldWrite]

theorem heldWrite_some {pw : Option PendingWrite} {b : Bytes} (h : heldWrite pw = some b) : pw = some ⟨b, .flushWait⟩ := by
  rcases pw with _ | ⟨b', _ | _⟩ <;> simp_all [heldWrite]

/-- An acknowledgment that is not ignored removes as many entries as it covers, at least one and at most 511. -/
theorem acknowledged_pos {c : Ctx} {a : U16} (h : ¬ c.ignoresAck a) :
    c.acknowledged a = (c.ackCount a).toNat ∧ 1 ≤ (c.ackCount a).toNat ∧ (c.ackCount a).toNat < 512 ∧
      (c.ackCount a).toNat ≤ c.inFlight.toNat := by
  simp only [Ctx.ignoresAck, ringCap, not_or] at h
  refine ⟨if_neg (by simp only [Ctx.ignoresAck, ringCap, not_or]; exact h), ?_, by omega, by omega⟩
  have : (c.ackCount a).toNat ≠ 0 := fun e => h.1 (BitVec.eq_of_toNat_eq (by simpa using e))
  omega

theorem outRingWithout_dropAcked (c : Ctx) (n : Nat) : OutRingWithout c n (dropAcked n c.base c).outRing := by
  refine fun t => ⟨fun h => ?_, fun h => ?_⟩
  · rw [ringGet, ringAt_dropAcked, if_pos h]
  · rw [ringGet, ringAt_dropAcked, if_neg (by rintro ⟨k, h1, h2⟩; exact h k h1 h2)]; rfl

/-- The in-flight count is empty exactly when all that was in flight is removed. -/
theorem inFlight_sub_eq_zero (c : Ctx) {n : Nat} (h : n ≤ c.inFlight.toNat) :
    c.inFlight - BitVec.ofNat 10 n = 0 ↔ n = c.inFlight.toNat := by
  have hlt := c.inFlight.isLt
  constructor
  · intro e
    have := congrArg BitVec.toNat e
    simp [BitVec.toNat_sub] at this
    omega
  · rintro rfl; simp

/-- Everything `RecvAck` does at a connected context (R148, R149). -/
theorem recvAck_acked (now : U32) (i : Nat) (a : U16) {c : Ctx} (hs : c.state = .connected)
    (hpw : ∀ w, c.pw = some w → w.data ≠ []) (es : List Event) :
    ∃ (d : Ctx) (ev : List Event), Acked now i c a d ev ∧ recvAck now i a ⟨c, es⟩ = ⟨d, es ++ ev⟩ := by
  unfold Acked
  by_cases hi : c.ignoresAck a
  · have hn : c.acknowledged a = 0 := if_pos hi
    rw [hn, recvAck_ignored (r := ⟨c, es⟩) hi]
    refine ⟨c, [], ⟨c.outRing, ?_, fun _ _ h => absurd h (by omega), fun _ => ⟨?_, rfl⟩⟩, by rw [List.append_nil]⟩
    · exact fun t => ⟨by rintro ⟨k, hk, -⟩; omega, fun _ => rfl⟩
    · simp [Ctx.withoutOldest]
  · obtain ⟨hn, h1, h2, h3⟩ := acknowledged_pos hi
    have hr := outRingWithout_dropAcked c (c.ackCount a).toNat
    have hz := inFlight_sub_eq_zero c h3
    have e0 := dropAcked_eq (c.ackCount a).toNat c.base c
    have hc := recvAck_cases now i a ⟨c, es⟩
    simp only at hc
    rw [hn]
    generalize (c.ackCount a).toNat = n at *
    generalize dropAcked n c.base c = x at *
    have hxz : x.inFlight = 0 ↔ n = c.inFlight.toNat := by rw [e0]; exact hz
    have hx : ∀ w, w = (c.wdone || (c.finSent && decide (1 ≤ n ∧ n = c.inFlight.toNat))) →
        { x with wdone := w } = c.withoutOldest n x.outRing := by
      rintro w rfl; rw [e0]; rfl
    rcases hc with ⟨e, -⟩ | ⟨-, -, e, e2⟩ | ⟨-, -, -, e, e2⟩
    · simp only [ringCap] at e; omega
    · have hne : n ≠ c.inFlight.toNat := fun h => e ⟨h1, hxz.2 h⟩
      rw [e2]
      refine ⟨x, [], ⟨x.outRing, hr, fun _ _ _ h => absurd h hne, fun _ => ⟨?_, rfl⟩⟩, by rw [List.append_nil]⟩
      rw [← hx x.wdone (by rw [e0]; simp [hne])]
    · have heq := hxz.1 e
      have hxw := hx (x.wdone || x.finSent) (by rw [e0]; simp [h1, ← heq])
      have hxp : x.pw = c.pw := by rw [e0]
      rcases onFlush_cases now i ⟨x, es⟩ with ⟨h, e3⟩ | ⟨h, e3⟩
      · have hh : heldWrite c.pw = none := by
          rw [Option.eq_none_iff_forall_ne_some]
          intro b hb
          rw [hxp, (heldWrite_iff _).2 ⟨b, hb⟩] at h
          cases h
        rw [e2, e3, hxw]
        exact ⟨_, [], ⟨x.outRing, hr, fun b hb => (by rw [hh] at hb; cases hb), fun _ => ⟨rfl, rfl⟩⟩,
          by rw [List.append_nil]⟩
      · obtain ⟨b, hb⟩ := (heldWrite_iff _).1 h
        rw [hxp] at hb
        have hb' := heldWrite_some hb
        obtain ⟨d, ev, h4, h5⟩ := pump_pumped now i (c := c.withoutOldest n x.outRing) (w := ⟨b, .flushWait⟩) hs hb'
          (hpw _ hb') es
        rw [e2, e3, hxw]
        refine ⟨d, ev, ⟨x.outRing, hr, fun b' hb'' _ _ => ?_, ?_⟩, h5⟩
        · rw [hb] at hb''; cases hb''; exact h4
        · rintro (h | h | h)
          · rw [hb] at h; cases h
          · omega
          · exact absurd heq h

/-! ### The drain loop (R151) -/

theorem deliveries_cons (i : Nat) (rdone : Bool) (q : Packet) (qs : List Packet) :
    deliveries i rdone (q :: qs) =
      (if rdone then [] else if q.type = tyData then (q.payload.map (Event.rxData i)).toList
        else if q.type = tyFin then [.rxEof i] else []) ++
        deliveries i (rdone || decide (q.type = tyFin)) qs := by
  have done : ∀ qs, deliveries i true qs = [] := by intro qs; cases qs <;> simp [deliveries]
  rw [deliveries]
  cases rdone
  · by_cases hd : q.type = tyData
    · have hf : q.type ≠ tyFin := by rw [hd]; decide
      simp [hd]
    · by_cases hf : q.type = tyFin
      · simp [hf, done]
      · simp only [hd, hf, Bool.false_eq_true, if_false, decide_false, Bool.or_false, List.nil_append]
  · simp [done]

/-- Everything the drain loop does, when `qs` are the packets that stand in order from the cursor (R151). -/
theorem drain_deliveries (i : Nat) (qs : List Packet) (c : Ctx) (es : List Event) (hl : qs.length ≤ 512)
    (h1 : ∀ k q, qs[k]? = some q → ringGet c.inRing (c.ack + 1 + BitVec.ofNat 16 k) = some q)
    (h2 : ringGet c.inRing (c.ack + 1 + BitVec.ofNat 16 qs.length) = none ∨ qs.length = 512) :
    ∃ r : Ring Packet,
      drain i ⟨c, es⟩ =
        ⟨{ c with
            inRing := r, ack := c.ack + BitVec.ofNat 16 qs.length
            rdone := c.rdone || qs.any fun q => decide (q.type = tyFin) },
          es ++ deliveries i c.rdone qs⟩ ∧
        ∀ t : U16,
          ((∃ k, k < qs.length ∧ ringIx (c.ack + 1 + BitVec.ofNat 16 k) = ringIx t) → ringGet r t = none) ∧
            ((∀ k, k < qs.length → ringIx (c.ack + 1 + BitVec.ofNat 16 k) ≠ ringIx t) →
              ringGet r t = ringGet c.inRing t) := by
  induction qs generalizing c es with
  | nil =>
    have hn : ringGet c.inRing (c.ack + 1) = none := by simpa using h2
    refine ⟨c.inRing, ?_, fun t => ⟨by rintro ⟨k, hk, -⟩; exact absurd hk (Nat.not_lt_zero _), fun _ => rfl⟩⟩
    rw [Laws.Send.drain_loop, hn]
    simp [deliveries]
  | cons q qs ih =>
    have hq : ringGet c.inRing (c.ack + 1) = some q := by simpa using h1 0 q rfl
    rw [List.length_cons] at hl h2
    rw [Laws.Send.drain_loop, hq]
    simp only [deliver_eq]
    have hdel : ∀ t, ringGet (ringDel c.inRing (c.ack + 1)) t =
        if ringIx (c.ack + 1) = ringIx t then none else ringGet c.inRing t := fun t => ringGet_ringDel ..
    obtain ⟨r, e, hr⟩ := ih
      { c with
        inRing := ringDel c.inRing (c.ack + 1), ack := c.ack + 1, rdone := c.rdone || decide (q.type = tyFin) }
      (es ++ if c.rdone then [] else if q.type = tyData then (q.payload.map (Event.rxData i)).toList
        else if q.type = tyFin then [.rxEof i] else [])
      (by omega)
      (fun k p hp => by
        simp only [add_one_add, hdel]
        rw [if_neg]
        · simpa only [add_one_add] using h1 (k + 1) p (by simpa using hp)
        · have hk : k < qs.length := (List.getElem?_eq_some_iff.1 hp).1
          have := ringIx_add_ne (c.ack + 1) (j := 0) (k := k + 1) (by omega) (by omega)
          rwa [show c.ack + 1 + BitVec.ofNat 16 0 = c.ack + 1 from BitVec.add_zero _, add_one_add] at this)
      (.inl (by
        simp only [add_one_add, hdel]
        split
        · rfl
        · next hne =>
          rcases h2 with h2 | h2
          · simpa only [add_one_add] using h2
          · refine absurd ?_ hne
            have h512 : c.ack + BitVec.ofNat 16 (qs.length + 1 + 1) = c.ack + 1 + BitVec.ofNat 16 (512 * 1) := by
              rw [h2, add_one_add]
            rw [h512, ringIx_add_mul]))
    refine ⟨r, ?_, fun t => ?_⟩
    · rw [e]
      simp only [add_one_add, List.length_cons, List.any_cons, Bool.or_assoc, deliveries_cons i c.rdone q qs,
        List.append_assoc]
    · obtain ⟨g1, g2⟩ := hr t
      simp only [add_one_add, List.length_cons] at g1 g2 ⊢
      have h0 : c.ack + BitVec.ofNat 16 (0 + 1) = c.ack + 1 := rfl
      refine ⟨?_, fun h => ?_⟩
      · rintro ⟨k, hk, hkt⟩
        cases k with
        | succ k => exact g1 ⟨k, by omega, hkt⟩
        | zero =>
          by_cases hm : ∃ k, k < qs.length ∧ ringIx (c.ack + BitVec.ofNat 16 (k + 1 + 1)) = ringIx t
          · exact g1 hm
          · rw [g2 (fun k hk hkt => hm ⟨k, hk, hkt⟩), hdel, if_pos (by rw [← h0]; exact hkt)]
      · rw [g2 (fun k hk => h (k + 1) (by omega)), hdel, if_neg (by rw [← h0]; exact h 0 (by omega))]

/-! ### Dispatch -/

/-- A wire packet's bytes decode to the packet (R101). -/
theorem decodePacket_wireBytes (ty : BitVec 4) (h : WireHeader) {pl : Option Bytes} (hpl : pl ≠ some []) :
    decodePacket (wireBytes ty h pl) = some (packetOf ty h pl) := by
  have hl := wireBytes_length ty h pl
  rw [decodePacket, if_neg (by simp only [hdrLen] at *; omega), wireType_wireBytes, wireHeader_wireBytes,
    wirePayload_wireBytes ty h hpl]

/-- The receipt of a packet is the router's path for its socket, by its own row or by the DGRAM command (R192, R198). -/
theorem exec_receives {op : Instr} {now : U32} {rx : Rx} {ty : BitVec 4} {h : WireHeader} {pl : Option Bytes}
    (hop : Receives op now rx ty h pl) (s : State) :
    exec op s = receiveWire now rx (wireBytes ty h pl) (packetOf ty h pl) s := by
  rcases hop with ⟨rfl, rfl⟩ | ⟨rfl, rfl⟩ | ⟨rfl, rfl⟩ | ⟨rfl, rfl⟩ | ⟨rfl, rfl⟩ | ⟨hpl, hty, hop⟩
  any_goals rfl
  have hd := decodePacket_wireBytes ty h hpl
  have ht : ¬ 4 < (packetOf ty h pl).type.toNat := by show ¬ 4 < ty.toNat; omega
  cases rx with
  | lsock addr isn =>
    subst hop
    simp only [exec, execDgramL, hd, if_neg ht, receiveWire]
  | psock c addr =>
    subst hop
    simp only [exec, execDgramP, hd, if_neg ht, receiveWire]

/-- A packet that is neither SYN nor RESET, dispatched to a context that is not closed: receive steps 3 to 8, and then
the latch. -/
theorem receiveWire_afterLatch {now : U32} {rx : Rx} {p : Packet} {s : State} {i : Nat} {c d : Ctx} {es : List Event}
    (hr : Reaches s rx p i c) (hc : c.state ≠ .closed) (h1 : p.type ≠ tySyn) (h2 : p.type ≠ tyReset)
    (he : recvOpen now i s.dupAtCursorStale p ⟨c, []⟩ = ⟨d, es⟩) (raw : Bytes) :
    receiveWire now rx raw p s = .next (s.afterLatch i d es) := by
  unfold State.afterLatch
  split
  · next h =>
    rw [receiveWire_latched hr hc h1 h2 he h]
    cases hd : d.role <;> simp [State.tornDown, hd]
  · next h => exact receiveWire_open hr hc h1 h2 he (by simpa using h) raw

end Sys2Proof.Machine
end

