-- ==== Sys2Proof/Laws/PerInstr.lean ====
section
/-! SUPPORT. The family `FirstByte`: the first byte of every instruction's encoding is the one its row of
spec/opcode_table.json gives (30_encoding.md rules R81, R82, R87). -/

namespace Sys2Proof.Laws

/-- The first byte of a frame: a command's op code, a datagram's byte 0. -/
def firstByte : Frame → Byte
  | .command op _ _ => op
  | .datagram _ _ B => byteAt B 0

/-- The mask and the match of an instruction's row. -/
def tableRow : Instr → Byte × Byte
  | .data _ _ _ _ => (0xF0, 0x00)
  | .fin _ _ _ _ => (0xF0, 0x10)
  | .state _ _ _ _ => (0xF0, 0x20)
  | .reset _ _ _ _ => (0xF0, 0x30)
  | .syn _ _ _ _ => (0xF0, 0x40)
  | .encode _ _ => (0xFF, 0x01)
  | .decode _ _ => (0xFF, 0x02)
  | .ringPut _ _ _ => (0xFF, 0x08)
  | .ringGet _ _ => (0xFF, 0x09)
  | .ringDel _ _ => (0xFF, 0x0A)
  | .listen _ => (0xFF, 0x10)
  | .lclose _ => (0xFF, 0x11)
  | .dgramL _ _ _ _ => (0xFF, 0x12)
  | .connect _ _ _ => (0xFF, 0x18)
  | .bound _ _ _ => (0xFF, 0x19)
  | .dgramP _ _ _ _ => (0xFF, 0x1A)
  | .graceExpired _ _ => (0xFF, 0x1B)
  | .write _ _ _ => (0xFF, 0x20)
  | .endWrite _ _ => (0xFF, 0x21)
  | .readEnd _ _ => (0xFF, 0x22)
  | .tickRetx _ _ => (0xFF, 0x28)
  | .tickKa _ _ => (0xFF, 0x29)
  | .sockErr _ _ => (0xFF, 0x30)
  | .ctxRead _ _ _ => (0xFF, 0x38)
  | .glbRead _ _ => (0xFF, 0x39)
  | .ringPeek _ _ _ _ => (0xFF, 0x3A)

/-- The first byte of the encoding, under the row's mask, is the row's match. -/
def FirstByte.Statement (i : Instr) : Prop := firstByte (encode i) &&& (tableRow i).1 = (tableRow i).2

/-- The type nibble of byte 0 (R81). -/
theorem typeNibble (t v : BitVec 4) : (t ++ v : Byte) &&& 0xF0 = t ++ (0 : BitVec 4) := by revert t v; decide

/-- An op code is matched whole (R87). -/
theorem opCode (op : Byte) : op &&& 0xFF = op := by revert op; decide

theorem FirstByte.data (now : U32) (rx : Rx) (h : WireHeader) (pl : Option Bytes) :
    FirstByte.Statement (.data now rx h pl) := typeNibble tyData h.ver
theorem FirstByte.fin (now : U32) (rx : Rx) (h : WireHeader) (pl : Option Bytes) :
    FirstByte.Statement (.fin now rx h pl) := typeNibble tyFin h.ver
theorem FirstByte.state (now : U32) (rx : Rx) (h : WireHeader) (pl : Option Bytes) :
    FirstByte.Statement (.state now rx h pl) := typeNibble tyState h.ver
theorem FirstByte.reset (now : U32) (rx : Rx) (h : WireHeader) (pl : Option Bytes) :
    FirstByte.Statement (.reset now rx h pl) := typeNibble tyReset h.ver
theorem FirstByte.syn (now : U32) (rx : Rx) (h : WireHeader) (pl : Option Bytes) :
    FirstByte.Statement (.syn now rx h pl) := typeNibble tySyn h.ver
theorem FirstByte.encode (now : U32) (p : Packet) : FirstByte.Statement (.encode now p) := opCode 0x01
theorem FirstByte.decode (now : U32) (b : Bytes) : FirstByte.Statement (.decode now b) := opCode 0x02
theorem FirstByte.ringPut (now : U32) (s : U16) (v : Config.Item) :
    FirstByte.Statement (.ringPut now s v) := opCode 0x08
theorem FirstByte.ringGet (now : U32) (s : U16) : FirstByte.Statement (.ringGet now s) := opCode 0x09
theorem FirstByte.ringDel (now : U32) (s : U16) : FirstByte.Statement (.ringDel now s) := opCode 0x0A
theorem FirstByte.listen (now : U32) : FirstByte.Statement (.listen now) := opCode 0x10
theorem FirstByte.lclose (now : U32) : FirstByte.Statement (.lclose now) := opCode 0x11
theorem FirstByte.dgramL (now : U32) (addr : Config.Addr) (b : Bytes) (isn : U16) :
    FirstByte.Statement (.dgramL now addr b isn) := opCode 0x12
theorem FirstByte.connect (now : U32) (addr : Config.Addr) (isn : U16) :
    FirstByte.Statement (.connect now addr isn) := opCode 0x18
theorem FirstByte.bound (now : U32) (c : Nat) (port : U16) : FirstByte.Statement (.bound now c port) := opCode 0x19
theorem FirstByte.dgramP (now : U32) (c : Nat) (addr : Config.Addr) (b : Bytes) :
    FirstByte.Statement (.dgramP now c addr b) := opCode 0x1A
theorem FirstByte.graceExpired (now : U32) (c : Nat) : FirstByte.Statement (.graceExpired now c) := opCode 0x1B
theorem FirstByte.write (now : U32) (c : Nat) (b : Bytes) : FirstByte.Statement (.write now c b) := opCode 0x20
theorem FirstByte.endWrite (now : U32) (c : Nat) : FirstByte.Statement (.endWrite now c) := opCode 0x21
theorem FirstByte.readEnd (now : U32) (c : Nat) : FirstByte.Statement (.readEnd now c) := opCode 0x22
theorem FirstByte.tickRetx (now : U32) (c : Nat) : FirstByte.Statement (.tickRetx now c) := opCode 0x28
theorem FirstByte.tickKa (now : U32) (c : Nat) : FirstByte.Statement (.tickKa now c) := opCode 0x29
theorem FirstByte.sockErr (now : U32) (sock : Sock) : FirstByte.Statement (.sockErr now sock) := opCode 0x30
theorem FirstByte.ctxRead (now : U32) (c : Nat) (r : Byte) : FirstByte.Statement (.ctxRead now c r) := opCode 0x38
theorem FirstByte.glbRead (now : U32) (r : Byte) : FirstByte.Statement (.glbRead now r) := opCode 0x39
theorem FirstByte.ringPeek (now : U32) (c : Nat) (which : Byte) (s : U16) :
    FirstByte.Statement (.ringPeek now c which s) := opCode 0x3A

end Sys2Proof.Laws
end

