-- ==== Sys2Proof/Tests/Slice0.lean ====
section
/-! SUPPORT. The model's own tests: the WellFormed smoke, one written-out word per instruction, single steps against the
vectors of 95_test_vectors.md (named `V…` and `P…` as there), and for every statement with hypotheses a state and operands
that meet them. -/

namespace Sys2Proof.Machine.Tests

set_option Elab.async false

open Sys2Proof.Config

/-! ### Well-formed instructions: what the check refuses -/

theorem test_wf_refuses_empty_data : ¬ WellFormed (.data 0 (.lsock [] 0) {} (some [])) := fun h => h rfl
theorem test_wf_refuses_empty_fin : ¬ WellFormed (.fin 0 (.lsock [] 0) {} (some [])) := fun h => h rfl
theorem test_wf_refuses_empty_state : ¬ WellFormed (.state 0 (.lsock [] 0) {} (some [])) := fun h => h rfl
theorem test_wf_refuses_empty_reset : ¬ WellFormed (.reset 0 (.lsock [] 0) {} (some [])) := fun h => h rfl
theorem test_wf_refuses_empty_syn : ¬ WellFormed (.syn 0 (.lsock [] 0) {} (some [])) := fun h => h rfl
theorem test_wf_refuses_empty_encode : ¬ WellFormed (.encode 0 { payload := some [] }) := fun h => h rfl
theorem test_wf_accepts_one_byte : WellFormed (.data 0 (.lsock [] 0) {} (some [7])) := by simp [WellFormed]

/-! ### Decoding: one word per instruction, written out from R80, R82 and R87 -/

/-- Does a frame decode to this instruction? -/
def reads (f : Frame) (i : Instr) : Bool :=
  match decode f with
  | .ok j => decide (j = i)
  | .error _ => false

/-- The header of the wire words below. -/
def hdr : WireHeader :=
  { ver := 1, ext := 0, conn := 0x1234, ts := 0x89ABCDEF, tdiff := 0, wnd := 0x00040000, seq := 0x5678, ack := 0x9ABC }

/-- The bytes 1 to 19 of V1 to V5. -/
def tail : Bytes := [0x00, 0x12, 0x34, 0x89, 0xAB, 0xCD, 0xEF, 0, 0, 0, 0, 0, 4, 0, 0, 0x56, 0x78, 0x9A, 0xBC]

theorem test_decode_data :
    reads (.datagram 7 (.lsock [67] 5) (0x01 :: tail ++ [0x68])) (.data 7 (.lsock [67] 5) hdr (some [0x68])) = true := by
  decide
theorem test_decode_fin : reads (.datagram 7 (.psock 1 [83]) (0x11 :: tail)) (.fin 7 (.psock 1 [83]) hdr none) = true := by
  decide
theorem test_decode_state :
    reads (.datagram 7 (.lsock [] 0) (0x21 :: tail)) (.state 7 (.lsock [] 0) hdr none) = true := by decide
theorem test_decode_reset :
    reads (.datagram 7 (.lsock [] 0) (0x31 :: tail)) (.reset 7 (.lsock [] 0) hdr none) = true := by decide
theorem test_decode_syn :
    reads (.datagram 7 (.lsock [] 9) (0x41 :: tail)) (.syn 7 (.lsock [] 9) hdr none) = true := by decide
/-- V12: another version nibble and extension byte. -/
theorem test_decode_ignored_fields :
    reads
        (.datagram 0 (.lsock [] 0) [0x02, 7, 0, 1, 0, 0, 0, 2, 0, 0, 0, 3, 0, 0, 0, 4, 0, 5, 0, 6, 0xAA])
        (.data 0 (.lsock [] 0) { ver := 2, ext := 7, conn := 1, ts := 2, tdiff := 3, wnd := 4, seq := 5, ack := 6 }
          (some [0xAA])) = true := by decide
theorem test_decode_encode : reads (.command 0x01 1 { p := { seq := 3 } }) (.encode 1 { seq := 3 }) = true := by decide
theorem test_decode_decode : reads (.command 0x02 1 { bytes := [9] }) (.decode 1 [9]) = true := by decide
theorem test_decode_ringPut : reads (.command 0x08 1 { s := 5, v := [8] }) (.ringPut 1 5 [8]) = true := by decide
theorem test_decode_ringGet : reads (.command 0x09 1 { s := 5 }) (.ringGet 1 5) = true := by decide
theorem test_decode_ringDel : reads (.command 0x0A 1 { s := 5 }) (.ringDel 1 5) = true := by decide
theorem test_decode_listen : reads (.command 0x10 1 {}) (.listen 1) = true := by decide
theorem test_decode_lclose : reads (.command 0x11 1 {}) (.lclose 1) = true := by decide
theorem test_decode_dgramL :
    reads (.command 0x12 1 { addr := [67], bytes := [1, 2], isn := 3 }) (.dgramL 1 [67] [1, 2] 3) = true := by decide
theorem test_decode_connect : reads (.command 0x18 1 { addr := [83], isn := 3 }) (.connect 1 [83] 3) = true := by decide
theorem test_decode_bound : reads (.command 0x19 1 { c := 2, port := 3 }) (.bound 1 2 3) = true := by decide
theorem test_decode_dgramP :
    reads (.command 0x1A 1 { c := 2, addr := [83], bytes := [4] }) (.dgramP 1 2 [83] [4]) = true := by decide
theorem test_decode_graceExpired : reads (.command 0x1B 1 { c := 2 }) (.graceExpired 1 2) = true := by decide
theorem test_decode_write : reads (.command 0x20 1 { c := 2, bytes := [4] }) (.write 1 2 [4]) = true := by decide
theorem test_decode_end : reads (.command 0x21 1 { c := 2 }) (.endWrite 1 2) = true := by decide
theorem test_decode_readEnd : reads (.command 0x22 1 { c := 2 }) (.readEnd 1 2) = true := by decide
theorem test_decode_tickRetx : reads (.command 0x28 1 { c := 2 }) (.tickRetx 1 2) = true := by decide
theorem test_decode_tickKa : reads (.command 0x29 1 { c := 2 }) (.tickKa 1 2) = true := by decide
theorem test_decode_sockErr : reads (.command 0x30 1 { sock := .psock 2 }) (.sockErr 1 (.psock 2)) = true := by decide
theorem test_decode_ctxRead : reads (.command 0x38 1 { c := 2, r := 7 }) (.ctxRead 1 2 7) = true := by decide
theorem test_decode_glbRead : reads (.command 0x39 1 { r := 2 }) (.glbRead 1 2) = true := by decide
theorem test_decode_ringPeek :
    reads (.command 0x3A 1 { c := 2, which := 1, s := 3 }) (.ringPeek 1 2 1 3) = true := by decide
theorem test_table_words :
    decodeTableWord 8 0x00 = some (.data 0 (.lsock [] 0) { ver := 0, ext := 0 } none) ∧
      decodeTableWord 8 0x41 = some (.syn 0 (.lsock [] 0) { ver := 1, ext := 0 } none) ∧
      decodeTableWord 8 0x10 = some (.listen 0) ∧ decodeTableWord 40 0x0000000729 = some (.tickKa 7 0) ∧
      decodeTableWord 8 0x50 = none := by decide +kernel
theorem test_fetch_word :
    (State.reset.withFetchWord 8 0x10).port = [.command 0x10 0 {}] := by decide +kernel

/-! ### Small states -/

/-- K after P1 step 2. -/
def kNew : Ctx := newConnectCtx 0 [83] 0x1000

/-- The SYN of P1 step 3. -/
def synPacket : Packet := { type := 4, conn := 0x3039, ts := 200, wnd := 0x40000, seq := 0x1000 }

/-- K after P1 step 3. -/
def kBound : Ctx :=
  { kNew with
    bound := true, recvId := 0x3039, sendId := 0x303A, seq := 0x1001, inFlight := 1, alive := true,
    outRing := [(0, ⟨synPacket, 200⟩)] }

/-- K after P1 step 5. -/
def kConn : Ctx := { kBound with state := .connected, ack := 0x1FFF, inFlight := 0, outRing := [] }

/-- K after P1 step 6: one DATA packet in flight. -/
def kSent : Ctx :=
  { kConn with
    seq := 0x1002, inFlight := 1,
    outRing :=
      [(1, ⟨{ conn := 0x303A, ts := 400, wnd := 0x40000, seq := 0x1001, ack := 0x1FFF, payload := some [104, 105] }, 400⟩)] }

/-- K whose FIN is in flight. -/
def kFin : Ctx :=
  { kConn with
    endReq := true, finSent := true, seq := 0x1002, inFlight := 1,
    outRing := [(1, ⟨{ type := 1, conn := 0x303A, wnd := 0x40000, seq := 0x1001, ack := 0x1FFF }, 600⟩)] }

/-- K in its grace period. -/
def kClosed : Ctx :=
  { kConn with state := .closed, grace := true, endReq := true, finSent := true, wdone := true, rdone := true }

/-- S after P1 step 4. -/
def sConn : Ctx :=
  { newAcceptCtx [67] { conn := 0x3039, seq := 0x1000 } 0x2000 with
    alive := true,
    synack := some { type := 2, conn := 0x3039, ts := 300, wnd := 0x40000, seq := 0x2000, ack := 0x1000 } }

/-- A machine with this context in slot 0 of two. -/
def one (c : Ctx) : State := { State.reset with slots := [some c, none] }

/-- A listening machine with this context in slot 0 of two. -/
def serving (c : Ctx) : State := { one c with lstate := .listening }

/-- The state an operation leaves. -/
def next? : Answer → Option State
  | .next t => some t
  | _ => none

/-- The events and the result of an instruction. -/
def sees (i : Instr) (s : State) : Option (List Event × Option Result) :=
  (next? (exec i s)).map fun t => (t.events, t.result)

/-- A field of the context in slot 0 after an instruction. -/
def leaves {α : Type} (i : Instr) (s : State) (f : Ctx → α) : Option α := ((next? (exec i s)).bind (·.ctx? 0)).map f

/-- `{OK}`. -/
def ok : Option Result := some ⟨.ok, .none⟩

/-! ### Single steps against the vectors -/

/-- V6. -/
theorem test_V6 :
    sees (.encode 0 { type := 2, conn := 0x3039, ts := 0x1F4, wnd := 262144, seq := 0x2000, ack := 0x1000 }) State.reset =
      some ([], some ⟨.ok,
        .bytes [0x21, 0, 0x30, 0x39, 0, 0, 1, 0xF4, 0, 0, 0, 0, 0, 4, 0, 0, 0x20, 0, 0x10, 0]⟩) := by decide +kernel
/-- V8. -/
theorem test_V8 : sees (.decode 0 (List.replicate 19 0)) State.reset = some ([], some ⟨.short, .none⟩) := by
  decide +kernel
/-- V13. -/
theorem test_V13 :
    sees (.decode 0 [1, 0, 0x30, 0x3A, 0, 0, 1, 0x90, 0, 0, 0, 0, 0, 4, 0, 0, 0x10, 1, 0x1F, 0xFF, 0x68, 0x65]) State.reset =
      some ([], some ⟨.ok,
        .packet { conn := 0x303A, ts := 0x190, wnd := 0x40000, seq := 0x1001, ack := 0x1FFF, payload := some [0x68, 0x65] }⟩)
    := by decide +kernel
/-- V19. -/
theorem test_V19 :
    (next? (exec (.ringPut 0 0x1201 [81]) { State.reset with tring := [(1, [80])] })).map (·.tring) = some [(1, [81])] := by
  decide +kernel
/-- V16. -/
theorem test_V16 :
    sees (.ringGet 0 0x0205) { State.reset with tring := [(5, [65])] } = some ([], some ⟨.ok, .item (some [65])⟩) := by
  decide +kernel
/-- V17. -/
theorem test_V17 :
    (next? (exec (.ringDel 0 5) { State.reset with tring := [(5, [65])] })).map (fun t => (t.tring, t.result)) =
      some ([], some ⟨.ok, .item (some [65])⟩) := by decide +kernel
/-- V70. -/
theorem test_V70 :
    sees (.listen 1) { State.reset with lstate := .listening } = some ([], some ⟨.refused .listenState, .none⟩) := by
  decide +kernel
/-- V85. -/
theorem test_V85 :
    sees (.lclose 1000) (serving sConn) =
      some ([.tx .lsock [67] [0x11, 0, 0x30, 0x39, 0, 0, 3, 0xE8, 0, 0, 0, 0, 0, 4, 0, 0, 0x20, 0, 0x10, 0]], ok) ∧
      leaves (.lclose 1000) (serving sConn) Ctx.statusWord = some 0x00000879 := by decide +kernel
/-- V87. -/
theorem test_V87 :
    sees (.lclose 0) { State.reset with lstate := .listening } = some ([.sockClose .lsock, .evLclosed], ok) := by
  decide +kernel
/-- P1 step 4. -/
theorem test_P1_step4 :
    sees (.dgramL 300 [67] [0x41, 0, 0x30, 0x39, 0, 0, 0, 0xC8, 0, 0, 0, 0, 0, 4, 0, 0, 0x10, 0, 0, 0] 0x2000)
        { State.reset with lstate := .listening } =
      some ([.timerStart 0,
        .tx .lsock [67] [0x21, 0, 0x30, 0x39, 0, 0, 1, 0x2C, 0, 0, 0, 0, 0, 4, 0, 0, 0x20, 0, 0x10, 0], .evAccept 0], ok) ∧
      leaves (.dgramL 300 [67] [0x41, 0, 0x30, 0x39, 0, 0, 0, 0xC8, 0, 0, 0, 0, 0, 4, 0, 0, 0x10, 0, 0, 0] 0x2000)
        { State.reset with lstate := .listening } id = some sConn := by decide +kernel
/-- V71: a SYN while the listener is idle. -/
theorem test_V71 :
    sees (.syn 0 (.lsock [65] 0) { conn := 0x10, ts := 1, wnd := 0x40000, seq := 0x100 } none) State.reset =
      some ([.unrecognized .lsock [65]
        [0x41, 0, 0, 0x10, 0, 0, 0, 1, 0, 0, 0, 0, 0, 4, 0, 0, 1, 0, 0, 0]], ok) := by decide +kernel
/-- V23. -/
theorem test_V23 :
    sees (.connect 100 [83] 0x1000) State.reset = some ([.bindReq 0, .timerStart 0], some ⟨.ok, .handle 0⟩) ∧
      leaves (.connect 100 [83] 0x1000) State.reset Ctx.statusWord = some 0x00000004 := by decide +kernel
/-- V27. -/
theorem test_V27 :
    sees (.connect 101 [83] 2) { State.reset with slots := [some kNew] } = some ([], some ⟨.tableFull, .none⟩) := by
  decide +kernel
/-- V24. -/
theorem test_V24 :
    sees (.bound 200 0 12345) (one kNew) =
      some ([.tx (.psock 0) [83] [0x41, 0, 0x30, 0x39, 0, 0, 0, 0xC8, 0, 0, 0, 0, 0, 4, 0, 0, 0x10, 0, 0, 0]], ok) ∧
      leaves (.bound 200 0 12345) (one kNew) id = some kBound := by decide +kernel
/-- V28. -/
theorem test_V28 :
    sees (.dgramP 350 0 [83] [0x21, 0, 0x30, 0x39, 0, 0, 1, 0x2C, 0, 0, 0, 0, 0, 4, 0, 0, 0x20, 0, 0x10, 0]) (one kBound) =
      some ([.evConnect 0], ok) ∧
      leaves (.dgramP 350 0 [83] [0x21, 0, 0x30, 0x39, 0, 0, 1, 0x2C, 0, 0, 0, 0, 0, 4, 0, 0, 0x20, 0, 0x10, 0]) (one kBound)
        id = some kConn := by decide +kernel
/-- V33. -/
theorem test_V33 :
    (next? (exec (.graceExpired 0 0) (one kClosed))).map (fun t => (t.events, t.nConn)) =
      some ([.sockClose (.psock 0)], 0) := by decide +kernel
/-- R164's example. -/
theorem test_write_hello :
    sees (.write 400 0 [0x68, 0x65, 0x6C, 0x6C, 0x6F]) (one kConn) =
      some ([.tx (.psock 0) [83]
        [1, 0, 0x30, 0x3A, 0, 0, 1, 0x90, 0, 0, 0, 0, 0, 4, 0, 0, 0x10, 1, 0x1F, 0xFF, 0x68, 0x65, 0x6C, 0x6C, 0x6F],
        .writeDone 0 .ok], ok) := by decide +kernel
/-- V57. -/
theorem test_V57 :
    sees (.write 260 0 [1]) (one { kBound with pw := some ⟨[2], .connectWait⟩ }) =
      some ([], some ⟨.refused .writeBusy, .none⟩) := by decide +kernel
/-- V29. -/
theorem test_V29 :
    sees (.endWrite 600 0) (one { kConn with seq := 0x1002, ack := 0x2000 }) =
      some ([.tx (.psock 0) [83] [0x11, 0, 0x30, 0x3A, 0, 0, 2, 0x58, 0, 0, 0, 0, 0, 4, 0, 0, 0x10, 2, 0x20, 0]], ok) := by
  decide +kernel
/-- V31. -/
theorem test_V31 :
    sees (.readEnd 700 0) (one { kConn with endReq := true, finSent := true, wdone := true }) =
      some ([.timerStop 0, .evClose 0, .graceStart 0], ok) := by decide +kernel
/-- V59 and V60. -/
theorem test_V60 :
    sees (.tickRetx 500400 0) (one kSent) = some ([], ok) ∧
      leaves (.tickRetx 500401 0) (one kSent) (fun c => (c.retxCount, c.outRing.map (·.2.tag))) = some (1, [500401]) := by
  decide +kernel
/-- V61 and V62: the age across the wrap of the clock. -/
theorem test_V62 :
    isExpired 0x0007A020 0xFFFFFF00 = false ∧ isExpired 0x0007A021 0xFFFFFF00 = true := by decide
/-- P3 step 10. -/
theorem test_P3_step10 :
    sees (.tickKa 20000000 0) (one { kConn with seq := 0x1003, ack := 0x2000, alive := false }) =
      some ([.tx (.psock 0) [83] [0x21, 0, 0x30, 0x3A, 1, 0x31, 0x2D, 0, 0, 0, 0, 0, 0, 4, 0, 0, 0x10, 3, 0x20, 0]], ok) := by
  decide +kernel
/-- V89. -/
theorem test_V89 :
    sees (.sockErr 0 .lsock) (serving sConn) =
      some ([.evError .listener .errSocket, .evError (.conn 0) .errSocket, .timerStop 0, .evClose 0, .sockClose .lsock], ok)
    := by decide +kernel
/-- V91. -/
theorem test_V91 :
    sees (.sockErr 0 (.psock 0)) (one { kBound with pw := some ⟨[2], .connectWait⟩ }) =
      some ([.evError (.conn 0) .errSocket, .writeDone 0 .rejected, .timerStop 0, .evClose 0, .sockClose (.psock 0)], ok) := by
  decide +kernel
/-- V95 and V105. -/
theorem test_V95 :
    sees (.ctxRead 0 0 0) (serving sConn) = some ([], some ⟨.ok, .reg 0x00000819⟩) ∧
      sees (.ctxRead 0 1 9) (serving sConn) = some ([], some ⟨.badConn, .none⟩) := by decide +kernel
/-- V96 and V101. -/
theorem test_V96 :
    sees (.glbRead 0 0) (serving sConn) = some ([], some ⟨.ok, .reg 1⟩) ∧
      sees (.glbRead 0 3) (serving sConn) = some ([], some ⟨.refused .reservedReg, .none⟩) := by decide +kernel
/-- V97 and V102. -/
theorem test_V97 :
    sees (.ringPeek 0 0 0 0x1000) (one kBound) = some ([], some ⟨.ok, .outSlot (some ⟨synPacket, 200⟩)⟩) ∧
      sees (.ringPeek 0 0 2 0) (one kBound) = some ([], some ⟨.refused .reservedReg, .none⟩) := by decide +kernel
/-- P1 step 7. -/
theorem test_P1_step7 :
    sees
        (.data 450 (.lsock [67] 0) { conn := 0x303A, ts := 0x190, wnd := 0x40000, seq := 0x1001, ack := 0x1FFF }
          (some [0x68, 0x65]))
        (serving sConn) =
      some ([.rxData 0 [0x68, 0x65],
        .tx .lsock [67] [0x21, 0, 0x30, 0x39, 0, 0, 1, 0xC2, 0, 0, 0, 0, 0, 4, 0, 0, 0x20, 0, 0x10, 1]], ok) := by decide +kernel
/-- V46: data before the handshake completes is stored without a reply. -/
theorem test_V46 :
    sees (.data 450 (.psock 0 [83]) { conn := 0x3039, seq := 0x2000 } (some [1])) (one kBound) = some ([], ok) ∧
      leaves (.data 450 (.psock 0 [83]) { conn := 0x3039, seq := 0x2000 } (some [1])) (one kBound)
        (fun c => c.inRing.map (·.1)) = some [0] := by decide +kernel
/-- P5 step 5: the peer's FIN closes a context whose own FIN was acknowledged. -/
theorem test_P5_step5 :
    sees (.fin 640 (.psock 0 [83]) { conn := 0x3039, ts := 0x276, wnd := 0x40000, seq := 0x2001, ack := 0x1002 } none)
        (one { kConn with seq := 0x1003, ack := 0x2000, endReq := true, finSent := true, wdone := true }) =
      some ([.rxEof 0, .tx (.psock 0) [83] [0x21, 0, 0x30, 0x3A, 0, 0, 2, 0x80, 0, 0, 0, 0, 0, 4, 0, 0, 0x10, 3, 0x20, 1],
        .timerStop 0, .evClose 0, .graceStart 0], ok) ∧
      leaves (.fin 640 (.psock 0 [83]) { conn := 0x3039, ts := 0x276, wnd := 0x40000, seq := 0x2001, ack := 0x1002 } none)
        (one { kConn with seq := 0x1003, ack := 0x2000, endReq := true, finSent := true, wdone := true })
        Ctx.statusWord = some 0x000011FE := by decide +kernel
/-- The acknowledgment table V38 to V45, with four packets in flight. -/
theorem test_V38_to_V45 :
    [0x1000, 0x1001, 0x1004, 0x1005, 0x11FF, 0x1200, 0x1201, 0x0FFF].map
        (fun a => leaves (.state 0 (.psock 0 [83]) { conn := 0x3039, seq := 0x2000, ack := a } none)
          (one { kConn with seq := 0x1005, inFlight := 4 }) (·.inFlight)) =
      [4, 3, 0, 4, 4, 4, 4, 4].map some := by decide +kernel
/-- P6 step 7: the handshake completes and delivers what was buffered. -/
theorem test_P6_step7 :
    sees (.state 500400 (.psock 0 [83]) { conn := 0x3039, seq := 0x2000, ack := 0x1000 } none)
        (one { kBound with inRing := [(0, { conn := 0x3039, seq := 0x2000, ack := 0x1000, payload := some [1] })] }) =
      some ([.evConnect 0, .rxData 0 [1],
        .tx (.psock 0) [83] [0x21, 0, 0x30, 0x3A, 0, 7, 0xA2, 0xB0, 0, 0, 0, 0, 0, 4, 0, 0, 0x10, 1, 0x20, 0]], ok) := by
  decide +kernel
/-- P4 step 4. -/
theorem test_P4_step4 :
    sees (.reset 300 (.psock 0 [83]) { conn := 0x3039, seq := 0x7777 } none)
        (one { kBound with pw := some ⟨[2], .connectWait⟩ }) =
      some ([.rxEof 0, .writeDone 0 .rejected, .timerStop 0, .evClose 0, .graceStart 0], ok) ∧
      leaves (.reset 300 (.psock 0 [83]) { conn := 0x3039, seq := 0x7777 } none)
        (one { kBound with pw := some ⟨[2], .connectWait⟩ }) Ctx.statusWord = some 0x0000113E := by decide +kernel
/-- V49. -/
theorem test_V49 :
    (next? (exec (.reset 0 (.lsock [67] 0) { conn := 0x303A, seq := 0xABCD, ack := 0x1234 } none) (serving sConn))).map
        (fun t => (t.events, t.slots)) =
      some ([.rxEof 0, .timerStop 0, .evClose 0], [none, none]) := by decide +kernel
/-- V48. -/
theorem test_V48 :
    sees (.syn 9 (.lsock [67] 0x777) { conn := 0x3039, seq := 0x1000 } none) (serving sConn) =
      some ([.tx .lsock [67] [0x21, 0, 0x30, 0x39, 0, 0, 1, 0x2C, 0, 0, 0, 0, 0, 4, 0, 0, 0x20, 0, 0x10, 0]], ok) := by
  decide +kernel
/-- V99: the reserved op codes 0x00, 0x03, 0x3B and 0xFF. -/
theorem test_V99 :
    [0x00, 0x03, 0x3B, 0xFF].map
        (fun op => (next? (step { State.reset with port := [.command op 0 {}] })).map fun t => (t.events, t.result, t.port)) =
      List.replicate 4 (some ([], some ⟨.refused .reservedOp, .none⟩, [])) := by decide +kernel

/-! ### States and operands that meet the hypotheses of the statements -/

/-- Two contexts, of which the second is in the accepting role. -/
def both (c d : Ctx) : State := { State.reset with slots := [some c, some d] }

/-- A table with no FREE slot. -/
def full : State := { State.reset with lstate := .listening, slots := [some kNew] }

/-- The SYN of P1 step 3 as bytes, with another connection id, so that no context has its key. -/
def newSyn : Bytes := [0x41, 0, 0x50, 0x39, 0, 0, 0, 0xC8, 0, 0, 0, 0, 0, 4, 0, 0, 0x10, 0, 0, 0]

theorem test_meets_DecodeReadsHeaderAndPayload :
    (List.replicate 19 0 : Bytes).length < 20 ∧ 20 ≤ (List.replicate 20 0 : Bytes).length ∧
      (List.replicate 20 0 : Bytes).length = 20 ∧ (List.replicate 21 0 : Bytes).length ≠ 20 := by decide
theorem test_meets_CodecRoundTripAndLengths :
    ({} : Packet).payload ≠ some [] ∧ ({ payload := some [1] } : Packet).payload ≠ some [] ∧
      20 ≤ (List.replicate 20 0 : Bytes).length := by decide
theorem test_meets_DecodeInvertsEncode : WellFormed (.listen 0) ∧ WellFormed (.syn 0 (.lsock [] 0) {} none) := by
  simp [WellFormed]
theorem test_meets_EncodeInvertsDecode :
    decode (.datagram 0 (.lsock [] 0) (List.replicate 20 0)) =
        .ok (.data 0 (.lsock [] 0) { ver := 0, ext := 0 } none) ∧
      decode (.command 0x10 3 { c := 9 }) = .ok (.listen 3) := by decide +kernel
theorem test_meets_ReservedOpCodesRefused :
    (0x3A : Byte).toNat ∈ [0x01, 0x3A] ∧
      (0xFF : Byte).toNat ∉ [0x01, 0x02, 0x08, 0x09, 0x0A, 0x10, 0x11, 0x12, 0x18, 0x19, 0x1A, 0x1B, 0x20, 0x21, 0x22, 0x28,
        0x29, 0x30, 0x38, 0x39, 0x3A] := by decide
theorem test_meets_ShortDiscardedUnknownTypeSurfaced :
    (List.replicate 19 0 : Bytes).length < 20 ∧ (one kNew).connectCtx? 0 = some kNew ∧
      20 ≤ (0x50 :: List.replicate 19 0 : Bytes).length ∧
      5 ≤ ((0x50 :: List.replicate 19 0 : Bytes).getD 0 0).toNat / 16 ∧ (one kBound).connectCtx? 0 = some kBound ∧
      kBound.bound = true := by decide +kernel
theorem test_meets_StepRunsTheDecodedInstruction :
    ({ State.reset with port := [.command 0x10 1 {}] } : State).port = [.command 0x10 1 {}] ∧
      decode (.command 0x10 1 {}) = .ok (.listen 1) := by decide +kernel
theorem test_meets_StepWithoutAnInstruction :
    State.reset.port = [] ∧ decode (.datagram 0 (.lsock [] 0) []) = .error .shortDatagram ∧
      decode (.datagram 0 (.psock 0 []) (0x50 :: List.replicate 19 0)) = .error (.unknownType 5) := by decide +kernel
theorem test_meets_WirePacketIsItsDatagramCommand : (none : Option Bytes) ≠ some [] ∧ some [(7 : Byte)] ≠ some [] := by
  decide
theorem test_meets_RingPutWritesOneSlot : Ring.wf State.reset.tring := by decide +kernel
theorem test_meets_RingDelTakesOneSlot : Ring.wf ([(5, [1])] : Ring Item) := by decide +kernel
theorem test_meets_TestRingIsSeparate :
    (next? (exec (.listen 0) State.reset)).isSome = true ∧ (next? (exec (.ringPut 0 1 [2]) State.reset)).isSome = true ∧
      (∀ now q v, Instr.listen 0 ≠ .ringPut now q v) ∧ (∀ now q, Instr.listen 0 ≠ .ringGet now q) ∧
      ∀ now q, Instr.listen 0 ≠ .ringDel now q := by
  refine ⟨by decide +kernel, by decide +kernel, ?_, ?_, ?_⟩ <;> intros <;> simp
theorem test_meets_ListenOpensAnIdleListener :
    State.reset.lstate = .idle ∧ (serving sConn).lstate ≠ .idle := by decide
/-- Every context of a table of two slots. -/
theorem every_ctx {c : Ctx} {P : Nat → Ctx → Prop} (h : P 0 c) (l : LState) :
    ∀ i d, ({ one c with lstate := l } : State).ctx? i = some d → P i d := by
  intro i d hd
  match i with
  | 0 => cases hd; exact h
  | 1 => cases hd
  | n + 2 => simp [State.ctx?, one] at hd
theorem test_meets_LcloseEndsEveryAcceptingContext :
    State.reset.lstate ≠ .listening ∧ (serving sConn).lstate = .listening ∧
      ∀ i c, (serving sConn).ctx? i = some c → c.latched = false := by
  refine ⟨by decide, by decide, every_ctx (P := fun _ c => c.latched = false) ?_ .listening⟩
  decide
theorem test_meets_AcceptExactlyNewSynWhileListening :
    (decodePacket newSyn).map (fun p => (p.type, p.conn)) = some (tySyn, 0x5039) ∧
      (serving sConn).lstate = .listening ∧ (serving sConn).slots[1]? = some none ∧
      (∀ j, j < 1 → ((serving sConn).ctx? j).isSome = true) ∧
      (∀ j c, (serving sConn).ctx? j = some c → c.role = .accept → c.peer = [67] → c.recvId ≠ 0x5039 + 1) ∧
      (∀ i, i < full.maxConn → (full.ctx? i).isSome = true) ∧
      (∀ j c, full.ctx? j = some c → c.role = .accept → c.peer = [67] → c.recvId ≠ 0x5039 + 1) ∧
      State.reset.lstate ≠ .listening ∧
      (decodePacket (0x01 :: newSyn.drop 1)).map (·.type) = some tyData := by
  refine ⟨by decide +kernel, by decide, by decide, by decide, ?_, by decide, ?_, by decide, by decide +kernel⟩
  · exact every_ctx (P := fun _ c => c.role = .accept → c.peer = [67] → c.recvId ≠ 0x5039 + 1) (by decide) .listening
  · intro j c hc
    match j with
    | 0 => cases hc; decide
    | n + 1 => simp [State.ctx?, full] at hc
theorem test_meets_SocketErrorIsFatal :
    State.reset.lstate = .idle ∧ (serving sConn).lstate ≠ .idle ∧
      (∀ i c, (serving sConn).ctx? i = some c → c.role = .accept → c.state ≠ .closed) ∧
      (one kBound).connectCtx? 5 = none ∧ (serving sConn).connectCtx? 0 = none ∧
      (one kBound).connectCtx? 0 = some kBound ∧ kBound.state ≠ .closed ∧
      (one kClosed).connectCtx? 0 = some kClosed ∧ kClosed.state = .closed ∧ kClosed.grace = true ∧
      (one { kClosed with grace := false }).connectCtx? 0 = some { kClosed with grace := false } := by
  refine ⟨by decide, by decide, ?_, ?_⟩
  · exact every_ctx (P := fun _ c => c.role = .accept → c.state ≠ .closed) (by decide) .listening
  · decide +kernel
theorem test_meets_GraceExpiredFreesTheSlot :
    (one kClosed).connectCtx? 1 = none ∧ (one kClosed).connectCtx? 0 = some kClosed ∧ kClosed.grace = true ∧
      (one kConn).connectCtx? 0 = some kConn ∧ kConn.grace = false := by decide +kernel
theorem test_meets_ConnectCreatesInLowestFreeSlot :
    (∀ i, i < full.maxConn → (full.ctx? i).isSome = true) ∧ State.reset.slots[0]? = some none ∧
      (one kConn).slots[1]? = some none ∧ ∀ j, j < 1 → ((one kConn).ctx? j).isSome = true := by decide
theorem test_meets_BoundDerivesIdsAndSendsSyn :
    (serving sConn).connectCtx? 0 = none ∧ (one kBound).connectCtx? 0 = some kBound ∧ kBound.bound = true ∧
      (one kClosed).connectCtx? 0 = some kClosed ∧ kClosed.state = .closed ∧
      (one kNew).connectCtx? 0 = some kNew ∧ kNew.bound = false ∧ kNew.state ≠ .closed ∧ kNew.latched = false := by
  decide +kernel
theorem test_meets_EndSendsFinOrDefers :
    (one kConn).ctx? 1 = none ∧ (one kConn).ctx? 0 = some kConn ∧ kConn.state ≠ .closed ∧ kConn.endReq = false ∧
      kConn.latched = false ∧ kConn.finReady = true ∧ kBound.finReady = false ∧ kBound.latched = false ∧
      kFin.endReq = true ∧ kClosed.state = .closed := by decide +kernel
theorem test_meets_ReadEndSetsRdoneAndMayClose :
    (one kConn).ctx? 2 = none ∧ (one kConn).ctx? 0 = some kConn ∧ kConn.wdone = false ∧ kClosed.state = .closed ∧
      ({ kConn with wdone := true } : Ctx).state ≠ .closed ∧ ({ sConn with wdone := true } : Ctx).wdone = true := by
  decide +kernel
theorem test_meets_EveryOperationTestsTheLatch :
    (∀ j c, (serving sConn).ctx? j = some c → c.latched = false) ∧
      (next? (exec (.readEnd 0 0) (serving sConn))).isSome = true :=
  ⟨every_ctx (P := fun _ c => c.latched = false) (by decide) .listening, by decide +kernel⟩
theorem test_meets_BadHandleChangesNothing :
    handleOf (.tickKa 0 2) = some 2 ∧ (one kConn).maxConn ≤ 2 ∧ handleOf (.write 0 1 []) = some 1 ∧
      (one kConn).slots[1]? = some none ∧ handleOf (.bound 0 0 5) = some 0 ∧ needsConnectRole (.bound 0 0 5) = true ∧
      (serving sConn).ctx? 0 = some sConn ∧ sConn.role = .accept := by decide +kernel
theorem test_meets_ClosedContextIgnoresCommands :
    (one kClosed).ctx? 0 = some kClosed ∧ kClosed.state = .closed ∧ kClosed.role = .connect ∧ kClosed.pw = none := by
  decide +kernel

/-- A packet header for K. -/
def toK (seq ack : U16) : WireHeader := { conn := 0x3039, seq := seq, ack := ack }

/-- A datagram on K's private socket reaches K. -/
theorem reachesK {c : Ctx} (h : WireHeader) (ty : BitVec 4) (pl : Option Bytes)
    (hc : (one c).connectCtx? 0 = some c ∧ c.bound = true ∧ ty ≠ tySyn ∧ h.conn = c.recvId) :
    Reaches (one c) (.psock 0 [83]) (packetOf ty h pl) 0 c := ⟨rfl, hc⟩

theorem test_meets_ClosedContextSurfacesPackets :
    Receives (.data 0 (.psock 0 [83]) (toK 5 6) none) 0 (.psock 0 [83]) tyData (toK 5 6) none ∧
      Receives (.dgramP 0 0 [83] (wireBytes tyReset (toK 5 6) none)) 0 (.psock 0 [83]) tyReset (toK 5 6) none ∧
      Reaches (one kClosed) (.psock 0 [83]) (packetOf tyData (toK 5 6) none) 0 kClosed ∧
      Reaches (one kClosed) (.psock 0 [83]) (packetOf tyReset (toK 5 6) none) 0 kClosed ∧ kClosed.state = .closed :=
  ⟨.inl ⟨rfl, rfl⟩, .inr (.inr (.inr (.inr (.inr ⟨by decide, by decide, rfl⟩)))),
    reachesK _ _ _ (by decide +kernel), reachesK _ _ _ (by decide +kernel), rfl⟩
theorem test_meets_DuplicateSynResendsCachedSynAck :
    Receives (.syn 0 (.lsock [67] 5) { conn := 0x3039 } none) 0 (.lsock [67] 5) tySyn { conn := 0x3039 } none ∧
      Receives (.dgramL 0 [67] (wireBytes tySyn { conn := 0x3039 } none) 5) 0 (.lsock [67] 5) tySyn { conn := 0x3039 }
        none ∧
      Reaches (serving sConn) (.lsock [67] 5) (packetOf tySyn { conn := 0x3039 } none) 0 sConn ∧ sConn.role = .accept ∧
      sConn.state ≠ .closed ∧ sConn.latched = false ∧ sConn.synack.isSome = true ∧ kConn.role = .connect :=
  ⟨.inr (.inr (.inr (.inr (.inl ⟨rfl, rfl⟩)))), .inr (.inr (.inr (.inr (.inr ⟨by decide, by decide, rfl⟩)))),
    ⟨by decide +kernel, by decide +kernel⟩, by decide +kernel⟩
theorem test_meets_ResetForcesClose :
    Receives (.reset 0 (.psock 0 [83]) (toK 5 6) none) 0 (.psock 0 [83]) tyReset (toK 5 6) none ∧
      Reaches (one kBound) (.psock 0 [83]) (packetOf tyReset (toK 5 6) none) 0 kBound ∧ kBound.state ≠ .closed ∧
      Reaches (serving sConn) (.lsock [67] 5) (packetOf tyReset { conn := 0x303A } none) 0 sConn ∧
      sConn.state ≠ .closed :=
  ⟨.inr (.inr (.inr (.inl ⟨rfl, rfl⟩))), reachesK _ _ _ (by decide +kernel), by decide,
    ⟨by decide +kernel, by decide +kernel⟩, by decide⟩
theorem test_meets_ConnectingBuffersDataAndFin :
    Receives (.fin 0 (.psock 0 [83]) (toK 5 6) none) 0 (.psock 0 [83]) tyFin (toK 5 6) none ∧
      Reaches (one kBound) (.psock 0 [83]) (packetOf tyFin (toK 5 6) none) 0 kBound ∧ kBound.state = .connecting ∧
      kBound.latched = false :=
  ⟨.inr (.inl ⟨rfl, rfl⟩), reachesK _ _ _ (by decide +kernel), by decide, by decide⟩
theorem test_meets_StateCompletesHandshake :
    Receives (.state 0 (.psock 0 [83]) (toK 0x2000 0x1000) none) 0 (.psock 0 [83]) tyState (toK 0x2000 0x1000) none ∧
      Reaches (one kBound) (.psock 0 [83]) (packetOf tyState (toK 0x2000 0x1000) none) 0 kBound ∧
      (kBound.state = .connecting ∧ kBound.latched = false ∧ kBound.inFlight = 1 ∧ kBound.pw = none ∧
        kBound.endReq = false ∧ kBound.finSent = false ∧ ringGet kBound.inRing 0x2000 = none) ∧
      (toK 0x2000 0x1000).ack = kBound.seq - 1 ∧
      Reaches (one kBound) (.psock 0 [83]) (packetOf tyState (toK 0x2000 0x1001) none) 0 kBound ∧
      (toK 0x2000 0x1001).ack ≠ kBound.seq - 1 :=
  ⟨.inr (.inr (.inl ⟨rfl, rfl⟩)), reachesK _ _ _ (by decide +kernel), by decide +kernel, by decide,
    reachesK _ _ _ (by decide +kernel), by decide⟩

/-- K with a write of the longest segment queued. -/
def kQueued : Ctx := { kBound with pw := some ⟨List.replicate 1401 7, .connectWait⟩, endReq := true }

theorem test_meets_HandshakeReplaysWriteAndEnd :
    Receives (.state 0 (.psock 0 [83]) (toK 0x2000 0x1000) none) 0 (.psock 0 [83]) tyState (toK 0x2000 0x1000) none ∧
      Reaches (one { kBound with endReq := true }) (.psock 0 [83]) (packetOf tyState (toK 0x2000 0x1000) none) 0
        { kBound with endReq := true } ∧
      Reaches (one kQueued) (.psock 0 [83]) (packetOf tyState (toK 0x2000 0x1000) none) 0 kQueued ∧
      Reaches (one kQueued) (.psock 0 [83]) (packetOf tyState (toK 0x2000 0x1001) none) 0 kQueued ∧
      kQueued.pw = some ⟨List.replicate 1401 7, .connectWait⟩ ∧ kQueued.state = .connecting ∧ kQueued.latched = false ∧
      kQueued.inFlight = 1 ∧ kQueued.finSent = false ∧ (toK 0x2000 0x1000).ack = kQueued.seq - 1 ∧
      (toK 0x2000 0x1001).ack ≠ kQueued.seq - 1 ∧ ringGet kQueued.inRing 0x2000 = none ∧
      (segments (List.replicate 1401 7)).length = 2 :=
  ⟨.inr (.inr (.inl ⟨rfl, rfl⟩)), reachesK _ _ _ (by decide +kernel), reachesK _ _ _ (by decide +kernel),
    reachesK _ _ _ (by decide +kernel), rfl, by decide +kernel⟩

/-- K with the peer's first DATA packet buffered. -/
def kEarly : Ctx := { kBound with inRing := [(0, { conn := 0x3039, seq := 0x2000, payload := some [1] })] }

theorem test_meets_HandshakeDeliversBufferedData :
    Reaches (one kEarly) (.psock 0 [83]) (packetOf tyState (toK 0x2000 0x1000) none) 0 kEarly ∧
      kEarly.state = .connecting ∧ kEarly.inFlight = 1 ∧ kEarly.pw = none ∧ kEarly.endReq = false ∧
      kEarly.finSent = false ∧ kEarly.rdone = false ∧ (toK 0x2000 0x1000).ack = kEarly.seq - 1 ∧
      ringGet kEarly.inRing 0x2000 = some { conn := 0x3039, seq := 0x2000, payload := some [1] } ∧
      ringGet kEarly.inRing (0x2000 + 1) = none := ⟨reachesK _ _ _ (by decide +kernel), by decide +kernel⟩

/-- K with the packet after next waiting. -/
def kGap : Ctx := { kConn with inRing := [(1, { conn := 0x3039, seq := 0x2001, payload := some [2] })] }

/-- The first drained packet, the second, and one out of order that drains nothing. -/
theorem test_meets_DataAndFinStoredDrainedAcknowledged :
    Receives (.data 0 (.psock 0 [83]) (toK 0x2000 0x1000) none) 0 (.psock 0 [83]) tyData (toK 0x2000 0x1000) none ∧
      Reaches (one kGap) (.psock 0 [83]) (packetOf tyData (toK 0x2000 0x1000) none) 0 kGap ∧
      (kGap.state = .connected ∧ ((0x2000 : U16) - kGap.ack).toNat < 512 ∧ kGap.acknowledged 0x1000 = 0 ∧ kGap.pw = none ∧
        (one kGap).dupAtCursorStale = false) ∧
      (let R := ringPut kGap.inRing 0x2000 (packetOf tyData (toK 0x2000 0x1000) none)
       ringGet R (kGap.ack + 1 + 0) = some (packetOf tyData (toK 0x2000 0x1000) none) ∧
        ringGet R (kGap.ack + 1 + 1) = some { conn := 0x3039, seq := 0x2001, payload := some [2] } ∧
        ringGet R (kGap.ack + 1 + 2) = none) ∧
      Reaches (one kGap) (.psock 0 [83]) (packetOf tyFin (toK 0x21FE 0x1000) none) 0 kGap ∧
      ((0x21FE : U16) - kGap.ack).toNat = 511 ∧
      ringGet (ringPut kGap.inRing 0x21FE (packetOf tyFin (toK 0x21FE 0x1000) none)) (kGap.ack + 1 + 0) = none :=
  ⟨.inl ⟨rfl, rfl⟩, reachesK _ _ _ (by decide +kernel), by decide +kernel, by decide +kernel,
    reachesK _ _ _ (by decide +kernel), by decide +kernel⟩
theorem test_meets_DgramPDeliversNextData :
    let B := wireBytes tyData (toK 0x2000 0x1000) (some [1])
    (decodePacket B).map (fun p => (p.type, p.payload, p.conn, p.seq, p.ack)) =
        some (tyData, some [1], kConn.recvId, kConn.ack + 1, 0x1000) ∧
      (one kConn).connectCtx? 0 = some kConn ∧ kConn.bound = true ∧ kConn.state = .connected ∧ kConn.rdone = false ∧
      kConn.ignoresAck 0x1000 ∧ ringGet kConn.inRing (kConn.ack + 2) = none := by decide +kernel
theorem test_meets_StalePacketsGetABareAck :
    Reaches (one kConn) (.psock 0 [83]) (packetOf tyState (toK 0x21FF 0) none) 0 kConn ∧
      512 = ((0x21FF : U16) - kConn.ack).toNat ∧ kConn.state = .connected ∧ kConn.latched = false ∧
      Reaches { one kConn with dupAtCursorStale := true } (.psock 0 [83]) (packetOf tyData (toK 0x1FFF 0) none) 0 kConn ∧
      (0x1FFF : U16) = kConn.ack :=
  ⟨reachesK _ _ _ (by decide +kernel), by decide, by decide, by decide, ⟨rfl, by decide +kernel⟩, by decide⟩
theorem test_meets_StateAcknowledgesOldestEntries :
    Reaches (one kFin) (.psock 0 [83]) (packetOf tyState (toK 0x2000 0x1001) none) 0 kFin ∧ kFin.state = .connected ∧
      ((0x2000 : U16) - kFin.ack).toNat < 512 ∧ kFin.pw = none ∧
      ((0x1001 : U16) - (kFin.seq - kFin.inFlight.setWidth 16) + 1).toNat = 1 ∧ 1 ≤ kFin.inFlight.toNat ∧
      ((0x1000 : U16) - (kFin.seq - kFin.inFlight.setWidth 16) + 1).toNat = 0 ∧
      ((0x1002 : U16) - (kFin.seq - kFin.inFlight.setWidth 16) + 1).toNat = 2 ∧ kFin.inFlight.toNat < 2 ∧
      ((0x1200 : U16) - (kFin.seq - kFin.inFlight.setWidth 16) + 1).toNat = 512 :=
  ⟨reachesK _ _ _ (by decide +kernel), by decide +kernel⟩
/-- Half closed with two packets in flight: the acknowledgment of one leaves the context open, that of both closes it. -/
theorem test_half_closed_acknowledged :
    let c : Ctx := { kFin with rdone := true, seq := 0x1003, inFlight := 2 }
    leaves (.state 0 (.psock 0 [83]) (toK 0x2000 0x1001) none) (one c) (fun d => (d.inFlight, d.state)) =
        some (1, .connected) ∧
      leaves (.state 0 (.psock 0 [83]) (toK 0x2000 0x1002) none) (one c) (fun d => (d.inFlight, d.state)) =
        some (0, .closed) := by decide +kernel

/-- K with two packets in flight and a write held by the cap. -/
def kHeld : Ctx := { kConn with seq := 0x1003, inFlight := 2, pw := some ⟨[9], .flushWait⟩ }

theorem test_meets_FlushResumesHeldWrite :
    Reaches (one kHeld) (.psock 0 [83]) (packetOf tyState (toK 0x2000 0x1002) none) 0 kHeld ∧
      Reaches (one kHeld) (.psock 0 [83]) (packetOf tyState (toK 0x2000 0x1001) none) 0 kHeld ∧
      kHeld.state = .connected ∧ ((0x2000 : U16) - kHeld.ack).toNat < 512 ∧ kHeld.pw = some ⟨[9], .flushWait⟩ ∧
      (kHeld.ackCount 0x1002).toNat = kHeld.inFlight.toNat ∧ (kHeld.ackCount 0x1001).toNat = 1 ∧
      1 < kHeld.inFlight.toNat :=
  ⟨reachesK _ _ _ (by decide +kernel), reachesK _ _ _ (by decide +kernel), by decide +kernel⟩
/-- The next DATA packet flushes a held write with an END behind it: the write, its completion, the FIN, the delivery, and
the bare ack with the sequence number after the FIN (R140 steps 6 to 8). -/
theorem test_data_flushes_held_write :
    let c : Ctx := { kHeld with endReq := true }
    (sees (.data 5 (.psock 0 [83]) (toK 0x2000 0x1002) (some [1])) (one c)).map (·.1) =
      some
        [.tx (.psock 0) [83] (wireBytes tyData { hdr with conn := 0x303A, ts := 5, seq := 0x1003, ack := 0x1FFF } (some [9])),
          .writeDone 0 .ok,
          .tx (.psock 0) [83] (wireBytes tyFin { hdr with conn := 0x303A, ts := 5, seq := 0x1004, ack := 0x1FFF } none),
          .rxData 0 [1],
          .tx (.psock 0) [83] (wireBytes tyState { hdr with conn := 0x303A, ts := 5, seq := 0x1005, ack := 0x2000 } none)] := by
  decide +kernel
theorem test_meets_LatchClosesInEitherOrder :
    Reaches (one { kFin with rdone := true }) (.psock 0 [83]) (packetOf tyState (toK 0x2000 0x1001) none) 0
        { kFin with rdone := true } ∧
      (kFin.finSent = true ∧ kFin.pw = none ∧ 1 ≤ kFin.inFlight.toNat ∧ kFin.inFlight.toNat < 512 ∧
        (kFin.ackCount 0x1001).toNat = kFin.inFlight.toNat ∧ ((0x2000 : U16) - kFin.ack).toNat < 512) ∧
      Reaches (one { kConn with wdone := true }) (.psock 0 [83]) (packetOf tyFin (toK 0x2000 0x1000) none) 0
        { kConn with wdone := true } ∧
      (0x2000 : U16) = kConn.ack + 1 ∧ kConn.ignoresAck 0x1000 ∧ kConn.rdone = false ∧
      ringGet kConn.inRing (kConn.ack + 2) = none :=
  ⟨reachesK _ _ _ (by decide +kernel), by decide +kernel, reachesK _ _ _ (by decide +kernel), by decide +kernel⟩
theorem test_meets_PrivateSocketFilter :
    (one kNew).connectCtx? 0 = some kNew ∧ kNew.bound = false ∧ (one kConn).connectCtx? 0 = some kConn ∧
      kConn.bound = true ∧
      (decodePacket (wireBytes tySyn (toK 1 2) none)).map (·.type) = some tySyn ∧
      (decodePacket (wireBytes tyState { conn := 0x303A } none)).map (fun p => (p.type, p.conn)) = some (2, 0x303A) ∧
      (0x303A : U16) ≠ kConn.recvId := by decide +kernel
theorem test_meets_WriteWithoutSending :
    (one kConn).ctx? 1 = none ∧ (one kHeld).ctx? 0 = some kHeld ∧ kHeld.pw ≠ none ∧ kFin.pw = none ∧
      kFin.latched = false ∧ kFin.endReq = true ∧ kClosed.pw = none ∧ kClosed.latched = false ∧ kConn.pw = none ∧
      kConn.latched = false ∧ kConn.state ≠ .closed ∧ kConn.endReq = false ∧ kBound.state = .connecting ∧
      kBound.endReq = false ∧ kBound.pw = none ∧ kBound.latched = false := by decide +kernel
/-- A write that fits, one with one place left below the cap, and one with none. -/
theorem test_meets_WriteSendsSegmentsUpToTheCap :
    (one kConn).ctx? 0 = some kConn ∧ kConn.state = .connected ∧ kConn.pw = none ∧ kConn.endReq = false ∧
      kConn.latched = false ∧ (segments [7]).length = 1 ∧ min 1 (511 - kConn.inFlight.toNat) = 1 ∧
      (segments (List.replicate 1401 7)).length = 2 ∧
      min 2 (511 - ({ kConn with inFlight := 510 } : Ctx).inFlight.toNat) = 1 ∧
      min 1 (511 - ({ kConn with inFlight := 511 } : Ctx).inFlight.toNat) = 0 := by decide +kernel
theorem test_meets_SegmentsJoinToTheWrite : (segments [7])[0]? = some [7] := by decide +kernel
/-- Nothing in flight, an age of exactly 500000, and one more. -/
theorem test_meets_TickRetxResendsExpiredEntries :
    (one kConn).ctx? 1 = none ∧ kConn.inFlight = 0 ∧ kClosed.state = .closed ∧ kNew.bound = false ∧
      (one kSent).ctx? 0 = some kSent ∧ kSent.state ≠ .closed ∧ kSent.bound = true ∧ kSent.inFlight.toNat = 1 ∧
      (ringGet kSent.outRing (kSent.base + 0)).map (·.tag) = some 400 ∧
      ¬ 500000 < ((500400 : U32) - 400).toNat ∧ 500000 < ((500401 : U32) - 400).toNat := by decide +kernel
theorem test_meets_TickKaProbesIdleContexts :
    (one kConn).ctx? 1 = none ∧ kBound.state ≠ .connected ∧ kConn.state = .connected ∧ kConn.alive = true ∧
      ({ kConn with alive := false } : Ctx).state = .connected := by decide +kernel
theorem test_meets_OnlyTheRetransmitTickCounts :
    (∀ now k, Instr.tickKa 5 0 ≠ .tickRetx now k) ∧ (next? (exec (.tickKa 5 0) (one kConn))).isSome = true ∧
      (one kConn).ctx? 0 = some kConn ∧ leaves (.tickKa 5 0) (one kConn) (·.retxCount) = some 0 :=
  ⟨by intros; simp, by decide +kernel⟩
theorem test_meets_CtxReadAnswersTheRegisterMap :
    (one kConn).ctx? 1 = none ∧ (one kConn).ctx? 0 = some kConn ∧ 8 < (9 : Byte).toNat := by decide +kernel
theorem test_meets_GlbReadAnswersTheRegisterMap : 2 < (3 : Byte).toNat := by decide
theorem test_meets_RingPeekReadsOneSlot :
    (one kConn).ctx? 1 = none ∧ (one kConn).ctx? 0 = some kConn ∧ 1 < (2 : Byte).toNat := by decide +kernel
theorem test_meets_OneContextPerOperation :
    (next? (exec (.endWrite 0 0) (one kConn))).isSome = true ∧ handleOf (.endWrite 0 0) = some 0 ∧
      (next? (exec (.dgramL 0 [67] newSyn 5) (serving sConn))).isSome = true := by decide +kernel
theorem test_meets_ConnectingRoleContextsAreIsolated :
    handleOf (.endWrite 0 0) = some 0 ∧ (one kConn).ctx? 0 = some kConn ∧ (both kConn sConn).ctx? 0 = some kConn ∧
      kConn.role = .connect ∧ (both kConn sConn).dupAtCursorStale = (one kConn).dupAtCursorStale ∧
      (both kConn sConn).retxTagRefresh = (one kConn).retxTagRefresh ∧
      (next? (exec (.endWrite 0 0) (one kConn))).isSome = true := by decide +kernel

/-! ### Legal states -/

theorem kSent_inv : CtxInv 0 kSent := by constructor <;> decide +kernel

theorem kBound_inv : CtxInv 0 kBound := by constructor <;> decide +kernel

/-- A listening machine with one legal connecting-role context, and these frames waiting. -/
theorem legal_one {c : Ctx} (h : CtxInv 0 c) (hr : c.role = .connect) (frames : List Frame) :
    EngineInv { serving c with port := frames } where
  table := by simp [State.maxConn, serving, one]
  tring := ⟨.nil, by intro e h; cases h⟩
  ctx := every_ctx (P := CtxInv) h .listening
  keys := by
    intro i j d _ hd _ hrd
    have hi := every_ctx (P := fun _ c => c.role = .connect) hr .listening i d hd
    rw [hi] at hrd
    cases hrd
  idle := by intro h; cases h
  shutting := by intro h; cases h

/-- A connection with DATA in flight, a listener, and a retransmit tick waiting. -/
def legal : State := { serving kSent with port := [.command 0x28 500401 {}] }

theorem legal_inv : EngineInv legal := legal_one kSent_inv rfl _

theorem test_meets_ResetIsLegal : EngineInv (State.resetWith 1 false true) where
  table := by decide
  tring := by decide
  ctx := by
    intro i c h
    match i with
    | 0 => cases h
    | n + 1 => simp [State.ctx?, State.resetWith] at h
  keys := by
    intro i j c d h
    match i with
    | 0 => cases h
    | n + 1 => simp [State.ctx?, State.resetWith] at h
  idle := by decide
  shutting := by decide
theorem test_meets_EveryStepKeepsStatesLegal : EngineInv legal ∧ (next? (step legal)).isSome = true :=
  ⟨legal_inv, by decide +kernel⟩
theorem test_meets_LegalStatesNeverStop : EngineInv legal := legal_inv
/-- The retransmit tick emits a datagram. -/
theorem test_meets_EmittedDatagramsFitTheMtu :
    EngineInv legal ∧
      (next? (exec (.tickRetx 500401 0) legal)).map (fun t =>
        t.events.map fun e => match e with | .tx _ _ b => b.length | _ => 0) = some [22] :=
  ⟨legal_inv, by decide +kernel⟩
/-- A context moves, one is created, and one is freed. -/
theorem test_meets_ContextsMoveOnlyAsListed :
    EngineInv legal ∧ leaves (.endWrite 0 0) legal (·.endReq) = some true ∧
      ((next? (exec (.connect 0 [1] 2) legal)).bind (·.ctx? 1)).map (·.state) = some .connecting ∧
      (next? (exec (.sockErr 0 (.psock 0)) legal)).map (·.ctx? 0) = some none :=
  ⟨legal_inv, by decide +kernel⟩
/-- K while connecting, with its end and its end-of-read asked for, and a FIN buffered that acknowledges K's own FIN. -/
def kLast : Ctx :=
  { kBound with
    endReq := true, rdone := true, inRing := [(0, { type := 1, conn := 0x3039, seq := 0x2000, ack := 0x1001 })] }

theorem kLast_inv : CtxInv 0 kLast := by constructor <;> decide +kernel

/-- The handshake completes, the handshake completes and the latch closes in the same operation, a SYN is accepted, and a context closes with its slot kept and with its slot freed. -/
theorem test_meets_LifecycleNotificationsMarkTheirMoves :
    EngineInv { serving kBound with port := [] } ∧ EngineInv legal ∧
      leaves (.state 0 (.psock 0 [83]) (toK 0x2000 0x1000) none) (serving kBound) (·.state) = some .connected ∧
      (sees (.state 0 (.psock 0 [83]) (toK 0x2000 0x1000) none) (serving kBound)).map (·.1) = some [.evConnect 0] ∧
      EngineInv { serving kLast with port := [] } ∧
      leaves (.state 0 (.psock 0 [83]) (toK 0x2000 0x1000) none) (serving kLast) (fun d => (d.state, d.wdone)) =
        some (.closed, true) ∧
      (sees (.state 0 (.psock 0 [83]) (toK 0x2000 0x1000) none) (serving kLast)).map (fun r => r.1.contains (.evConnect 0)) =
        some true ∧
      (sees (.dgramL 0 [67] newSyn 5) legal).map (fun r => r.1.contains (.evAccept 1)) = some true ∧
      (sees (.reset 0 (.psock 0 [83]) (toK 5 6) none) legal).map (·.1) =
        some [.rxEof 0, .timerStop 0, .evClose 0, .graceStart 0] ∧
      (sees (.sockErr 0 (.psock 0)) legal).map (fun r => r.1.contains (.evClose 0)) = some true :=
  ⟨legal_one kBound_inv rfl _, legal_inv, by decide +kernel, by decide +kernel, legal_one kLast_inv rfl _, by decide +kernel,
    by decide +kernel, by decide +kernel⟩

end Sys2Proof.Machine.Tests
end

/-! Proofs of the statements about the reset state, the legal states and the retransmission counter. In order: the
outgoing ring and the send side of a legal context, what each operation keeps of it, how a context may move, the block
after an operation on one slot, everything an instruction can do to the block (`Effect`), and the obligations. -/

namespace Sys2Proof.Machine

open Sys2Proof.Config

/-! ### Legal contexts. The outgoing ring (10_state.md rule R48) -/

/-- The window of unacknowledged numbers ends at the next number (R24). -/
theorem base_add_inFlight (c : Ctx) : c.base + BitVec.ofNat 16 c.inFlight.toNat = c.seq := by
  rw [Ctx.base, BitVec.ofNat_toNat, BitVec.sub_add_cancel]

/-- Where the window starts, from where it ends. -/
theorem base_eq_of_add {c : Ctx} {b : U16} (h : b + BitVec.ofNat 16 c.inFlight.toNat = c.seq) : c.base = b := by
  rw [Ctx.base, ← h, ← BitVec.ofNat_toNat, BitVec.add_sub_cancel]

theorem inFlight_succ {x : BitVec 10} (h : x.toNat < ringCap) : (x + 1).toNat = x.toNat + 1 := by
  rw [BitVec.toNat_add]
  exact Nat.mod_eq_of_lt (by simp only [ringCap] at h; show x.toNat + 1 < 1024; omega)

/-- A packet sent in sequence enters the window at its end (R163). -/
theorem OutRingOk.put {c d : Ctx} (h : OutRingOk c) (hlt : c.inFlight.toNat < ringCap) {e : OutEntry}
    (he : e.packet.seq = c.seq) (hr : d.outRing = ringPut c.outRing c.seq e) (hs : d.seq = c.seq + 1)
    (hn : d.inFlight = c.inFlight + 1) : OutRingOk d := by
  obtain ⟨hwf, -, hin, hout⟩ := h
  have hnat : d.inFlight.toNat = c.inFlight.toNat + 1 := by rw [hn, inFlight_succ hlt]
  have hend := base_add_inFlight c
  have hbase : d.base = c.base := base_eq_of_add (by
    rw [hnat, hs, ← hend, BitVec.ofNat_add, BitVec.add_assoc]; rfl)
  rw [OutRingOk, hnat, hbase, hr]
  refine ⟨ringPut_wf hwf _ _, hlt, fun k hk => ?_, fun j hj hne => ?_⟩
  · rw [ringGet_ringPut]
    by_cases hkn : k = c.inFlight.toNat
    · subst hkn; rw [hend, if_pos rfl, Option.map_some, he]
    · have hdiff := ringIx_add_ne c.base (j := k) (k := c.inFlight.toNat) (by omega)
        (by simp only [ringCap] at hlt; omega)
      rw [hend] at hdiff
      rw [if_neg hdiff.symm]
      exact hin k (by omega)
  · have hlast := hne c.inFlight.toNat (by omega)
    rw [hend] at hlast
    rw [ringPut, ringAt_ringSet, if_neg hlast.symm]
    exact hout j hj fun k hk => hne k (by omega)

/-- The oldest entries leave the window at its start (R148). -/
theorem OutRingOk.drop {c d : Ctx} (h : OutRingOk c) {n : Nat} (hle : n ≤ c.inFlight.toNat)
    (hr : d.outRing = (dropAcked n c.base c).outRing) (hs : d.seq = c.seq)
    (hn : d.inFlight.toNat = c.inFlight.toNat - n) : OutRingOk d := by
  obtain ⟨hwf, hcap, hin, hout⟩ := h
  simp only [ringCap] at hcap
  have shift : ∀ k, c.base + BitVec.ofNat 16 n + BitVec.ofNat 16 k = c.base + BitVec.ofNat 16 (n + k) := by
    intro k; rw [BitVec.ofNat_add, BitVec.add_assoc]
  have hbase : d.base = c.base + BitVec.ofNat 16 n := base_eq_of_add (by
    rw [shift, hn, hs, Nat.add_sub_cancel' hle, base_add_inFlight])
  rw [OutRingOk, hn, hbase, hr]
  refine ⟨dropAcked_wf n _ hwf, by simp only [ringCap]; omega, fun k hk => ?_, fun j hj hne => ?_⟩
  · rw [ringGet, ringAt_dropAcked, if_neg, shift]
    · exact hin (n + k) (by omega)
    · rintro ⟨m, hm, hmk⟩
      rw [shift] at hmk
      exact ringIx_add_ne c.base (j := m) (k := n + k) (by omega) (by omega) hmk
  · rw [ringAt_dropAcked]
    split
    · rfl
    · next hgone =>
      refine hout j hj fun k hk hjk => ?_
      by_cases hkn : k < n
      · exact hgone ⟨k, hkn, hjk.symm⟩
      · exact hne (k - n) (by omega) (by rw [shift, Nat.add_sub_cancel' (by omega)]; exact hjk)

/-- Nothing in flight, nothing in the ring (R48). -/
theorem OutRingOk.eq_nil {c : Ctx} (h : OutRingOk c) (h0 : c.inFlight.toNat = 0) : c.outRing = [] := by
  obtain ⟨hwf, -, -, hout⟩ := h
  rw [List.eq_nil_iff_forall_not_mem]
  intro e he
  have hsome := ringAt_of_mem hwf.1 he
  rw [hout e.1 (hwf.2 e he) (fun k hk => by omega)] at hsome
  cases hsome

/-- Only the packets of the ring count, not their tags. -/
theorem OutRingOk.retag {c d : Ctx} (h : OutRingOk c) (hwf : Ring.wf d.outRing)
    (hr : ∀ j, (ringAt d.outRing j).map OutEntry.packet = (ringAt c.outRing j).map OutEntry.packet)
    (hs : d.seq = c.seq) (hn : d.inFlight = c.inFlight) : OutRingOk d := by
  obtain ⟨-, hcap, hin, hout⟩ := h
  have hbase : d.base = c.base := by rw [Ctx.base, Ctx.base, hs, hn]
  rw [OutRingOk, hn, hbase]
  refine ⟨hwf, hcap, fun k hk => ?_, fun j hj hne => ?_⟩
  · have hp := congrArg (Option.map Packet.seq) (hr (ringIx (c.base + BitVec.ofNat 16 k)))
    rw [Option.map_map, Option.map_map] at hp
    exact hp.trans (hin k hk)
  · have hp := hr j
    rw [hout j hj hne] at hp
    simpa using hp

/-! ### Legal contexts. The send side -/

/-- The clauses of `CtxInv` about the send side, which every operation of the send path keeps, in whatever state the
context is. -/
structure SendInv (c : Ctx) : Prop where
  out : OutRingOk c
  entries : ∀ e ∈ c.outRing, OutEntryOk c e.2.packet
  cap : c.inFlight.toNat ≤ cap ∨ c.finSent = true
  data : ∀ w ∈ c.pw, w.data ≠ []
  finSent : c.finSent = true → c.endReq = true ∧ c.pw = none
  wdone : c.wdone = true ↔ c.finSent = true ∧ c.inFlight.toNat = 0

/-- What is left of a write in a connected context waits for the packets in flight (R31, R166). -/
def Held (c : Ctx) : Prop := ∀ w ∈ c.pw, w.phase = .flushWait ∧ 1 ≤ c.inFlight.toNat

theorem held_of_none {c : Ctx} (h : c.pw = none) : Held c := by simp [Held, h]

theorem SendInv.finSent_false {c : Ctx} (h : SendInv c) {w : PendingWrite} (hw : c.pw = some w) : c.finSent = false := by
  rw [← Bool.not_eq_true]
  intro hf
  rw [(h.finSent hf).2] at hw
  cases hw

/-- While the FIN is not sent, the write half of the latch is open (R149). -/
theorem SendInv.wdone_false {c : Ctx} (h : SendInv c) (hf : c.finSent = false) : c.wdone = false := by
  rw [← Bool.not_eq_true, h.wdone, hf]
  simp

/-- The acknowledgment cursor, the flags outside the send side, and the incoming ring do not matter to it. -/
theorem SendInv.congr {c d : Ctx} (h : SendInv c) (hout : d.outRing = c.outRing) (hseq : d.seq = c.seq)
    (hin : d.inFlight = c.inFlight) (hids : d.recvId = c.recvId ∧ d.sendId = c.sendId) (hpw : d.pw = c.pw)
    (hend : d.endReq = c.endReq) (hfin : d.finSent = c.finSent) (hw : d.wdone = c.wdone) : SendInv d where
  out := h.out.retag (hout ▸ h.out.1) (fun j => by rw [hout]) hseq hin
  entries e he := by
    have := h.entries e (hout ▸ he)
    rwa [OutEntryOk, ← hids.1, ← hids.2] at this
  cap := by rw [hin, hfin]; exact h.cap
  data := by rw [hpw]; exact h.data
  finSent := by rw [hfin, hend, hpw]; exact h.finSent
  wdone := by rw [hw, hfin, hin]; exact h.wdone

/-- A context that sends a packet in sequence: the packet is what the engine builds, and the FIN is the last (R163). -/
theorem SendInv.send {c d : Ctx} (h : SendInv c) (hlt : c.inFlight.toNat < ringCap) {p : Packet} {tag : U32}
    (hp : OutEntryOk c p) (hps : p.seq = c.seq) (hr : d.outRing = ringPut c.outRing c.seq ⟨p, tag⟩)
    (hs : d.seq = c.seq + 1) (hn : d.inFlight = c.inFlight + 1)
    (hids : d.recvId = c.recvId ∧ d.sendId = c.sendId) (hw : d.wdone = false)
    (hcap : c.inFlight.toNat < Config.cap ∨ d.finSent = true) (hdata : ∀ w ∈ d.pw, w.data ≠ [])
    (hfin : d.finSent = true → d.endReq = true ∧ d.pw = none) : SendInv d where
  out := h.out.put hlt hps hr hs hn
  entries e he := by
    rw [OutEntryOk, hids.1, hids.2]
    rw [hr] at he
    rcases mem_ringPut he with rfl | he
    · exact hp
    · exact h.entries e he
  cap := by rw [hn, inFlight_succ hlt]; exact hcap.imp id id
  data := hdata
  finSent := hfin
  wdone := by rw [hn, inFlight_succ hlt, hw]; simp

/-- The SYN and the FIN are legal outgoing packets (R169, R170). -/
theorem outEntryOk_control (now : U32) (c : Ctx) {ty : BitVec 4} (h : ty = tySyn ∨ ty = tyFin) :
    OutEntryOk c (makePacket now c ty none) := by
  refine ⟨h.imp id .inr, fun hd => ?_, fun b hb => ?_, rfl, rfl, rfl⟩
  · rcases h with rfl | rfl <;> cases hd
  · cases hb

/-- A segment is a legal outgoing packet (R167). -/
theorem outEntryOk_segment (now : U32) (c : Ctx) {b : Bytes} (h : b ≠ []) :
    OutEntryOk c (makePacket now c tyData (some (b.take mtu))) := by
  refine ⟨.inr (.inl rfl), fun _ => rfl, ?_, rfl, rfl, rfl⟩
  intro x hx
  obtain rfl : b.take mtu = x := by simpa [makePacket] using hx
  have := List.length_pos_iff.2 h
  refine ⟨rfl, ?_, ?_⟩ <;> simp only [List.length_take, mtu] <;> omega

/-- `TryFin` keeps the send side: the FIN alone may pass the cap (R166, R169). -/
theorem SendInv.tryFin {r : Run} (h : SendInv r.ctx) (now : U32) : SendInv (tryFin now r).ctx := by
  rcases tryFin_cases now r with ⟨-, e⟩ | ⟨hdue, e⟩
  · rwa [e]
  · obtain ⟨hend, hnf, hpw, -⟩ := (finDue_iff _).1 hdue
    have hcap : r.ctx.inFlight.toNat ≤ 511 := h.cap.resolve_right (by simp [hnf])
    rw [e]
    refine h.send (by simp only [ringCap]; omega) (outEntryOk_control now r.ctx (.inr rfl)) rfl rfl rfl rfl ⟨rfl, rfl⟩
      (h.wdone_false hnf) (.inr rfl) ?_ fun _ => ⟨hend, hpw⟩
    intro w hw
    exact h.data w hw

theorem Held.tryFin {r : Run} (h : Held r.ctx) (now : U32) : Held (tryFin now r).ctx := by
  rcases tryFin_cases now r with ⟨-, e⟩ | ⟨hdue, e⟩
  · rwa [e]
  · obtain ⟨-, -, hpw, -⟩ := (finDue_iff _).1 hdue
    rw [e]
    exact held_of_none hpw

/-- A round of `Pump` that sends a segment keeps the send side, whatever it leaves to be sent (R165). -/
theorem SendInv.segment {r : Run} (h : SendInv r.ctx) (now : U32) {w : PendingWrite} (hw : r.ctx.pw = some w)
    (hlt : r.ctx.inFlight.toNat < Config.cap) {rest : Option PendingWrite} (hrest : ∀ v ∈ rest, v.data ≠ []) :
    SendInv { (Laws.Send.sendSegment now w r).ctx with pw := rest } := by
  have hnf := h.finSent_false hw
  refine h.send (by simp only [Config.cap, ringCap] at *; omega) (outEntryOk_segment now r.ctx (h.data w hw)) rfl rfl rfl rfl
    ⟨rfl, rfl⟩ (h.wdone_false hnf) (.inl hlt) hrest ?_
  intro (hf : r.ctx.finSent = true)
  rw [hnf] at hf
  cases hf

theorem SendInv.pumpLoop {now : U32} {i fuel : Nat} {r : Run} (h : SendInv r.ctx) :
    SendInv (pumpLoop now i fuel r).ctx := by
  induction fuel generalizing r with
  | zero => exact h
  | succ n ih =>
    rw [Laws.Send.pumpLoop_succ]
    split
    · exact h
    · next w hw =>
      split
      · refine ⟨h.out, h.entries, h.cap, ?_, ?_, h.wdone⟩
        · rintro _ ⟨⟩; exact h.data w hw
        · intro hf; rw [h.finSent_false hw] at hf; cases hf
      · next hroom =>
        split
        · exact SendInv.tryFin (h.segment now hw (Nat.lt_of_not_le hroom) (rest := none) (by simp)) now
        · next hlong =>
          refine ih (h.segment now hw (Nat.lt_of_not_le hroom) ?_)
          rintro _ ⟨⟩
          simp only [ne_eq, List.drop_eq_nil_iff]
          omega

theorem SendInv.pump {r : Run} (h : SendInv r.ctx) (now : U32) (i : Nat) : SendInv (pump now i r).ctx := by
  unfold Machine.pump
  split
  · exact h.pumpLoop
  · exact h

/-- A pump leaves nothing pending, or a write held by the cap (R165, R166). -/
theorem held_pump (now : U32) (i : Nat) {r : Run} (hs : r.ctx.state = .connected) : Held (pump now i r).ctx := by
  rcases Laws.Send.pump_pending now i r hs with h | ⟨w, h, hph, hin⟩
  · exact held_of_none h
  · intro v hv
    obtain rfl : w = v := by simpa [h] using hv
    exact ⟨hph, by simp only [cap] at hin; omega⟩

/-- The counter after the removals of `RecvAck` (R148). -/
theorem dropAcked_inFlight {c : Ctx} {n : Nat} (h : n ≤ c.inFlight.toNat) (s : U16) :
    (dropAcked n s c).inFlight.toNat = c.inFlight.toNat - n := by
  have hlt := c.inFlight.isLt
  rw [dropAcked_eq, BitVec.toNat_sub_of_le, BitVec.toNat_ofNat, Nat.mod_eq_of_lt (by omega)]
  rw [BitVec.le_def, BitVec.toNat_ofNat, Nat.mod_eq_of_lt (by omega)]
  exact h

/-- The removals keep the send side, once the flush signal has set the write half of the latch (R148, R149). -/
theorem SendInv.dropAcked {c : Ctx} (h : SendInv c) {n : Nat} (hn : n ≤ c.inFlight.toNat) {b : Bool}
    (hb : b = true ↔ c.finSent = true ∧ c.inFlight.toNat - n = 0) :
    SendInv { dropAcked n c.base c with wdone := b } where
  out := h.out.drop hn rfl (by rw [dropAcked_eq]) (dropAcked_inFlight hn _)
  entries e he := by
    have := h.entries e (mem_dropAcked he)
    rw [dropAcked_eq]
    exact this
  cap := by
    show (Machine.dropAcked n c.base c).inFlight.toNat ≤ _ ∨ (Machine.dropAcked n c.base c).finSent = true
    rw [dropAcked_inFlight hn, dropAcked_eq]
    exact h.cap.imp (fun hc => by omega) id
  data := by rw [dropAcked_eq]; exact h.data
  finSent := by rw [dropAcked_eq]; exact h.finSent
  wdone := by
    show b = true ↔ (Machine.dropAcked n c.base c).finSent = true ∧ (Machine.dropAcked n c.base c).inFlight.toNat = 0
    rw [dropAcked_inFlight hn, dropAcked_eq]
    exact hb

/-- Does the acknowledgment leave nothing in flight (R148)? -/
theorem dropAcked_inFlight_eq_zero {c : Ctx} {n : Nat} (h : n ≤ c.inFlight.toNat) (s : U16) :
    (dropAcked n s c).inFlight = 0 ↔ c.inFlight.toNat - n = 0 := by
  rw [← dropAcked_inFlight h s, ← BitVec.toNat_inj]
  rfl

/-- The processing of an acknowledgment keeps the send side (R148, R149). -/
theorem SendInv.recvAck {r : Run} (h : SendInv r.ctx) (now : U32) (i : Nat) (a : U16) :
    SendInv (recvAck now i a r).ctx := by
  rcases recvAck_cases now i a r with ⟨-, e⟩ | ⟨-, hle, hsome, e⟩ | ⟨-, hle, -, hzero, e⟩ <;> rw [e]
  · exact h
  · rw [dropAcked_inFlight_eq_zero hle] at hsome
    refine h.dropAcked hle (b := (Machine.dropAcked _ r.ctx.base r.ctx).wdone) ?_
    rw [dropAcked_eq, h.wdone]
    refine and_congr_right fun _ => ?_
    omega
  · rw [dropAcked_inFlight_eq_zero hle] at hzero
    have hdrop := h.dropAcked hle (b := r.ctx.wdone || r.ctx.finSent) (by
      rw [Bool.or_eq_true, h.wdone]
      tauto)
    have hflags := dropAcked_eq (r.ctx.ackCount a).toNat r.ctx.base r.ctx
    generalize Machine.dropAcked _ r.ctx.base r.ctx = x at *
    rw [show (r.ctx.wdone || r.ctx.finSent) = (x.wdone || x.finSent) by rw [hflags]] at hdrop
    rcases onFlush_cases now i { r with ctx := x } with ⟨-, e⟩ | ⟨-, e⟩ <;> rw [e]
    · exact hdrop
    · exact SendInv.pump hdrop now i

/-- A write held by the cap resumes when the flush signal comes, or still waits for packets in flight (R149). -/
theorem Held.recvAck {r : Run} (h : Held r.ctx) (hs : r.ctx.state = .connected) (now : U32) (i : Nat) (a : U16) :
    Held (recvAck now i a r).ctx := by
  rcases recvAck_cases now i a r with ⟨-, e⟩ | ⟨-, hle, hsome, e⟩ | ⟨-, hle, -, hzero, e⟩ <;> rw [e]
  · exact h
  · rw [dropAcked_inFlight_eq_zero hle] at hsome
    intro w hw
    rw [dropAcked_eq] at hw
    obtain ⟨hph, hin⟩ := h w hw
    refine ⟨hph, ?_⟩
    rw [dropAcked_inFlight hle]
    omega
  · have hx := dropAcked_frame (r.ctx.ackCount a).toNat r.ctx.base r.ctx
    have hpw : (dropAcked (r.ctx.ackCount a).toNat r.ctx.base r.ctx).pw = r.ctx.pw := by rw [dropAcked_eq]
    generalize dropAcked _ r.ctx.base r.ctx = x at *
    rcases onFlush_cases now i { r with ctx := x } with ⟨hno, e⟩ | ⟨-, e⟩ <;> rw [e]
    · refine held_of_none (hpw.trans ?_)
      rw [Option.eq_none_iff_forall_ne_some]
      rintro ⟨b, ph⟩ hw
      obtain ⟨rfl, -⟩ := h _ hw
      simp [hpw, hw, flushResumes] at hno
    · exact held_pump now i (hx.state.trans hs)

/-! ### Legal contexts. The whole context but for the latch -/

/-- The clauses of `CtxInv` that the send path cannot touch: the incoming ring, the identity of the context, and what
being closed means. -/
structure BaseInv (i : Nat) (c : Ctx) : Prop where
  inWf : Ring.wf c.inRing
  inTypes : ∀ e ∈ c.inRing, e.2.type = tyData ∨ e.2.type = tyFin
  accepting : c.role = .accept →
    c.sock = .lsock ∧ c.bound = true ∧ c.state = .connected ∧ c.recvId = c.sendId + 1 ∧
      c.synack.map (fun p => (p.type, p.payload)) = some (tyState, none)
  connecting : c.role = .connect →
    c.sock = .psock i ∧ c.synack = none ∧ (c.bound = true → c.sendId = c.recvId + 1) ∧
      (c.bound = false → c.recvId = 0 ∧ c.sendId = 0 ∧ c.state = .connecting)
  closed : c.state = .closed ↔ c.grace = true

/-- A legal context whose latch is still to be tested (R127). -/
structure CtxCore (i : Nat) (c : Ctx) : Prop where
  base : BaseInv i c
  send : SendInv c
  handshake : c.state = .connecting →
    c.role = .connect ∧ c.finSent = false ∧ c.ack = 0 ∧ c.inFlight.toNat = c.bound.toNat
  waiting : c.state = .connecting → ∀ w ∈ c.pw, w.phase = .connectWait
  held : c.state = .connected → Held c
  closedEnd : c.state = .closed → c.role = .connect ∧ c.endReq = true ∧ c.rdone = true ∧ c.pw = none

/-- An accepting-role context is bound and connected as long as it exists (R46, R129). -/
theorem BaseInv.accepting_open {i : Nat} {c : Ctx} (h : BaseInv i c) (hr : c.role = .accept) :
    c.bound = true ∧ c.state = .connected := by
  obtain ⟨-, hb, hs, -⟩ := h.accepting hr
  exact ⟨hb, hs⟩

/-- A connecting-role context that sent its FIN was bound before (R122, R169). -/
theorem CtxCore.bound_of_finSent {i : Nat} {c : Ctx} (h : CtxCore i c) (hr : c.role = .connect) (hf : c.finSent = true) :
    c.bound = true := by
  obtain ⟨-, -, -, hunbound⟩ := h.base.connecting hr
  rw [← Bool.not_eq_false]
  intro hb
  obtain ⟨-, -, hs⟩ := hunbound hb
  obtain ⟨-, hnf, -⟩ := h.handshake hs
  rw [hnf] at hf
  cases hf

/-- A legal connected context whose latch is still to be tested. -/
structure ConnectedInv (i : Nat) (c : Ctx) : Prop where
  state : c.state = .connected
  base : BaseInv i c
  send : SendInv c
  held : Held c

/-- Legal is legal but for the latch, and the latch tested. -/
theorem ctxInv_iff {i : Nat} {c : Ctx} : CtxInv i c ↔ CtxCore i c ∧ c.latched = false := by
  constructor
  · intro h
    refine ⟨⟨⟨h.inWf, h.inTypes, h.accepting, h.connecting, h.closed⟩,
      ⟨h.out, h.outEntries, h.inFlightCap, fun w hw => (h.pending w hw).1, h.finSent, h.wdone⟩, h.handshake,
      fun hs w hw => (h.pending w hw).2.1 hs, fun hs w hw => (h.pending w hw).2.2 hs, h.closedEnd⟩, h.latch⟩
  · rintro ⟨⟨b, s, handshake, waiting, held, closedEnd⟩, hl⟩
    exact ⟨s.out, s.entries, b.inWf, b.inTypes, s.cap, b.accepting, b.connecting, handshake,
      fun w hw => ⟨s.data w hw, fun hs => waiting hs w hw, fun hs => held hs w hw⟩, s.finSent, s.wdone, b.closed, closedEnd,
      hl⟩

theorem ConnectedInv.core {i : Nat} {c : Ctx} (h : ConnectedInv i c) : CtxCore i c where
  base := h.base
  send := h.send
  handshake hs := by rw [h.state] at hs; cases hs
  waiting hs := by rw [h.state] at hs; cases hs
  held _ := h.held
  closedEnd hs := by rw [h.state] at hs; cases hs

theorem CtxCore.connected {i : Nat} {c : Ctx} (h : CtxCore i c) (hs : c.state = .connected) : ConnectedInv i c :=
  ⟨hs, h.base, h.send, h.held hs⟩

theorem BaseInv.sendFrame {i : Nat} {c d : Ctx} (h : BaseInv i c) (f : SendFrame c d) : BaseInv i d where
  inWf := by rw [f.inRing]; exact h.inWf
  inTypes := by rw [f.inRing]; exact h.inTypes
  accepting := by rw [f.role, f.sock, f.bound, f.state, f.recvId, f.sendId, f.synack]; exact h.accepting
  connecting := by rw [f.role, f.sock, f.bound, f.state, f.recvId, f.sendId, f.synack]; exact h.connecting
  closed := by rw [f.state, f.grace]; exact h.closed

/-- The send path keeps a connected context legal where it keeps the send side. -/
theorem ConnectedInv.sendFrame {i : Nat} {c d : Ctx} (h : ConnectedInv i c) (f : SendFrame c d) (hs : SendInv d)
    (hh : Held d) : ConnectedInv i d :=
  ⟨f.state.trans h.state, h.base.sendFrame f, hs, hh⟩

/-- The read side of a connected context is free, but for the packets that may be stored (R144, R150, R151). -/
theorem ConnectedInv.readSide {i : Nat} {c : Ctx} (h : ConnectedInv i c) {r : Ring Packet} (hwf : Ring.wf r)
    (ht : ∀ e ∈ r, e.2.type = tyData ∨ e.2.type = tyFin) (a : U16) (b : Bool) :
    ConnectedInv i { c with inRing := r, ack := a, rdone := b } where
  state := h.state
  base := ⟨hwf, ht, h.base.accepting, h.base.connecting, h.base.closed⟩
  send := h.send.congr rfl rfl rfl ⟨rfl, rfl⟩ rfl rfl rfl rfl
  held := h.held

theorem ConnectedInv.alive {i : Nat} {c : Ctx} (h : ConnectedInv i c) (b : Bool) : ConnectedInv i { c with alive := b } where
  state := h.state
  base := ⟨h.base.inWf, h.base.inTypes, h.base.accepting, h.base.connecting, h.base.closed⟩
  send := h.send.congr rfl rfl rfl ⟨rfl, rfl⟩ rfl rfl rfl rfl
  held := h.held

/-! ### Operations on a connected context -/

theorem ConnectedInv.sendAck {i : Nat} {r : Run} (h : ConnectedInv i r.ctx) (now : U32) :
    ConnectedInv i (sendAck now r).ctx := h.alive true

theorem ConnectedInv.tryFin {i : Nat} {r : Run} (h : ConnectedInv i r.ctx) (now : U32) :
    ConnectedInv i (tryFin now r).ctx :=
  h.sendFrame (tryFin_frame now r) (h.send.tryFin now) (h.held.tryFin now)

theorem ConnectedInv.recvAck {i : Nat} {r : Run} (h : ConnectedInv i r.ctx) (now : U32) (a : U16) :
    ConnectedInv i (recvAck now i a r).ctx :=
  h.sendFrame (recvAck_frame now i a r) (h.send.recvAck now i a) (h.held.recvAck h.state now i a)

/-- A pump may start with any write pending (R165). -/
theorem ConnectedInv.pump {i : Nat} {r : Run} (hs : r.ctx.state = .connected) (hb : BaseInv i r.ctx) (h : SendInv r.ctx)
    (now : U32) : ConnectedInv i (pump now i r).ctx :=
  have f := pump_frame now i r
  ⟨f.state.trans hs, hb.sendFrame f, h.pump now i, held_pump now i hs⟩

/-- What waited for the handshake goes out: the pending write, then the FIN (R124). -/
theorem ConnectedInv.replay {i : Nat} {r : Run} (hs : r.ctx.state = .connected) (hb : BaseInv i r.ctx)
    (h : SendInv r.ctx) (now : U32) :
    ConnectedInv i (Machine.tryFin now (if r.ctx.pw.isSome then Machine.pump now i r else r)).ctx := by
  split
  · exact (ConnectedInv.pump hs hb h now).tryFin now
  · next hpw => exact ConnectedInv.tryFin ⟨hs, hb, h, held_of_none (by simpa using hpw)⟩ now

theorem ConnectedInv.drainLoop {i : Nat} {fuel : Nat} {r : Run} (h : ConnectedInv i r.ctx) :
    ConnectedInv i (drainLoop i fuel r).ctx := by
  induction fuel generalizing r with
  | zero => exact h
  | succ n ih =>
    rw [Machine.drainLoop]
    split
    · exact h
    · refine ih ?_
      rw [deliver_eq]
      exact h.readSide (ringDel_wf h.base.inWf _) (fun e he => h.base.inTypes e (mem_ringDel he)) _ _

theorem mem_types_ringPut {r : Ring Packet} (h : ∀ e ∈ r, e.2.type = tyData ∨ e.2.type = tyFin) {p : Packet}
    (hp : p.type = tyData ∨ p.type = tyFin) (s : U16) : ∀ e ∈ ringPut r s p, e.2.type = tyData ∨ e.2.type = tyFin := by
  intro e he
  rcases mem_ringPut he with rfl | he
  · exact hp
  · exact h e he

/-- Steps 5 to 8 of receive processing (R146 to R150). -/
theorem ConnectedInv.recvEstablished {i : Nat} {r : Run} (h : ConnectedInv i r.ctx) (now : U32) (dup : Bool) {p : Packet}
    (hp : p.type = tyData ∨ p.type = tyFin ∨ p.type = tyState) : ConnectedInv i (recvEstablished now i dup p r).ctx := by
  have hack := h.recvAck now p.ack
  unfold Machine.recvEstablished
  split
  · exact h.sendAck now
  · simp only
    split
    · exact hack
    · next hst =>
      have hstore := mem_types_ringPut hack.base.inTypes (p := p) (by tauto) p.seq
      exact ConnectedInv.sendAck
        (ConnectedInv.drainLoop (hack.readSide (ringPut_wf hack.base.inWf p.seq p) hstore _ _)) now

/-- A bound context of the connecting role may become connected (R120). -/
theorem BaseInv.setConnected {i : Nat} {c : Ctx} (h : BaseInv i c) (hs : c.state = .connecting) (hr : c.role = .connect)
    (hb : c.bound = true) : BaseInv i { c with state := .connected } where
  inWf := h.inWf
  inTypes := h.inTypes
  accepting (ha : c.role = .accept) := by rw [hr] at ha; cases ha
  connecting _ := by
    obtain ⟨hsock, hsyn, hids, -⟩ := h.connecting hr
    exact ⟨hsock, hsyn, hids, fun (hn : c.bound = false) => by rw [hb] at hn; cases hn⟩
  closed := by
    have hgrace : c.grace = false := by rw [← Bool.not_eq_true, ← h.closed, hs]; decide
    simp [hgrace]

/-- The handshake completes into a legal connected context: what waited for it goes out (R124). -/
theorem CtxCore.completeConnect {i : Nat} {r : Run} (h : CtxCore i r.ctx) (hs : r.ctx.state = .connecting)
    (hbound : r.ctx.bound = true) (now : U32) (p : Packet) : ConnectedInv i (completeConnect now i p r).ctx := by
  have hbase : BaseInv i { r.ctx with ack := p.seq - 1 } :=
    ⟨h.base.inWf, h.base.inTypes, h.base.accepting, h.base.connecting, h.base.closed⟩
  have hsend : SendInv { r.ctx with ack := p.seq - 1 } := h.send.congr rfl rfl rfl ⟨rfl, rfl⟩ rfl rfl rfl rfl
  have hack := SendInv.recvAck (r := { r with ctx := { r.ctx with ack := p.seq - 1 } }) hsend now i p.ack
  have hframe := recvAck_frame now i p.ack { r with ctx := { r.ctx with ack := p.seq - 1 } }
  have hconn := (hbase.sendFrame hframe).setConnected (hframe.state.trans hs) (hframe.role.trans (h.handshake hs).1)
    (hframe.bound.trans hbound)
  unfold Machine.completeConnect
  generalize Machine.recvAck now i p.ack { r with ctx := { r.ctx with ack := p.seq - 1 } } = r1 at *
  have hsend2 : SendInv { r1.ctx with state := .connected } := hack.congr rfl rfl rfl ⟨rfl, rfl⟩ rfl rfl rfl rfl
  exact ConnectedInv.replay (r := Run.emit { r1 with ctx := { r1.ctx with state := .connected } } (.evConnect i)) rfl hconn
    hsend2 now

/-- Steps 3 to 8 of receive processing, at a bound context (R144 to R150). -/
theorem CtxCore.recvOpen {i : Nat} {r : Run} (h : CtxCore i r.ctx) (hs : r.ctx.state ≠ .closed)
    (hbound : r.ctx.bound = true) (now : U32) (dup : Bool) {p : Packet}
    (hp : p.type = tyData ∨ p.type = tyFin ∨ p.type = tyState) : CtxCore i (recvOpen now i dup p r).ctx := by
  unfold Machine.recvOpen
  split
  · next hc =>
    split
    · have hdone := h.completeConnect hc hbound now p
      simp only
      split
      · exact hdone.core
      · next q hq =>
        have hqt := hdone.base.inTypes _ (mem_of_ringGet hq)
        have hdel := hdone.readSide (ringDel_wf hdone.base.inWf p.seq)
          (fun e he => hdone.base.inTypes e (mem_ringDel he)) (Machine.completeConnect now i p r).ctx.ack
          (Machine.completeConnect now i p r).ctx.rdone
        exact (ConnectedInv.recvEstablished hdel now dup (by tauto)).core
    · next hst =>
      have hstore := mem_types_ringPut h.base.inTypes (p := p) (by tauto) p.seq
      exact ⟨⟨ringPut_wf h.base.inWf _ _, hstore, h.base.accepting, h.base.connecting, h.base.closed⟩,
        h.send.congr rfl rfl rfl ⟨rfl, rfl⟩ rfl rfl rfl rfl, h.handshake, h.waiting, h.held, h.closedEnd⟩
  · next hc =>
    have hconn : r.ctx.state = .connected := by cases hst : r.ctx.state <;> simp_all
    exact ((h.connected hconn).recvEstablished now dup hp).core

/-! ### Operations of the application -/

/-- BOUND sends the SYN, the first packet of the context (R122, R170). -/
theorem CtxCore.bindAndSyn {i : Nat} {r : Run} (h : CtxCore i r.ctx) (hr : r.ctx.role = .connect)
    (hb : r.ctx.bound = false) (now : U32) (port : U16) : CtxCore i (bindAndSyn now port r).ctx := by
  obtain ⟨hsock, hsyn, -, hun⟩ := h.base.connecting hr
  obtain ⟨-, -, hs⟩ := hun hb
  obtain ⟨-, hfin, hack, hin⟩ := h.handshake hs
  rw [hb] at hin
  have h0 : r.ctx.inFlight.toNat = 0 := hin
  have hnil := h.send.out.eq_nil h0
  have hids : SendInv { r.ctx with recvId := port, sendId := port + 1, bound := true } :=
    ⟨h.send.out, by simp [hnil], h.send.cap, h.send.data, h.send.finSent, h.send.wdone⟩
  have hone : (r.ctx.inFlight + 1).toNat = 1 := by rw [inFlight_succ (by rw [h0]; decide), h0]
  refine ⟨⟨h.base.inWf, h.base.inTypes, fun (ha : r.ctx.role = .accept) => ?_, fun _ => ⟨hsock, hsyn, fun _ => rfl, ?_⟩,
    h.base.closed⟩, ?_, fun _ => ⟨hr, hfin, hack, hone⟩, h.waiting, fun (hc : r.ctx.state = .connected) => ?_, h.closedEnd⟩
  · rw [hr] at ha; cases ha
  · intro hn; cases hn
  · exact hids.send (by show r.ctx.inFlight.toNat < _; rw [h0]; decide) (outEntryOk_control now _ (.inl rfl)) rfl rfl rfl rfl
      ⟨rfl, rfl⟩ (h.send.wdone_false hfin) (.inl (by show r.ctx.inFlight.toNat < _; rw [h0]; decide)) h.send.data
      h.send.finSent
  · rw [hs] at hc; cases hc

/-- A context is asked for its end: while it connects the FIN waits (R125, R196). -/
theorem CtxCore.requestEnd {i : Nat} {r : Run} (h : CtxCore i r.ctx) (hs : r.ctx.state ≠ .closed) (now : U32) :
    CtxCore i (requestEnd now r).ctx := by
  have hsend : SendInv { r.ctx with endReq := true } :=
    ⟨h.send.out, h.send.entries, h.send.cap, h.send.data, fun hf => ⟨rfl, (h.send.finSent hf).2⟩, h.send.wdone⟩
  have hbase : BaseInv i { r.ctx with endReq := true } :=
    ⟨h.base.inWf, h.base.inTypes, h.base.accepting, h.base.connecting, h.base.closed⟩
  rcases tryFin_cases now { r with ctx := { r.ctx with endReq := true } } with ⟨-, e⟩ | ⟨hdue, -⟩
  · rw [Machine.requestEnd, e]
    exact ⟨hbase, hsend, h.handshake, h.waiting, h.held, fun hc => absurd hc hs⟩
  · obtain ⟨-, -, -, hconn⟩ := (finDue_iff _).1 hdue
    exact (ConnectedInv.tryFin (r := { r with ctx := { r.ctx with endReq := true } })
      ⟨hconn, hbase, hsend, h.held hconn⟩ now).core

/-- The application ends its reading (R126). -/
theorem CtxCore.readEnd {i : Nat} {c : Ctx} (h : CtxCore i c) (hs : c.state ≠ .closed) :
    CtxCore i { c with rdone := true } :=
  ⟨⟨h.base.inWf, h.base.inTypes, h.base.accepting, h.base.connecting, h.base.closed⟩,
    h.send.congr rfl rfl rfl ⟨rfl, rfl⟩ rfl rfl rfl rfl, h.handshake, h.waiting, h.held, fun hc => absurd hc hs⟩

theorem CtxCore.alive {i : Nat} {c : Ctx} (h : CtxCore i c) (b : Bool) : CtxCore i { c with alive := b } :=
  ⟨⟨h.base.inWf, h.base.inTypes, h.base.accepting, h.base.connecting, h.base.closed⟩,
    h.send.congr rfl rfl rfl ⟨rfl, rfl⟩ rfl rfl rfl rfl, h.handshake, h.waiting, h.held, h.closedEnd⟩

/-- A new write may be taken while the end is not asked for (R31, R164). -/
theorem SendInv.setWrite {c : Ctx} (h : SendInv c) (he : c.endReq = false) {b : Bytes} (hb : b ≠ []) (ph : Phase) :
    SendInv { c with pw := some ⟨b, ph⟩ } := by
  refine ⟨h.out, h.entries, h.cap, ?_, fun hf => ?_, h.wdone⟩
  · rintro _ ⟨⟩; exact hb
  · rw [(h.finSent hf).1] at he; cases he

/-- WRITE rejects, waits for the handshake, or sends (R164). -/
theorem CtxCore.acceptWrite {i : Nat} {r : Run} (h : CtxCore i r.ctx) (now : U32) (b : Bytes) :
    CtxCore i (acceptWrite now i b r).ctx := by
  unfold Machine.acceptWrite
  split
  · exact h
  · next hopen =>
    rw [not_or, Bool.not_eq_true] at hopen
    obtain ⟨hncl, hnend⟩ := hopen
    split
    · exact h
    · next hb =>
      split
      · next hs =>
        have hbase : BaseInv i { r.ctx with pw := some ⟨b, .connectWait⟩ } :=
          ⟨h.base.inWf, h.base.inTypes, h.base.accepting, h.base.connecting, h.base.closed⟩
        refine ⟨hbase, h.send.setWrite hnend hb _, h.handshake, ?_, fun (hc : r.ctx.state = .connected) => ?_,
          fun hc => absurd hc hncl⟩
        · rintro - _ ⟨⟩; rfl
        · rw [hs] at hc; cases hc
      · next hnc =>
        have hs : r.ctx.state = .connected := by cases hst : r.ctx.state <;> simp_all
        have hbase : BaseInv i { r.ctx with pw := some ⟨b, .flushWait⟩ } :=
          ⟨h.base.inWf, h.base.inTypes, h.base.accepting, h.base.connecting, h.base.closed⟩
        exact (ConnectedInv.pump (r := { r with ctx := { r.ctx with pw := some ⟨b, .flushWait⟩ } }) hs hbase
          (h.send.setWrite hnend hb _) now).core

/-! ### The retransmit tick (R181) -/

/-- The scan renews tags only: every slot keeps its packet. -/
theorem retxLoop_packets {now : U32} {refresh : Bool} {k : Nat} {q : U16} {r t : Run}
    (h : retxLoop now refresh k q r = some t) (hwf : Ring.wf r.ctx.outRing) :
    Ring.wf t.ctx.outRing ∧
      ∀ j, (ringAt t.ctx.outRing j).map OutEntry.packet = (ringAt r.ctx.outRing j).map OutEntry.packet := by
  induction k generalizing q r with
  | zero => cases h; exact ⟨hwf, fun _ => rfl⟩
  | succ n ih =>
    cases hg : ringGet r.ctx.outRing q with
    | none => simp [retxLoop, hg] at h
    | some e =>
      rw [retxLoop_succ hg] at h
      split at h
      · cases refresh with
        | false =>
          obtain ⟨hw, hp⟩ := ih h hwf
          exact ⟨hw, hp⟩
        | true =>
          obtain ⟨hw, hp⟩ := ih h (ringPut_wf hwf q _)
          refine ⟨hw, fun j => (hp j).trans ?_⟩
          simp only [if_true, ringPut, ringAt_ringSet]
          split
          · next hj => subst hj; rw [show ringAt r.ctx.outRing (ringIx q) = some e from hg]; rfl
          · rfl
      · exact ih h hwf

/-- A tick keeps a context legal: it writes tags, `alive` and the counter (R181). -/
theorem CtxCore.retx {i : Nat} {r t : Run} (h : CtxCore i r.ctx) {now : U32} {refresh : Bool} {k : Nat} {q : U16}
    (ht : retxLoop now refresh k q r = some t) : CtxCore i t.ctx := by
  obtain ⟨hwf, hpk⟩ := retxLoop_packets ht h.send.out.1
  have hframe := retxLoop_frame ht
  generalize t.ctx.outRing = ring, t.ctx.alive = al, t.ctx.retxCount = n at *
  rw [hframe]
  have hsend : SendInv { r.ctx with outRing := ring, alive := al, retxCount := n } := by
    refine ⟨h.send.out.retag hwf hpk rfl rfl, fun e he => ?_, h.send.cap, h.send.data, h.send.finSent, h.send.wdone⟩
    have hp := hpk e.1
    rw [ringAt_of_mem hwf.1 he] at hp
    obtain ⟨e', he', hpe⟩ := Option.map_eq_some_iff.1 hp.symm
    exact hpe ▸ h.send.entries _ (mem_of_ringAt he')
  exact ⟨⟨h.base.inWf, h.base.inTypes, h.base.accepting, h.base.connecting, h.base.closed⟩, hsend, h.handshake, h.waiting,
    h.held, h.closedEnd⟩

/-! ### Creation and closing -/

/-- What every new context has of legality: nothing sent, nothing received (R44). -/
theorem freshCtx_send (role : Role) (state : ConnState) (sock : Sock) (peer : Addr) (bound : Bool)
    (recvId sendId seq ack : U16) : SendInv (freshCtx role state sock peer bound recvId sendId seq ack) := by
  refine ⟨⟨⟨List.Pairwise.nil, by simp [freshCtx]⟩, Nat.zero_le _, fun k hk => ?_, fun _ _ _ => rfl⟩, by simp [freshCtx],
    .inl (Nat.zero_le _), by simp [freshCtx], by simp [freshCtx], by simp [freshCtx]⟩
  exact absurd hk (Nat.not_lt_zero k)

theorem newConnectCtx_inv (i : Nat) (addr : Addr) (isn : U16) : CtxInv i (newConnectCtx i addr isn) := by
  refine ctxInv_iff.2 ⟨⟨⟨⟨List.Pairwise.nil, ?_⟩, ?_, ?_, ?_, ?_⟩, freshCtx_send .., ?_, ?_, ?_, ?_⟩, ?_⟩ <;>
    simp [newConnectCtx, freshCtx, Ctx.latched]

theorem newAcceptCtx_inv (i : Nat) (now : U32) (addr : Addr) (p : Packet) (isn : U16) :
    CtxInv i { newAcceptCtx addr p isn with
      synack := some (makeSynAck now (newAcceptCtx addr p isn)), alive := true } := by
  have hsend : SendInv (newAcceptCtx addr p isn) := freshCtx_send ..
  refine ctxInv_iff.2 ⟨⟨⟨⟨List.Pairwise.nil, ?_⟩, ?_, ?_, ?_, ?_⟩,
      hsend.congr rfl rfl rfl ⟨rfl, rfl⟩ rfl rfl rfl rfl, ?_, ?_, ?_, ?_⟩, ?_⟩ <;>
    simp [newAcceptCtx, freshCtx, Ctx.latched, makeSynAck, makePacket, held_of_none]

/-- A bound context of the connecting role that closes keeps its slot for the grace period (R127, R128, R129). -/
theorem CtxCore.closing {i : Nat} {c d : Ctx} (h : CtxCore i c) (hr : c.role = .connect) (hb : c.bound = true)
    (hd : d = { c with pw := none, endReq := true, rdone := true, state := .closed, grace := true }) : CtxInv i d := by
  obtain ⟨hsock, hsyn, hids, -⟩ := h.base.connecting hr
  subst hd
  refine ctxInv_iff.2 ⟨⟨⟨h.base.inWf, h.base.inTypes, fun (ha : c.role = .accept) => ?_,
      fun _ => ⟨hsock, hsyn, hids, fun (hn : c.bound = false) => ?_⟩, by simp⟩,
    ⟨h.send.out, h.send.entries, h.send.cap, by simp, by simp, h.send.wdone⟩, by simp, by simp, by simp,
    by simpa using hr⟩, by simp [Ctx.latched]⟩
  · rw [hr] at ha; cases ha
  · rw [hb] at hn; cases hn

/-! ### What an operation leaves of a context (42_conn_lifecycle.md rule R120) -/

theorem stateMove_refl (a : ConnState) : stateMove a a = true := by cases a <;> rfl

theorem stateMove_closed (a : ConnState) : stateMove a .closed = true := by cases a <;> rfl

theorem stateMove_trans {a b c : ConnState} (h : stateMove a b = true) (k : stateMove b c = true) :
    stateMove a c = true := by
  revert h k
  cases a <;> cases b <;> cases c <;> decide

theorem CtxMove.refl (c : Ctx) : CtxMove c c := by constructor <;> simp [stateMove_refl]

theorem CtxMove.trans {c d e : Ctx} (h : CtxMove c d) (k : CtxMove d e) : CtxMove c e where
  state := stateMove_trans h.state k.state
  role := k.role.trans h.role
  peer := k.peer.trans h.peer
  sock := k.sock.trans h.sock
  synack := k.synack.trans h.synack
  ids hb := by
    obtain ⟨h1, h2, h3⟩ := h.ids hb
    obtain ⟨k1, k2, k3⟩ := k.ids h1
    exact ⟨k1, k2.trans h2, k3.trans h3⟩
  endReq := k.endReq ∘ h.endReq
  finSent := k.finSent ∘ h.finSent
  wdone := k.wdone ∘ h.wdone
  rdone := k.rdone ∘ h.rdone
  grace := k.grace ∘ h.grace

/-- What an operation other than the retransmit tick may do to a context: a listed move (R120), and the retransmission
counter stays (R42). -/
structure OpFrame (c d : Ctx) : Prop extends CtxMove c d where
  retxCount : d.retxCount = c.retxCount

theorem OpFrame.refl (c : Ctx) : OpFrame c c := ⟨.refl c, rfl⟩

theorem OpFrame.trans {c d e : Ctx} (h : OpFrame c d) (k : OpFrame d e) : OpFrame c e :=
  ⟨h.toCtxMove.trans k.toCtxMove, k.retxCount.trans h.retxCount⟩

theorem SendFrame.opFrame {c d : Ctx} (h : SendFrame c d) : OpFrame c d where
  state := by rw [h.state]; exact stateMove_refl _
  role := h.role
  peer := h.peer
  sock := h.sock
  synack := h.synack
  ids hb := ⟨h.bound.trans hb, h.recvId, h.sendId⟩
  endReq := by rw [h.endReq]; exact id
  finSent := h.finSent
  wdone := h.wdone
  rdone := by rw [h.rdone]; exact id
  grace := by rw [h.grace]; exact id
  retxCount := h.retxCount

/-- The read side is no part of the frame, but for the end-of-read flag, which is never cleared (R30). -/
theorem OpFrame.readSide (c : Ctx) (r : Ring Packet) (a : U16) {b : Bool} (hb : c.rdone = true → b = true) :
    OpFrame c { c with inRing := r, ack := a, rdone := b } := by
  constructor
  · constructor <;> simp [stateMove_refl]
    exact hb
  · rfl

theorem RecvFrame.opFrame {c d : Ctx} (h : RecvFrame c d) : OpFrame c d := by
  rw [h.eq]
  exact .readSide c _ _ h.rdone

theorem OpFrame.setEndReq (c : Ctx) : OpFrame c { c with endReq := true } := by
  constructor
  · constructor <;> simp [stateMove_refl]
  · rfl

theorem OpFrame.setState {c : Ctx} {st : ConnState} (h : stateMove c.state st = true) (a : U16) :
    OpFrame c { c with state := st, ack := a } := by
  constructor
  · constructor <;> simp [h]
  · rfl

/-- What closing with the grace period does (R127 to R129). -/
theorem OpFrame.closing (c : Ctx) (pw : Option PendingWrite) {e rd : Bool} (he : c.endReq = true → e = true)
    (hr : c.rdone = true → rd = true) :
    OpFrame c { c with pw := pw, endReq := e, rdone := rd, state := .closed, grace := true } := by
  constructor
  · constructor <;> simp [stateMove_closed]
    · exact he
    · exact hr
  · rfl

theorem recvEstablished_opFrame (now : U32) (i : Nat) (dup : Bool) (p : Packet) (r : Run) :
    OpFrame r.ctx (recvEstablished now i dup p r).ctx := by
  have hack := (recvAck_frame now i p.ack r).opFrame
  unfold recvEstablished
  split
  · exact (sendAck_frame now r).opFrame
  · simp only
    split
    · exact hack
    · refine OpFrame.trans ?_ (sendAck_frame now _).opFrame
      refine OpFrame.trans ?_ (drain_frame i _).opFrame
      exact hack.trans (.readSide _ _ _ id)

theorem recvOpen_opFrame (now : U32) (i : Nat) (dup : Bool) (p : Packet) (r : Run) :
    OpFrame r.ctx (recvOpen now i dup p r).ctx := by
  unfold recvOpen
  split
  · next hs =>
    split
    · have hdone : OpFrame r.ctx (completeConnect now i p r).ctx :=
        (OpFrame.setState (by rw [hs]; rfl) _).trans (completeConnect_frame now i p r).opFrame
      simp only
      split
      · exact hdone
      · refine OpFrame.trans ?_ (recvEstablished_opFrame now i dup _ _)
        exact hdone.trans (.readSide _ _ _ id)
    · exact .readSide _ _ _ id
  · exact recvEstablished_opFrame now i dup p r

theorem requestEnd_opFrame (now : U32) (r : Run) : OpFrame r.ctx (requestEnd now r).ctx :=
  (OpFrame.setEndReq r.ctx).trans (tryFin_frame now { r with ctx := { r.ctx with endReq := true } }).opFrame

theorem acceptWrite_opFrame (now : U32) (i : Nat) (b : Bytes) (r : Run) :
    OpFrame r.ctx (acceptWrite now i b r).ctx := by
  unfold acceptWrite
  split
  · exact .refl _
  · split
    · exact .refl _
    · split
      · exact ((SendFrame.refl r.ctx).setPw _).opFrame
      · refine OpFrame.trans ?_ (pump_frame now i _).opFrame
        exact ((SendFrame.refl r.ctx).setPw _).opFrame

theorem bindAndSyn_opFrame {r : Run} (h : r.ctx.bound = false) (now : U32) (port : U16) :
    OpFrame r.ctx (bindAndSyn now port r).ctx := by
  have hbind : OpFrame r.ctx { r.ctx with recvId := port, sendId := port + 1, bound := true } := by
    constructor
    · constructor <;> simp [stateMove_refl, h]
    · rfl
  refine hbind.trans (SendFrame.opFrame ?_)
  exact sendOutgoing_frame _ { r with ctx := { r.ctx with recvId := port, sendId := port + 1, bound := true } }

/-- What the operations on one context, those that end with the test of the latch, leave of the context `c` of slot `i`:
nothing changed, BOUND, END and LCLOSE, READ_END, WRITE, a SYN again, and a packet received. -/
inductive CtxOp (i : Nat) (c : Ctx) : Ctx → Prop
  | kept : CtxOp i c c
  | bound (now : U32) (port : U16) : c.role = .connect → c.bound = false → CtxOp i c (bindAndSyn now port ⟨c, []⟩).ctx
  | ended (now : U32) : c.state ≠ .closed → CtxOp i c (requestEnd now ⟨c, []⟩).ctx
  | readEnded : c.state ≠ .closed → CtxOp i c { c with rdone := true }
  | written (now : U32) (b : Bytes) : CtxOp i c (acceptWrite now i b ⟨c, []⟩).ctx
  | resent (sa : Packet) : CtxOp i c (transmit sa ⟨c, []⟩).ctx
  | received (now : U32) (dup : Bool) (p : Packet) : c.state ≠ .closed → (c.bound = true ∨ c.role = .accept) →
      (p.type = tyData ∨ p.type = tyFin ∨ p.type = tyState) → CtxOp i c (recvOpen now i dup p ⟨c, []⟩).ctx

theorem CtxOp.opFrame {i : Nat} {c d : Ctx} (h : CtxOp i c d) : OpFrame c d := by
  cases h with
  | kept => exact .refl c
  | bound now port _ hb => exact bindAndSyn_opFrame (r := ⟨c, []⟩) hb now port
  | ended now _ => exact requestEnd_opFrame now ⟨c, []⟩
  | readEnded _ => exact .readSide c _ _ fun _ => rfl
  | written now b => exact acceptWrite_opFrame now i b ⟨c, []⟩
  | resent sa => exact (transmit_frame sa ⟨c, []⟩).opFrame
  | received now dup p _ _ _ => exact recvOpen_opFrame now i dup p ⟨c, []⟩

/-- Every operation on a legal context leaves one that is legal but for the latch. -/
theorem CtxOp.core {i : Nat} {c d : Ctx} (h : CtxOp i c d) (hc : CtxCore i c) : CtxCore i d := by
  cases h with
  | kept => exact hc
  | bound now port hr hb => exact CtxCore.bindAndSyn (r := ⟨c, []⟩) hc hr hb now port
  | ended now hs => exact CtxCore.requestEnd (r := ⟨c, []⟩) hc hs now
  | readEnded hs => exact hc.readEnd hs
  | written now b => exact CtxCore.acceptWrite (r := ⟨c, []⟩) hc now b
  | resent sa => exact hc.alive true
  | received now dup p hs hb hp =>
    have hbound : c.bound = true := hb.elim id fun ha => (hc.base.accepting_open ha).1
    exact CtxCore.recvOpen (r := ⟨c, []⟩) hc hs hbound now dup hp

/-! ### The table after an operation -/

/-- The same block but for what no rule of the machine reads: the outputs and the frames not yet taken. -/
structure SameBlock (s t : State) : Prop where
  slots : t.slots = s.slots
  lstate : t.lstate = s.lstate
  tring : t.tring = s.tring

theorem SameBlock.refl (s : State) : SameBlock s s := ⟨rfl, rfl, rfl⟩

theorem SameBlock.trans {s t u : State} (h : SameBlock s t) (k : SameBlock t u) : SameBlock s u :=
  ⟨k.slots.trans h.slots, k.lstate.trans h.lstate, k.tring.trans h.tring⟩

theorem SameBlock.ctx? {s t : State} (h : SameBlock s t) (j : Nat) : t.ctx? j = s.ctx? j := by
  rw [State.ctx?, h.slots, State.ctx?]

/-- Putting back the context that is there changes nothing. -/
theorem setSlot_ctx? {s : State} {i : Nat} {c : Ctx} (h : s.ctx? i = some c) : SameBlock (s.setSlot i (some c)) s := by
  refine ⟨?_, rfl, rfl⟩
  obtain ⟨hl, he⟩ := List.getElem?_eq_some_iff.1 (ctx?_eq_some.1 h)
  rw [setSlot_slots, ← he, List.set_getElem_self]

/-- The table keeps its size, the test ring, and every slot but `i`. -/
structure TableFrame (i : Nat) (s t : State) : Prop where
  size : t.maxConn = s.maxConn
  tring : t.tring = s.tring
  others : ∀ j, j ≠ i → t.ctx? j = s.ctx? j

theorem TableFrame.trans {i : Nat} {s t u : State} (h : TableFrame i s t) (k : TableFrame i t u) : TableFrame i s u :=
  ⟨k.size.trans h.size, k.tring.trans h.tring, fun j hj => (k.others j hj).trans (h.others j hj)⟩

theorem BlockFrame.table {i : Nat} {s t : State} (h : BlockFrame i s t) : TableFrame i s t :=
  ⟨h.size, h.tring, fun _ hj => h.ctx? hj⟩

theorem SameBlock.table {s t : State} (h : SameBlock s t) (i : Nat) : TableFrame i s t :=
  ⟨by rw [State.maxConn, h.slots, State.maxConn], h.tring, fun j _ => h.ctx? j⟩

/-- Every context of `t` is a context of `s`, related by `R`. -/
def Evolves (R : Ctx → Ctx → Prop) (s t : State) : Prop :=
  ∀ j d, t.ctx? j = some d → ∃ c, s.ctx? j = some c ∧ R c d

theorem Evolves.mono {R S : Ctx → Ctx → Prop} (hRS : ∀ c d, R c d → S c d) {s t : State} (h : Evolves R s t) :
    Evolves S s t := fun j d hd => (h j d hd).imp fun c => And.imp_right (hRS c d)

theorem Evolves.trans {s t u : State} (h : Evolves OpFrame s t) (k : Evolves OpFrame t u) : Evolves OpFrame s u := by
  intro j e he
  obtain ⟨d, hd, hde⟩ := k j e he
  obtain ⟨c, hc, hcd⟩ := h j d hd
  exact ⟨c, hc, hcd.trans hde⟩

theorem SameBlock.evolves {s t : State} (h : SameBlock s t) : Evolves OpFrame s t :=
  fun j d hd => ⟨d, by rw [← h.ctx? j]; exact hd, .refl d⟩

/-- An operation on one slot. -/
theorem TableFrame.evolves {R : Ctx → Ctx → Prop} (hR : ∀ c, R c c) {i : Nat} {s t : State} (h : TableFrame i s t)
    (hi : ∀ d, t.ctx? i = some d → ∃ c, s.ctx? i = some c ∧ R c d) : Evolves R s t := by
  intro j d hd
  by_cases hj : j = i
  · subst hj; exact hi d hd
  · exact ⟨d, by rw [← h.others j hj]; exact hd, hR d⟩

/-- A context that is not latched, and a FREE slot, end the operation as they are (R127). -/
theorem endOfOp_slot {i : Nat} {s : State} {c : Ctx} (h : s.ctx? i = some c) :
    (endOfOp i s).ctx? i =
      if c.latched then
        if c.role = .connect then some { c with state := .closed, grace := true } else none
      else some c := by
  cases hl : c.latched with
  | false => rw [endOfOp_unlatched h hl]; simpa using h
  | true => rw [endOfOp_latched h hl, teardown_slot h]; simp

/-- The slot after a forced close (R128). -/
theorem forceClose_slot {i : Nat} {s : State} {c d : Ctx} (h : s.ctx? i = some d) (hs : c.state ≠ .closed)
    (mode : CloseMode) :
    (forceClose i c mode s).ctx? i =
      if c.role = .connect ∧ mode = .normal then
        some { c with pw := none, endReq := true, state := .closed, grace := true }
      else none := by
  rw [forceClose_open hs, teardown_slot (d := d) (by split <;> simpa using h)]

theorem endOfOp_evolves (i : Nat) (s : State) : Evolves OpFrame s (endOfOp i s) := by
  refine (endOfOp_frame i s).table.evolves .refl fun d hd => ?_
  cases hc : s.ctx? i with
  | none => rw [endOfOp, hc] at hd; exact absurd hd (by simp [hc])
  | some c =>
    rw [endOfOp_slot hc] at hd
    refine ⟨c, rfl, ?_⟩
    split at hd
    · split at hd
      · cases hd; exact .closing c c.pw id id
      · cases hd
    · cases hd; exact .refl _

/-! ### Operations on one slot, as the instructions put them together -/

/-- `t` is the block `s` after an operation on the context of slot `i` and the test of its latch (R127). -/
def RanOn (i : Nat) (s t : State) : Prop :=
  ∃ c d u, s.ctx? i = some c ∧ CtxOp i c d ∧ SameBlock (s.setSlot i (some d)) u ∧ SameBlock (endOfOp i u) t

/-- `t` is the block `s` after a forced close of the context of slot `i`, which was not closed (R128): by RESET at a bound
context, which ends the reading (R143), or by a socket error (R200). -/
def ForcedOn (i : Nat) (s t : State) : Prop :=
  ∃ c rd mode u, s.ctx? i = some c ∧ c.state ≠ .closed ∧ (c.rdone = true → rd = true) ∧
    (c.role = .connect → mode = .normal → c.bound = true ∧ rd = true) ∧
    SameBlock s u ∧ SameBlock (forceClose i { c with rdone := rd } mode u) t

/-- `t` is the block `s` with the connecting-role context of slot `i` freed (R199, R200). -/
def FreedOn (i : Nat) (s t : State) : Prop :=
  ∃ c, s.ctx? i = some c ∧ c.role = .connect ∧ SameBlock (s.setSlot i none) t

/-- The context of slot `i` becomes `d`. -/
theorem setSlot_table {i : Nat} {s u : State} {o : Option Ctx} (h : SameBlock (s.setSlot i o) u) : TableFrame i s u :=
  (setSlot_frame i s o).table.trans (h.table i)

theorem setSlot_slot {i : Nat} {s u : State} {c : Ctx} {o : Option Ctx} (hc : s.ctx? i = some c)
    (h : SameBlock (s.setSlot i o) u) : u.ctx? i = o := by
  rw [h.ctx?, ctx?_setSlot_self _ (ctx?_lt hc)]

/-- One context changes. -/
theorem setSlot_evolves {R : Ctx → Ctx → Prop} (hR : ∀ c, R c c) {i : Nat} {s u : State} {c d : Ctx}
    (hc : s.ctx? i = some c) (h : SameBlock (s.setSlot i (some d)) u) (hcd : R c d) : Evolves R s u := by
  refine (setSlot_table h).evolves hR fun e he => ?_
  rw [setSlot_slot hc h] at he
  cases he
  exact ⟨c, hc, hcd⟩

theorem RanOn.evolves {i : Nat} {s t : State} (h : RanOn i s t) : Evolves OpFrame s t := by
  obtain ⟨c, d, u, hc, hop, hu, ht⟩ := h
  exact ((setSlot_evolves .refl hc hu hop.opFrame).trans (endOfOp_evolves i u)).trans ht.evolves

theorem ForcedOn.table {i : Nat} {s t : State} (h : ForcedOn i s t) : TableFrame i s t := by
  obtain ⟨c, rd, mode, u, -, -, -, -, hu, ht⟩ := h
  exact ((hu.table i).trans (forceClose_frame i _ mode u).table).trans (ht.table i)

theorem ForcedOn.evolves {i : Nat} {s t : State} (h : ForcedOn i s t) : Evolves OpFrame s t := by
  refine h.table.evolves .refl fun d hd => ?_
  obtain ⟨c, rd, mode, u, hc, hs, hrd, -, hu, ht⟩ := h
  rw [ht.ctx?, forceClose_slot (c := { c with rdone := rd }) (hu.ctx? i ▸ hc) hs] at hd
  split at hd
  · cases hd; exact ⟨c, hc, .closing c none (fun _ => rfl) hrd⟩
  · cases hd

theorem FreedOn.evolves {i : Nat} {s t : State} (h : FreedOn i s t) : Evolves OpFrame s t := by
  obtain ⟨c, hc, -, ht⟩ := h
  refine (setSlot_table ht).evolves .refl fun d hd => ?_
  rw [setSlot_slot hc ht] at hd
  cases hd

/-! ### The listener's clauses of a legal state (R191, R197) -/

/-- In `IDLE` no accepting-role context exists (R191). -/
def IdleEmpty (s : State) : Prop := s.lstate = .idle → s.slots.any isAccepting = false

/-- In `SHUTTING` one still exists (R197). -/
def ShuttingServes (s : State) : Prop := s.lstate = .shutting → s.slots.any isAccepting = true

/-- No accepting-role context appears where none was before. -/
theorem any_isAccepting_mono {s t : State} (h : ∀ j, isAccepting (t.ctx? j) = true → isAccepting (s.ctx? j) = true)
    (hs : s.slots.any isAccepting = false) : t.slots.any isAccepting = false := by
  rw [← Bool.not_eq_true, any_isAccepting] at hs ⊢
  rintro ⟨j, d, hd, hr⟩
  have hj := h j (by simp [hd, isAccepting, hr])
  cases hc : s.ctx? j with
  | none => simp [hc, isAccepting] at hj
  | some c => exact hs ⟨j, c, hc, by simpa [hc, isAccepting] using hj⟩

theorem any_isAccepting_congr {s t : State} (h : ∀ j, isAccepting (t.ctx? j) = isAccepting (s.ctx? j)) :
    t.slots.any isAccepting = s.slots.any isAccepting := by
  cases hs : s.slots.any isAccepting with
  | false => exact any_isAccepting_mono (fun j => by rw [h j]; exact id) hs
  | true =>
    rw [← Bool.not_eq_false]
    intro ht
    rw [any_isAccepting_mono (fun j => by rw [h j]; exact id) ht] at hs
    cases hs

/-- An operation on one slot that keeps whether the slot is accepting. -/
theorem TableFrame.any_isAccepting {i : Nat} {s t : State} (h : TableFrame i s t)
    (hi : isAccepting (t.ctx? i) = isAccepting (s.ctx? i)) : t.slots.any isAccepting = s.slots.any isAccepting := by
  refine any_isAccepting_congr fun j => ?_
  by_cases hj : j = i
  · subst hj; exact hi
  · rw [h.others j hj]

theorem Evolves.isAccepting {s t : State} (h : Evolves CtxMove s t) (j : Nat) (ht : isAccepting (t.ctx? j) = true) :
    isAccepting (s.ctx? j) = true := by
  cases hd : t.ctx? j with
  | none => simp [hd, Machine.isAccepting] at ht
  | some d =>
    obtain ⟨c, hc, hm⟩ := h j d hd
    rw [hd] at ht
    rw [hc, Machine.isAccepting, ← hm.role]
    exact ht

theorem IdleEmpty.congr {s t : State} (h : IdleEmpty s) (hl : t.lstate = s.lstate)
    (ha : t.slots.any isAccepting = s.slots.any isAccepting) : IdleEmpty t := by
  rw [IdleEmpty, hl, ha]; exact h

theorem ShuttingServes.congr {s t : State} (h : ShuttingServes s) (hl : t.lstate = s.lstate)
    (ha : t.slots.any isAccepting = s.slots.any isAccepting) : ShuttingServes t := by
  rw [ShuttingServes, hl, ha]; exact h

/-- The listener's check leaves a shutting listener only where it still serves (R197). -/
theorem listenerCloseCheck_serves (s : State) : ShuttingServes (listenerCloseCheck s) := by
  intro hsh
  rcases listenerCloseCheck_cases s with ⟨-, -, e⟩ | ⟨hno, e⟩
  · rw [e] at hsh; cases hsh
  · rw [e] at hsh
    rw [e, ← Bool.not_eq_false]
    exact fun hf => hno ⟨hsh, hf⟩

theorem IdleEmpty.listenerCloseCheck {s : State} (h : IdleEmpty s) : IdleEmpty (listenerCloseCheck s) := by
  intro hid
  rw [listenerCloseCheck_slots]
  rcases listenerCloseCheck_cases s with ⟨-, hno, -⟩ | ⟨-, e⟩
  · exact hno
  · exact h (by rw [← e]; exact hid)

/-- The check does nothing to an idle listener. -/
theorem listenerCloseCheck_idle {s : State} (h : s.lstate = .idle) : (listenerCloseCheck s).lstate = .idle := by
  rcases listenerCloseCheck_cases s with ⟨-, -, e⟩ | ⟨-, e⟩ <;> rw [e]
  exact h

/-- What a teardown does to the listener: nothing in the connecting role; in the accepting role the context is gone and
the listener's check is made (R129). -/
theorem teardown_listener {i : Nat} {s : State} {c d : Ctx} (hc : s.ctx? i = some d) (hr : c.role = d.role)
    (mode : CloseMode) :
    ((teardown i c mode s).lstate = s.lstate ∧
        (teardown i c mode s).slots.any isAccepting = s.slots.any isAccepting) ∨
      ∃ u, teardown i c mode s = listenerCloseCheck u ∧ u.lstate = s.lstate ∧
        (s.slots.any isAccepting = false → u.slots.any isAccepting = false) := by
  cases hrole : c.role with
  | connect =>
    refine .inl ⟨?_, (teardown_frame i c mode s).table.any_isAccepting ?_⟩
    · cases mode with
      | normal => rw [teardown_normal hrole]; rfl
      | noGrace => rw [teardown_noGrace hrole]; rfl
    · rw [teardown_slot hc, hc]
      cases mode <;> simp [isAccepting, hrole, ← hr]
  | accept =>
    refine .inr ⟨_, teardown_accept hrole i mode s, rfl, any_isAccepting_mono fun j hj => ?_⟩
    rw [ctx?_setSlot] at hj
    split at hj
    · cases hj
    · exact hj

theorem IdleEmpty.teardown {i : Nat} {s : State} {c d : Ctx} (h : IdleEmpty s) (hc : s.ctx? i = some d)
    (hr : c.role = d.role) (mode : CloseMode) : IdleEmpty (teardown i c mode s) := by
  rcases teardown_listener hc hr mode with ⟨hl, ha⟩ | ⟨u, e, hl, ha⟩
  · exact h.congr hl ha
  · rw [e]
    exact IdleEmpty.listenerCloseCheck fun hu => ha (h (hl ▸ hu))

theorem ShuttingServes.teardown {i : Nat} {s : State} {c d : Ctx} (h : ShuttingServes s) (hc : s.ctx? i = some d)
    (hr : c.role = d.role) (mode : CloseMode) : ShuttingServes (teardown i c mode s) := by
  rcases teardown_listener hc hr mode with ⟨hl, ha⟩ | ⟨u, e, -, -⟩
  · exact h.congr hl ha
  · rw [e]; exact listenerCloseCheck_serves u

theorem teardown_idle {i : Nat} {s : State} {c d : Ctx} (h : s.lstate = .idle) (hc : s.ctx? i = some d)
    (hr : c.role = d.role) (mode : CloseMode) : (teardown i c mode s).lstate = .idle := by
  rcases teardown_listener hc hr mode with ⟨hl, -⟩ | ⟨u, e, hl, -⟩
  · exact hl.trans h
  · rw [e]; exact listenerCloseCheck_idle (hl.trans h)

theorem IdleEmpty.endOfOp {s : State} (h : IdleEmpty s) (i : Nat) : IdleEmpty (endOfOp i s) := by
  rcases endOfOp_cases i s with ⟨c, hc, -, e⟩ | ⟨-, e⟩ <;> rw [e]
  · exact h.teardown (c := { c with state := .closed }) hc rfl .normal
  · exact h

theorem ShuttingServes.endOfOp {s : State} (h : ShuttingServes s) (i : Nat) : ShuttingServes (endOfOp i s) := by
  rcases endOfOp_cases i s with ⟨c, hc, -, e⟩ | ⟨-, e⟩ <;> rw [e]
  · exact h.teardown (c := { c with state := .closed }) hc rfl .normal
  · exact h

/-- A forced close is a teardown, as far as the listener can tell (R128). -/
theorem forceClose_teardown {i : Nat} {s : State} {c d : Ctx} (hc : s.ctx? i = some d) (hr : c.role = d.role)
    (hs : c.state ≠ .closed) (mode : CloseMode) :
    ∃ c' s', forceClose i c mode s = teardown i c' mode s' ∧ SameBlock s s' ∧ s'.ctx? i = some d ∧ c'.role = d.role := by
  refine ⟨_, _, forceClose_open hs i mode s, ?_, ?_, hr⟩
  · split <;> exact ⟨rfl, rfl, rfl⟩
  · split
    · rw [emits_ctx?]; exact hc
    · exact hc

/-! ### Legal tables -/

/-- The clauses of `EngineInv` that do not speak of the listener. -/
structure TableInv (s : State) : Prop where
  table : 1 ≤ s.maxConn
  tring : Ring.wf s.tring
  ctx : ∀ i c, s.ctx? i = some c → CtxInv i c
  keys : ∀ i j c d, s.ctx? i = some c → s.ctx? j = some d → c.role = .accept → d.role = .accept → c.peer = d.peer →
    c.recvId = d.recvId → i = j

/-- Legal but for a shutting listener that may have nothing left to serve, as inside LCLOSE (R196). -/
structure ClosingInv (s : State) : Prop extends TableInv s where
  idle : IdleEmpty s

theorem engineInv_iff {s : State} : EngineInv s ↔ ClosingInv s ∧ ShuttingServes s :=
  ⟨fun h => ⟨⟨⟨h.table, h.tring, h.ctx, h.keys⟩, h.idle⟩, h.shutting⟩,
    fun ⟨h, hs⟩ => ⟨h.table, h.tring, h.ctx, h.keys, h.idle, hs⟩⟩

/-- Contexts that only move keep the keys apart: an accepting-role context is bound, so that its key stays (R28, R51). -/
theorem TableInv.of_evolves {s t : State} (h : TableInv s) (he : Evolves CtxMove s t) (hsize : t.maxConn = s.maxConn)
    (htring : Ring.wf t.tring) (hctx : ∀ j d, t.ctx? j = some d → CtxInv j d) : TableInv t where
  table := by rw [hsize]; exact h.table
  tring := htring
  ctx := hctx
  keys j k d e hd he' hdr her hp hid := by
    have key : ∀ {j d}, t.ctx? j = some d → d.role = .accept →
        ∃ c, s.ctx? j = some c ∧ c.role = .accept ∧ c.peer = d.peer ∧ c.recvId = d.recvId := by
      intro j d hd hr
      obtain ⟨c, hc, hm⟩ := he j d hd
      have hcr := hm.role.symm.trans hr
      obtain ⟨-, hid, -⟩ := hm.ids ((ctxInv_iff.1 (h.ctx j c hc)).1.base.accepting_open hcr).1
      exact ⟨c, hc, hcr, hm.peer.symm, hid.symm⟩
    obtain ⟨c, hc, hcr, hcp, hcid⟩ := key hd hdr
    obtain ⟨c', hc', hcr', hcp', hcid'⟩ := key he' her
    exact h.keys j k c c' hc hc' hcr hcr' (by rw [hcp, hcp', hp]) (by rw [hcid, hcid', hid])

/-- An operation on one slot that leaves a legal context there, or none. -/
theorem TableInv.of_frame {i : Nat} {s t : State} (h : TableInv s) (hf : TableFrame i s t) (he : Evolves CtxMove s t)
    (hi : ∀ d, t.ctx? i = some d → CtxInv i d) : TableInv t := by
  refine h.of_evolves he hf.size (by rw [hf.tring]; exact h.tring) fun j d hd => ?_
  by_cases hj : j = i
  · subst hj; exact hi d hd
  · exact h.ctx j d (by rw [← hf.others j hj]; exact hd)

theorem SameBlock.engineInv {s t : State} (h : SameBlock s t) (hs : EngineInv s) : EngineInv t := by
  obtain ⟨hc, hsh⟩ := engineInv_iff.1 hs
  have hany : t.slots.any isAccepting = s.slots.any isAccepting := by rw [h.slots]
  exact engineInv_iff.2 ⟨⟨hc.of_frame (h.table 0) (h.evolves.mono fun _ _ hm => hm.toCtxMove)
    fun d hd => hc.ctx 0 d (by rw [← h.ctx?]; exact hd), hc.idle.congr h.lstate hany⟩, hsh.congr h.lstate hany⟩

/-- A new context whose key no accepting-role context has (R121, R123). -/
theorem TableInv.create {i : Nat} {s t : State} {d : Ctx} (h : TableInv s) (hfree : s.slots[i]? = some none)
    (ht : SameBlock (s.setSlot i (some d)) t) (hd : CtxInv i d)
    (hkey : d.role = .accept → ∀ j c, s.ctx? j = some c → c.role = .accept → c.peer = d.peer → c.recvId ≠ d.recvId) :
    TableInv t := by
  have hf := setSlot_table ht
  have hi : t.ctx? i = some d := by
    rw [ht.ctx?, ctx?_setSlot_self _ (List.getElem?_eq_some_iff.1 hfree).1]
  have old : ∀ {j c}, j ≠ i → t.ctx? j = some c → s.ctx? j = some c := by
    intro j c hj hc
    rw [← hf.others j hj]; exact hc
  refine ⟨by rw [hf.size]; exact h.table, by rw [hf.tring]; exact h.tring, fun j c hc => ?_, ?_⟩
  · by_cases hj : j = i
    · subst hj; rw [hi] at hc; cases hc; exact hd
    · exact h.ctx j c (old hj hc)
  · intro j k c e hc he hcr her hp hid
    by_cases hj : j = i <;> by_cases hk : k = i
    · rw [hj, hk]
    · subst hj; rw [hi] at hc; cases hc
      exact absurd hid.symm (hkey hcr k e (old hk he) her hp.symm)
    · subst hk; rw [hi] at he; cases he
      exact absurd hid (hkey her j c (old hj hc) hcr hp)
    · exact h.keys j k c e (old hj hc) (old hk he) hcr her hp hid

/-! ### Operations on one slot keep the invariant -/

theorem Evolves.move {s t : State} (h : Evolves OpFrame s t) : Evolves CtxMove s t := h.mono fun _ _ hm => hm.toCtxMove

/-- A context that is legal but for the latch is legal after the test of the latch (R127): closing, it is in the grace
period. -/
theorem CtxCore.afterLatch {i : Nat} {d e : Ctx} {u : State} (h : CtxCore i d) (hu : u.ctx? i = some d)
    (he : (endOfOp i u).ctx? i = some e) : CtxInv i e := by
  rw [endOfOp_slot hu] at he
  split at he
  · next hl =>
    obtain ⟨hncl, hw, hrd⟩ := (latched_iff d).1 hl
    split at he
    · next hr =>
      cases he
      have hfin := (h.send.wdone.1 hw).1
      obtain ⟨hend, hpw⟩ := h.send.finSent hfin
      exact h.closing hr (h.bound_of_finSent hr hfin) (by simp [hend, hpw, hrd])
    · cases he
  · next hl => cases he; exact ctxInv_iff.2 ⟨h, by simpa using hl⟩

theorem RanOn.closingInv {i : Nat} {s t : State} (h : RanOn i s t) (hs : ClosingInv s) : ClosingInv t := by
  have hev := h.evolves.move
  obtain ⟨c, d, u, hc, hop, hu, ht⟩ := h
  have hd := hop.core (ctxInv_iff.1 (hs.ctx i c hc)).1
  have hui := setSlot_slot hc hu
  have hf := ((setSlot_table hu).trans (endOfOp_frame i u).table).trans (ht.table i)
  refine ⟨hs.of_frame hf hev fun e he => hd.afterLatch hui (by rw [← ht.ctx?]; exact he), ?_⟩
  have hany := (setSlot_table hu).any_isAccepting (by rw [hui, hc]; simp [isAccepting, hop.opFrame.role])
  exact ((hs.idle.congr hu.lstate hany).endOfOp i).congr ht.lstate (by rw [ht.slots])

theorem RanOn.serves {i : Nat} {s t : State} (h : RanOn i s t) (hs : ShuttingServes s) : ShuttingServes t := by
  obtain ⟨c, d, u, hc, hop, hu, ht⟩ := h
  have hany := (setSlot_table hu).any_isAccepting
    (by rw [setSlot_slot hc hu, hc]; simp [isAccepting, hop.opFrame.role])
  exact ((hs.congr hu.lstate hany).endOfOp i).congr ht.lstate (by rw [ht.slots])

theorem ForcedOn.tableInv {i : Nat} {s t : State} (h : ForcedOn i s t) (hs : TableInv s) : TableInv t := by
  refine hs.of_frame h.table h.evolves.move fun e he => ?_
  obtain ⟨c, rd, mode, u, hc, hncl, -, hmode, hu, ht⟩ := h
  rw [ht.ctx?, forceClose_slot (c := { c with rdone := rd }) (hu.ctx? i ▸ hc) hncl] at he
  split at he
  · next hrm =>
    cases he
    obtain ⟨hb, rfl⟩ := hmode hrm.1 hrm.2
    exact (ctxInv_iff.1 (hs.ctx i c hc)).1.closing hrm.1 hb rfl
  · cases he

/-- What a forced close does to the listener is what a teardown does. -/
theorem ForcedOn.teardown {i : Nat} {s t : State} (h : ForcedOn i s t) :
    ∃ c d mode u, u.ctx? i = some d ∧ c.role = d.role ∧ SameBlock s u ∧ SameBlock (teardown i c mode u) t := by
  obtain ⟨c, rd, mode, u, hc, hncl, -, -, hu, ht⟩ := h
  obtain ⟨c', u', e, hu', hc', hr⟩ :=
    forceClose_teardown (c := { c with rdone := rd }) (d := c) (hu.ctx? i ▸ hc) rfl hncl mode
  exact ⟨c', c, mode, u', hc', hr, hu.trans hu', e ▸ ht⟩

theorem ForcedOn.closingInv {i : Nat} {s t : State} (h : ForcedOn i s t) (hs : ClosingInv s) : ClosingInv t := by
  refine ⟨h.tableInv hs.toTableInv, ?_⟩
  obtain ⟨c, d, mode, u, hd, hr, hu, ht⟩ := h.teardown
  exact ((hs.idle.congr hu.lstate (by rw [hu.slots])).teardown hd hr mode).congr ht.lstate (by rw [ht.slots])

theorem ForcedOn.serves {i : Nat} {s t : State} (h : ForcedOn i s t) (hs : ShuttingServes s) : ShuttingServes t := by
  obtain ⟨c, d, mode, u, hd, hr, hu, ht⟩ := h.teardown
  exact ((hs.congr hu.lstate (by rw [hu.slots])).teardown hd hr mode).congr ht.lstate (by rw [ht.slots])

theorem ForcedOn.idle {i : Nat} {s t : State} (h : ForcedOn i s t) (hs : s.lstate = .idle) : t.lstate = .idle := by
  obtain ⟨c, d, mode, u, hd, hr, hu, ht⟩ := h.teardown
  exact ht.lstate.trans (teardown_idle (hu.lstate.trans hs) hd hr mode)

/-- A forced close of an accepting-role context frees its slot (R129). -/
theorem ForcedOn.freed {i : Nat} {s t : State} (h : ForcedOn i s t) {c : Ctx} (hc : s.ctx? i = some c)
    (hr : c.role = .accept) : t.ctx? i = none := by
  obtain ⟨c', rd, mode, u, hc', hncl, -, -, hu, ht⟩ := h
  rw [hc] at hc'
  cases hc'
  rw [ht.ctx?, forceClose_slot (c := { c with rdone := rd }) (hu.ctx? i ▸ hc) hncl, if_neg]
  rintro ⟨h1, -⟩
  rw [show c.role = .connect from h1] at hr
  cases hr

/-- An operation that changes no listener and no accepting-role context. -/
theorem engineInv_of_frame {i : Nat} {s t : State} (hs : EngineInv s) (hf : TableFrame i s t) (he : Evolves CtxMove s t)
    (hi : ∀ d, t.ctx? i = some d → CtxInv i d) (hl : t.lstate = s.lstate)
    (ha : isAccepting (t.ctx? i) = isAccepting (s.ctx? i)) : EngineInv t := by
  obtain ⟨hc, hsh⟩ := engineInv_iff.1 hs
  have hany := hf.any_isAccepting ha
  exact engineInv_iff.2 ⟨⟨hc.of_frame hf he hi, hc.idle.congr hl hany⟩, hsh.congr hl hany⟩

theorem FreedOn.engineInv {i : Nat} {s t : State} (h : FreedOn i s t) (hs : EngineInv s) : EngineInv t := by
  have hev := h.evolves.move
  obtain ⟨c, hc, hr, ht⟩ := h
  have hi := setSlot_slot hc ht
  refine engineInv_of_frame hs (setSlot_table ht) hev (fun d hd => ?_) ht.lstate ?_
  · rw [hi] at hd; cases hd
  · rw [hi, hc]; simp [isAccepting, hr]

/-- A tick keeps a legal context legal: no input of the latch changes. -/
theorem engineInv_of_tick {i : Nat} {s t : State} {c d : Ctx} (hs : EngineInv s) (hc : s.ctx? i = some c)
    (ht : SameBlock (s.setSlot i (some d)) t) (hd : CtxInv i d) (hm : CtxMove c d) : EngineInv t := by
  have hi := setSlot_slot hc ht
  refine engineInv_of_frame hs (setSlot_table ht) (setSlot_evolves .refl hc ht hm) (fun e he => ?_) ht.lstate ?_
  · rw [hi] at he; cases he; exact hd
  · rw [hi, hc]; simp [isAccepting, hm.role]

theorem SendFrame.alive {c d : Ctx} (h : SendFrame c d) (b : Bool) : SendFrame c { d with alive := b } :=
  ⟨h.role, h.state, h.sock, h.peer, h.bound, h.recvId, h.sendId, h.ack, h.inRing, h.synack, h.endReq, h.rdone, h.grace,
    h.retxCount, h.finSent, h.wdone⟩

/-- The retransmit tick changes no input of the latch, and moves nothing (R120, R181). -/
theorem retxLoop_move {now : U32} {refresh : Bool} {k : Nat} {q : U16} {r t : Run}
    (h : retxLoop now refresh k q r = some t) : t.ctx.latched = r.ctx.latched ∧ CtxMove r.ctx t.ctx := by
  rw [retxLoop_frame h]
  exact ⟨rfl, by constructor <;> simp [stateMove_refl]⟩

/-! ### The loops over the table (R196, R200) -/

theorem evolves_of_slots {s t : State} (h : t.slots = s.slots) : Evolves OpFrame s t :=
  fun j d hd => ⟨d, by rw [State.ctx?, ← h]; exact hd, .refl d⟩

/-- The slots and a ring in canonical form are all there is to a legal table. -/
theorem TableInv.congr {s t : State} (h : TableInv s) (hs : t.slots = s.slots) (ht : Ring.wf t.tring) : TableInv t :=
  h.of_evolves (evolves_of_slots hs).move (by rw [State.maxConn, hs, State.maxConn]) ht
    fun j d hd => h.ctx j d (by rw [State.ctx?, ← hs]; exact hd)

theorem SameBlock.setSlot {s s' : State} (h : SameBlock s s') (i : Nat) (o : Option Ctx) :
    SameBlock (s.setSlot i o) (s'.setSlot i o) :=
  ⟨by rw [setSlot_slots, h.slots, setSlot_slots], h.lstate, h.tring⟩

theorem SameBlock.runOn {s s' : State} (h : SameBlock s s') (i : Nat) (c : Ctx) (f : Run → Run) :
    SameBlock (s.setSlot i (some (f ⟨c, []⟩).ctx)) (s'.runOn i c f) :=
  (h.setSlot i _).trans ⟨rfl, rfl, rfl⟩

/-- An operation on the context of a slot, put together by `State.runOn`, and the test of its latch. -/
theorem ranOn_of_runOn {i : Nat} {s s' t : State} {c : Ctx} {f : Run → Run} (hs : SameBlock s s') (hc : s.ctx? i = some c)
    (hop : CtxOp i c (f ⟨c, []⟩).ctx) (ht : SameBlock (endOfOp i (s'.runOn i c f)) t) : RanOn i s t :=
  ⟨c, _, _, hc, hop, hs.runOn i c f, ht⟩

/-- The test of the latch alone. -/
theorem ranOn_of_endOfOp {i : Nat} {s s' t : State} {c : Ctx} (hs : SameBlock s s') (hc : s.ctx? i = some c)
    (ht : SameBlock (endOfOp i s') t) : RanOn i s t :=
  ⟨c, c, s', hc, .kept, (setSlot_ctx? hc).trans hs, ht⟩

/-- Everything a round of LCLOSE does (R196). -/
theorem lcloseSlot_cases (now : U32) (i : Nat) (s : State) :
    lcloseSlot now i s = s ∨ RanOn i s (lcloseSlot now i s) := by
  unfold lcloseSlot
  split
  · next c hc =>
    split
    · right
      split
      · next hopen => exact ranOn_of_runOn (.refl s) hc (.ended now hopen.1) (.refl _)
      · exact ranOn_of_endOfOp (.refl s) hc (.refl _)
    · exact .inl rfl
  · exact .inl rfl

/-- The loop of LCLOSE over the slots `l` (R196). -/
def lcloseLoop (now : U32) (l : List Nat) (s : State) : State := l.foldl (fun t i => lcloseSlot now i t) s

theorem lcloseLoop_evolves (now : U32) (l : List Nat) (s : State) : Evolves OpFrame s (lcloseLoop now l s) := by
  induction l generalizing s with
  | nil => exact evolves_of_slots rfl
  | cons i l ih =>
    rcases lcloseSlot_cases now i s with e | h
    · rw [lcloseLoop, List.foldl_cons, e]; exact ih s
    · exact h.evolves.trans (ih _)

theorem ClosingInv.lcloseLoop {s : State} (h : ClosingInv s) (now : U32) (l : List Nat) :
    ClosingInv (lcloseLoop now l s) := by
  induction l generalizing s with
  | nil => exact h
  | cons i l ih =>
    rcases lcloseSlot_cases now i s with e | hran
    · rw [Machine.lcloseLoop, List.foldl_cons, e]; exact ih h
    · exact ih (hran.closingInv h)

/-- Everything a round of a listener's socket error does (R200): a closed context stays. -/
theorem failSlot_cases (i : Nat) (s : State) :
    (SameBlock s (failSlot i s) ∧ ∀ c, s.ctx? i = some c → c.role = .accept → c.state = .closed) ∨
      ForcedOn i s (failSlot i s) := by
  unfold failSlot
  split
  · next c hc =>
    split
    · next hr =>
      by_cases hs : c.state = .closed
      · refine .inl ⟨?_, fun d hd _ => ?_⟩
        · rw [forceClose_closed hs]; exact ⟨rfl, rfl, rfl⟩
        · rw [hc] at hd; cases hd; exact hs
      · refine .inr ⟨c, c.rdone, .normal, s.emits _, hc, hs, id, fun hcon _ => ?_, ⟨rfl, rfl, rfl⟩, .refl _⟩
        rw [hr] at hcon; cases hcon
    · next hr => exact .inl ⟨.refl s, fun d hd ha => by rw [hc] at hd; cases hd; exact absurd ha hr⟩
  · next hc => exact .inl ⟨.refl s, fun d hd => by rw [hc] at hd; cases hd⟩

/-- The loop of a listener's socket error over the slots `l` (R200). -/
def failLoop (l : List Nat) (s : State) : State := l.foldl (fun t i => failSlot i t) s

theorem failSlot_evolves (i : Nat) (s : State) : Evolves OpFrame s (failSlot i s) := by
  rcases failSlot_cases i s with ⟨h, -⟩ | h
  · exact h.evolves
  · exact h.evolves

theorem failLoop_evolves (l : List Nat) (s : State) : Evolves OpFrame s (failLoop l s) := by
  induction l generalizing s with
  | nil => exact evolves_of_slots rfl
  | cons i l ih => exact (failSlot_evolves i s).trans (ih _)

/-- A round frees the slot of an accepting-role context, which is never closed in a legal table (R129, R200). -/
theorem TableInv.failSlot {s : State} (h : TableInv s) (i : Nat) :
    TableInv (failSlot i s) ∧ isAccepting ((failSlot i s).ctx? i) = false := by
  rcases failSlot_cases i s with ⟨hsame, hclosed⟩ | hforced
  · refine ⟨h.congr hsame.slots (by rw [hsame.tring]; exact h.tring), ?_⟩
    rw [hsame.ctx?]
    cases hc : s.ctx? i with
    | none => rfl
    | some c =>
      rw [isAccepting, decide_eq_false_iff_not]
      intro hr
      have hconn := ((ctxInv_iff.1 (h.ctx i c hc)).1.base.accepting_open hr).2
      rw [hclosed c hc hr] at hconn
      cases hconn
  · refine ⟨hforced.tableInv h, ?_⟩
    rw [← Bool.not_eq_true]
    intro ha
    have ha' := hforced.evolves.move.isAccepting i ha
    cases hc : s.ctx? i with
    | none => simp [hc, isAccepting] at ha'
    | some c =>
      rw [hforced.freed hc (by simpa [hc, isAccepting] using ha')] at ha
      cases ha

theorem failSlot_idle {s : State} (h : s.lstate = .idle) (i : Nat) : (failSlot i s).lstate = .idle := by
  rcases failSlot_cases i s with ⟨hsame, -⟩ | hforced
  · exact hsame.lstate.trans h
  · exact hforced.idle h

theorem failLoop_idle {s : State} (h : s.lstate = .idle) (l : List Nat) : (failLoop l s).lstate = .idle := by
  induction l generalizing s with
  | nil => exact h
  | cons i l ih => exact ih (failSlot_idle h i)

theorem TableInv.failLoop {s : State} (h : TableInv s) (l : List Nat) :
    TableInv (failLoop l s) ∧ ∀ j ∈ l, isAccepting ((failLoop l s).ctx? j) = false := by
  induction l generalizing s with
  | nil => exact ⟨h, by simp⟩
  | cons i l ih =>
    obtain ⟨hi, hni⟩ := h.failSlot i
    obtain ⟨hl, hnl⟩ := ih hi
    refine ⟨hl, fun j hj => ?_⟩
    rcases List.mem_cons.1 hj with rfl | hj
    · rw [← Bool.not_eq_true] at hni ⊢
      exact fun ha => hni ((failLoop_evolves l _).move.isAccepting j ha)
    · exact hnl j hj

/-- A listener's socket error leaves an idle listener and no accepting-role context (R200). -/
theorem TableInv.failAll {s : State} (h : TableInv s) (hl : s.lstate = .idle) :
    EngineInv (Machine.failLoop (List.range s.maxConn) s) := by
  obtain ⟨ht, hnone⟩ := h.failLoop (List.range s.maxConn)
  have hidle := failLoop_idle hl (List.range s.maxConn)
  have hany : (Machine.failLoop (List.range s.maxConn) s).slots.any isAccepting = false := by
    rw [← Bool.not_eq_true, any_isAccepting]
    rintro ⟨j, d, hd, hr⟩
    obtain ⟨c, hc, -⟩ := failLoop_evolves _ _ j d hd
    have hj := hnone j (List.mem_range.2 (ctx?_lt hc))
    simp [hd, isAccepting, hr] at hj
  exact engineInv_iff.2 ⟨⟨ht, fun _ => hany⟩, fun hsh => by rw [hidle] at hsh; cases hsh⟩

/-! ### Everything an instruction does to the block -/

/-- What an instruction can leave of the block: nothing but outputs; a new test ring; a listener that starts, closes or
fails; a new context; an operation on one context with the test of the latch; a forced close; a slot freed; a tick. -/
inductive Effect (op : Instr) (s t : State) : Prop
  | outputs : SameBlock s t → Effect op s t
  | testRing : t.slots = s.slots → t.lstate = s.lstate → (Ring.wf s.tring → Ring.wf t.tring) → Effect op s t
  | listen : SameBlock { s with lstate := .listening } t → Effect op s t
  | lclose (now : U32) (u : State) : SameBlock { s with lstate := .shutting } u →
      SameBlock (listenerCloseCheck (lcloseLoop now (List.range s.maxConn) u)) t → Effect op s t
  | listenerFailed (u : State) : SameBlock { s with lstate := .idle } u →
      SameBlock (failLoop (List.range s.maxConn) u) t → Effect op s t
  | connected (i : Nat) (addr : Addr) (isn : U16) : s.freeSlot? = some i →
      SameBlock (s.setSlot i (some (newConnectCtx i addr isn))) t → Effect op s t
  | accepted (i : Nat) (now : U32) (addr : Addr) (p : Packet) (isn : U16) : p.type = tySyn → s.lstate = .listening →
      s.lookup addr (effectiveId p) = none → s.freeSlot? = some i →
      SameBlock (s.setSlot i (some { newAcceptCtx addr p isn with
        synack := some (makeSynAck now (newAcceptCtx addr p isn)), alive := true })) t → Effect op s t
  | ran (i : Nat) : RanOn i s t → Effect op s t
  | forced (i : Nat) : ForcedOn i s t → Effect op s t
  | freed (i : Nat) : FreedOn i s t → Effect op s t
  | probed (i : Nat) (c d : Ctx) (b : Bool) : s.ctx? i = some c → d = { c with alive := b } →
      SameBlock (s.setSlot i (some d)) t → Effect op s t
  | resent (now : U32) (i : Nat) (c : Ctx) (refresh : Bool) (k : Nat) (q : U16) (r : Run) : op = .tickRetx now i →
      s.ctx? i = some c → retxLoop now refresh k q ⟨c, []⟩ = some r → SameBlock (s.setSlot i (some r.ctx)) t →
      Effect op s t

/-- An answer is the block it is given. -/
theorem sameBlock_of_answer {s t : State} {st : Status} {v : Value} (h : s.answer st v = .next t) : SameBlock s t := by
  cases h; exact ⟨rfl, rfl, rfl⟩

theorem sameBlock_start (s : State) : SameBlock s s.start := ⟨rfl, rfl, rfl⟩

theorem sameBlock_emits (s : State) (es : List Event) : SameBlock s (s.emits es) := ⟨rfl, rfl, rfl⟩

/-- An answer after the start of an operation: BADCONN, a refusal, a result, a discard. -/
theorem effect_of_answer {op : Instr} {s t : State} {st : Status} {v : Value} (h : s.start.answer st v = .next t) :
    Effect op s t := .outputs ((sameBlock_start s).trans (sameBlock_of_answer h))

theorem effect_of_surface {op : Instr} {s t : State} {sock : Sock} {addr : Addr} {raw : Bytes}
    (h : s.start.surface sock addr raw = .next t) : Effect op s t :=
  .outputs (((sameBlock_start s).trans (sameBlock_emits s.start _)).trans (sameBlock_of_answer h))

theorem effect_of_runOn {op : Instr} {i : Nat} {s t : State} {c : Ctx} {f : Run → Run} (hc : s.ctx? i = some c)
    (hop : CtxOp i c (f ⟨c, []⟩).ctx) (h : (endOfOp i (s.start.runOn i c f)).done = .next t) : Effect op s t :=
  .ran i (ranOn_of_runOn (sameBlock_start s) hc hop (sameBlock_of_answer h))

/-! ### The commands -/

theorem execRingPut_effect {op : Instr} {now : U32} {q : U16} {v : Item} {s t : State}
    (h : execRingPut now q v s = .next t) : Effect op s t := by
  cases h; exact .testRing rfl rfl fun hw => ringPut_wf hw q v

theorem execRingDel_effect {op : Instr} {now : U32} {q : U16} {s t : State} (h : execRingDel now q s = .next t) :
    Effect op s t := by
  cases h; exact .testRing rfl rfl fun hw => ringDel_wf hw q

theorem execDecode_effect {op : Instr} {now : U32} {b : Bytes} {s t : State} (h : execDecode now b s = .next t) :
    Effect op s t := by
  unfold execDecode at h
  split at h <;> exact effect_of_answer h

theorem execListen_effect {op : Instr} {now : U32} {s t : State} (h : execListen now s = .next t) : Effect op s t := by
  unfold execListen at h
  split at h
  · cases h; exact .listen ⟨rfl, rfl, rfl⟩
  · exact effect_of_answer h

theorem execLclose_effect {op : Instr} {now : U32} {s t : State} (h : execLclose now s = .next t) : Effect op s t := by
  unfold execLclose at h
  split at h
  · exact .lclose now { s.start with lstate := .shutting } ⟨rfl, rfl, rfl⟩ (sameBlock_of_answer h)
  · exact effect_of_answer h

theorem execConnect_effect {op : Instr} {now : U32} {addr : Addr} {isn : U16} {s t : State}
    (h : execConnect now addr isn s = .next t) : Effect op s t := by
  unfold execConnect at h
  split at h
  · exact effect_of_answer h
  · next i hi => cases h; exact .connected i addr isn hi ⟨rfl, rfl, rfl⟩

theorem execBound_effect {op : Instr} {now : U32} {c : Nat} {port : U16} {s t : State}
    (h : execBound now c port s = .next t) : Effect op s t := by
  unfold execBound at h
  split at h
  · exact effect_of_answer h
  · next x hx =>
    obtain ⟨hc, hr⟩ := connectCtx?_eq_some.1 hx
    split at h
    · exact effect_of_answer h
    · next hun =>
      rw [not_or, Bool.not_eq_true] at hun
      exact effect_of_runOn hc (.bound now port hr hun.1) h

theorem execEndWrite_effect {op : Instr} {now : U32} {c : Nat} {s t : State} (h : execEndWrite now c s = .next t) :
    Effect op s t := by
  unfold execEndWrite at h
  split at h
  · exact effect_of_answer h
  · next x hc =>
    split at h
    · exact effect_of_answer h
    · next hopen => exact effect_of_runOn hc (.ended now fun hs => hopen (.inl hs)) h

theorem execReadEnd_effect {op : Instr} {now : U32} {c : Nat} {s t : State} (h : execReadEnd now c s = .next t) :
    Effect op s t := by
  unfold execReadEnd at h
  split at h
  · exact effect_of_answer h
  · next x hc =>
    split at h
    · exact effect_of_answer h
    · next hopen => exact .ran c ⟨x, _, _, hc, .readEnded hopen, (sameBlock_start s).setSlot c _, sameBlock_of_answer h⟩

theorem execWrite_effect {op : Instr} {now : U32} {c : Nat} {b : Bytes} {s t : State} (h : execWrite now c b s = .next t) :
    Effect op s t := by
  unfold execWrite at h
  split at h
  · exact effect_of_answer h
  · next x hc =>
    split at h
    · exact effect_of_answer h
    · exact effect_of_runOn hc (.written now b) h

theorem execGraceExpired_effect {op : Instr} {now : U32} {c : Nat} {s t : State}
    (h : execGraceExpired now c s = .next t) : Effect op s t := by
  unfold execGraceExpired at h
  split at h
  · exact effect_of_answer h
  · next x hx =>
    obtain ⟨hc, hr⟩ := connectCtx?_eq_some.1 hx
    split at h
    · exact effect_of_answer h
    · cases h; exact .freed c ⟨x, hc, hr, ⟨rfl, rfl, rfl⟩⟩

theorem execSockErr_effect {op : Instr} {now : U32} {sock : Sock} {s t : State} (h : execSockErr now sock s = .next t) :
    Effect op s t := by
  cases sock with
  | lsock =>
    simp only [execSockErr] at h
    split at h
    · exact effect_of_answer h
    · cases h
      exact .listenerFailed { s.start.emits [.evError .listener .errSocket] with lstate := .idle } ⟨rfl, rfl, rfl⟩
        ⟨rfl, rfl, rfl⟩
  | psock i =>
    simp only [execSockErr] at h
    split at h
    · exact effect_of_answer h
    · next c hx =>
      obtain ⟨hc, hr⟩ := connectCtx?_eq_some.1 hx
      split at h
      · next hs =>
        exact .forced i ⟨c, c.rdone, .noGrace, _, hc, hs, id, fun _ hm => (by cases hm),
          (sameBlock_start s).trans (sameBlock_emits _ _), sameBlock_of_answer h⟩
      · split at h
        · cases h; exact .freed i ⟨c, hc, hr, ⟨rfl, rfl, rfl⟩⟩
        · exact effect_of_answer h

theorem execCtxRead_effect {op : Instr} {now : U32} {c : Nat} {r : Byte} {s t : State}
    (h : execCtxRead now c r s = .next t) : Effect op s t := by
  unfold execCtxRead at h
  split at h
  · exact effect_of_answer h
  · split at h <;> exact effect_of_answer h

theorem execGlbRead_effect {op : Instr} {now : U32} {r : Byte} {s t : State} (h : execGlbRead now r s = .next t) :
    Effect op s t := by
  unfold execGlbRead at h
  split at h <;> exact effect_of_answer h

theorem execRingPeek_effect {op : Instr} {now : U32} {c : Nat} {which : Byte} {q : U16} {s t : State}
    (h : execRingPeek now c which q s = .next t) : Effect op s t := by
  unfold execRingPeek at h
  split at h
  · exact effect_of_answer h
  · split at h <;> exact effect_of_answer h

theorem execTickRetx_effect {now : U32} {c : Nat} {s t : State} (h : execTickRetx now c s = .next t) :
    Effect (.tickRetx now c) s t := by
  unfold execTickRetx at h
  split at h
  · exact effect_of_answer h
  · next x hc =>
    split at h
    · exact effect_of_answer h
    · split at h
      · cases h
      · split at h
        · split at h
          · cases h
          · next r hr => exact .resent now c x _ _ _ r rfl hc hr (((sameBlock_start s).runOn c x _).trans (sameBlock_of_answer h))
        · exact effect_of_answer h

theorem keepAlive_ctx (now : U32) (r : Run) :
    (keepAlive now r).ctx = { r.ctx with alive := (keepAlive now r).ctx.alive } := by
  rw [keepAlive_eq]
  split <;> rfl

theorem execTickKa_effect {op : Instr} {now : U32} {c : Nat} {s t : State} (h : execTickKa now c s = .next t) :
    Effect op s t := by
  unfold execTickKa at h
  split at h
  · exact effect_of_answer h
  · next x hc =>
    split at h
    · exact .probed c x _ _ hc (keepAlive_ctx now ⟨x, []⟩)
        (((sameBlock_start s).runOn c x _).trans (sameBlock_of_answer h))
    · exact effect_of_answer h

/-! ### The receive paths -/

/-- The types the router hands on, but for SYN and RESET (R82, R192). -/
theorem type_of_toNat_le {ty : BitVec 4} (h : ty.toNat ≤ 4) (h1 : ty ≠ tySyn) (h2 : ty ≠ tyReset) :
    ty = tyData ∨ ty = tyFin ∨ ty = tyState := by
  revert h h1 h2; revert ty; decide

/-- A forced close ends its operation: there is nothing left to latch. -/
theorem endOfOp_forceClose {i : Nat} {s : State} {c d : Ctx} (h : s.ctx? i = some d) (hs : c.state ≠ .closed)
    (mode : CloseMode) : endOfOp i (forceClose i c mode s) = forceClose i c mode s := by
  have hslot := forceClose_slot h hs mode
  split at hslot
  · exact endOfOp_unlatched hslot (by simp [Ctx.latched])
  · rw [endOfOp, hslot]

/-- A dispatch to a context that is bound or accepting is an operation on it, or a RESET that closes it (R140). -/
theorem afterReceive_effect {op : Instr} {now : U32} {i : Nat} {c : Ctx} {sock : Sock} {addr : Addr} {raw : Bytes}
    {p : Packet} {s t : State} (hc : s.ctx? i = some c) (hb : c.bound = true ∨ c.role = .accept) (hp : p.type.toNat ≤ 4)
    (h : afterReceive i sock addr raw (recvIncoming now i c p s.start) = .next t) : Effect op s t := by
  have kept : ∀ {u}, afterReceive i sock addr raw (.ok ⟨s.start, false⟩) = .next u → Effect op s u := fun hu =>
    .ran i (ranOn_of_endOfOp ((sameBlock_start s).trans (sameBlock_emits _ _)) hc (sameBlock_of_answer hu))
  by_cases hs : c.state = .closed
  · rw [recvIncoming_closed hs] at h; exact kept h
  · by_cases hsyn : p.type = tySyn
    · cases hr : c.role with
      | connect => rw [recvIncoming_syn_connect hsyn hr] at h; exact kept h
      | accept =>
        cases hsa : c.synack with
        | none => simp [recvIncoming, hs, hsyn, hr, hsa, afterReceive] at h
        | some sa =>
          rw [recvIncoming_syn hs hsyn hr hsa] at h
          exact effect_of_runOn hc (.resent sa) h
    · by_cases hres : p.type = tyReset
      · rw [recvIncoming_reset hs hres, afterReceive_ok] at h
        have hsame : SameBlock s (if c.rdone then s.start else s.start.emits [.rxEof i]) := by
          split <;> exact ⟨rfl, rfl, rfl⟩
        rw [if_pos rfl, endOfOp_forceClose (c := { c with rdone := true }) ((hsame.ctx? i).trans hc) hs] at h
        refine .forced i ⟨c, true, .normal, _, hc, hs, fun _ => rfl, fun hr _ => ⟨hb.elim id fun ha => ?_, rfl⟩, hsame,
          sameBlock_of_answer h⟩
        rw [hr] at ha; cases ha
      · rw [recvIncoming_open hs hsyn hres] at h
        exact effect_of_runOn hc (.received now _ p hs hb (type_of_toNat_le hp hsyn hres)) h

/-- The listener's path (R192 to R195). -/
theorem routeListener_effect {op : Instr} {now : U32} {addr : Addr} {raw : Bytes} {isn : U16} {p : Packet} {s t : State}
    (hp : p.type.toNat ≤ 4) (h : routeListener now addr raw isn p s = .next t) : Effect op s t := by
  unfold routeListener at h
  split at h
  · next i hl =>
    obtain ⟨c, hc, hr, -, -⟩ := lookup_eq_some hl
    rw [hc] at h
    exact afterReceive_effect hc (.inr hr) hp h
  · next hl =>
    split at h
    · exact effect_of_surface h
    · next hsyn =>
      split at h
      · exact effect_of_surface h
      · next hls =>
        split at h
        · exact effect_of_surface h
        · next j hj =>
          rw [acceptCreate_eq] at h
          exact .accepted j now addr p isn (not_not.1 hsyn) (not_not.1 hls) hl hj
            ((((sameBlock_start s).setSlot j _).trans (sameBlock_emits _ _)).trans (sameBlock_of_answer h))

/-- The path of a context's own socket (R198). -/
theorem routePrivate_effect {op : Instr} {now : U32} {c : Nat} {x : Ctx} {addr : Addr} {raw : Bytes} {p : Packet}
    {s t : State} (hc : s.ctx? c = some x) (hb : x.bound = true) (hp : p.type.toNat ≤ 4)
    (h : routePrivate now c x addr raw p s = .next t) : Effect op s t := by
  unfold routePrivate at h
  split at h
  · exact effect_of_answer h
  · split at h
    · exact effect_of_surface h
    · exact afterReceive_effect hc (.inl hb) hp h

theorem receiveWire_effect {op : Instr} {now : U32} {rx : Rx} {raw : Bytes} {p : Packet} {s t : State}
    (hp : p.type.toNat ≤ 4) (h : receiveWire now rx raw p s = .next t) : Effect op s t := by
  cases rx with
  | lsock addr isn => exact routeListener_effect hp h
  | psock c addr =>
    simp only [receiveWire] at h
    split at h
    · exact effect_of_answer h
    · next x hx =>
      split at h
      · exact effect_of_answer h
      · next hb => exact routePrivate_effect (connectCtx?_eq_some.1 hx).1 (by simpa using hb) hp h

theorem execDgramL_effect {op : Instr} {now : U32} {addr : Addr} {b : Bytes} {isn : U16} {s t : State}
    (h : execDgramL now addr b isn s = .next t) : Effect op s t := by
  unfold execDgramL at h
  split at h
  · exact effect_of_answer h
  · split at h
    · exact effect_of_surface h
    · next hp => exact routeListener_effect (Nat.le_of_not_lt hp) h

theorem execDgramP_effect {op : Instr} {now : U32} {c : Nat} {addr : Addr} {b : Bytes} {s t : State}
    (h : execDgramP now c addr b s = .next t) : Effect op s t := by
  unfold execDgramP at h
  split at h
  · exact effect_of_answer h
  · next x hx =>
    split at h
    · exact effect_of_answer h
    · next hb =>
      split at h
      · exact effect_of_answer h
      · split at h
        · exact effect_of_surface h
        · next hp =>
          exact routePrivate_effect (connectCtx?_eq_some.1 hx).1 (by simpa using hb) (Nat.le_of_not_lt hp) h

/-- Everything an instruction does to the block. -/
theorem exec_effect {op : Instr} {s t : State} (h : exec op s = .next t) : Effect op s t := by
  cases op with
  | data now rx hd pl => exact receiveWire_effect (p := packetOf tyData hd pl) (show tyData.toNat ≤ 4 by decide) h
  | fin now rx hd pl => exact receiveWire_effect (p := packetOf tyFin hd pl) (show tyFin.toNat ≤ 4 by decide) h
  | state now rx hd pl => exact receiveWire_effect (p := packetOf tyState hd pl) (show tyState.toNat ≤ 4 by decide) h
  | reset now rx hd pl => exact receiveWire_effect (p := packetOf tyReset hd pl) (show tyReset.toNat ≤ 4 by decide) h
  | syn now rx hd pl => exact receiveWire_effect (p := packetOf tySyn hd pl) (show tySyn.toNat ≤ 4 by decide) h
  | encode now p => exact effect_of_answer h
  | decode now b => exact execDecode_effect (now := now) h
  | ringPut now q v => exact execRingPut_effect (now := now) h
  | ringGet now q => exact effect_of_answer h
  | ringDel now q => exact execRingDel_effect (now := now) h
  | listen now => exact execListen_effect (now := now) h
  | lclose now => exact execLclose_effect h
  | dgramL now addr b isn => exact execDgramL_effect h
  | connect now addr isn => exact execConnect_effect (now := now) h
  | bound now c port => exact execBound_effect h
  | dgramP now c addr b => exact execDgramP_effect h
  | graceExpired now c => exact execGraceExpired_effect (now := now) h
  | write now c b => exact execWrite_effect h
  | endWrite now c => exact execEndWrite_effect h
  | readEnd now c => exact execReadEnd_effect (now := now) h
  | tickRetx now c => exact execTickRetx_effect h
  | tickKa now c => exact execTickKa_effect h
  | sockErr now sock => exact execSockErr_effect (now := now) h
  | ctxRead now c r => exact execCtxRead_effect (now := now) h
  | glbRead now r => exact execGlbRead_effect (now := now) h
  | ringPeek now c which q => exact execRingPeek_effect (now := now) h

/-! ### What holds of every effect -/

/-- A slot that is FREE holds no context. -/
theorem ctx?_of_freeSlot? {s : State} {i : Nat} (h : s.freeSlot? = some i) : s.ctx? i = none := by
  rw [State.ctx?, (freeSlot?_eq_some h).1]; rfl

/-- Creation touches no context that was there. -/
theorem opFrame_of_create {s t : State} {i j : Nat} {n c d : Ctx} (hi : s.freeSlot? = some i)
    (ht : SameBlock (s.setSlot i (some n)) t) (hc : s.ctx? j = some c) (hd : t.ctx? j = some d) : OpFrame c d := by
  have hj : j ≠ i := by
    rintro rfl
    rw [ctx?_of_freeSlot? hi] at hc
    cases hc
  rw [(setSlot_table ht).others j hj, hc] at hd
  cases hd
  exact .refl c

/-- But for the retransmit tick, every effect on a context that keeps its slot is a listed move and leaves the
retransmission counter (R42, R120). -/
theorem Effect.opFrame {op : Instr} {s t : State} (h : Effect op s t) (hop : ∀ now k, op ≠ .tickRetx now k) {j : Nat}
    {c d : Ctx} (hc : s.ctx? j = some c) (hd : t.ctx? j = some d) : OpFrame c d := by
  have of_evolves (hev : Evolves OpFrame s t) : OpFrame c d := by
    obtain ⟨c', hc', hm⟩ := hev j d hd
    rw [hc] at hc'
    cases hc'
    exact hm
  cases h with
  | outputs ht => exact of_evolves ht.evolves
  | testRing hs _ _ => exact of_evolves (evolves_of_slots hs)
  | listen ht => exact of_evolves (evolves_of_slots ht.slots)
  | lclose now u hu ht =>
    have hloop := (evolves_of_slots hu.slots).trans (lcloseLoop_evolves now (List.range s.maxConn) u)
    exact of_evolves (hloop.trans (evolves_of_slots (ht.slots.trans (listenerCloseCheck_slots _))))
  | listenerFailed u hu ht =>
    exact of_evolves (((evolves_of_slots hu.slots).trans (failLoop_evolves _ u)).trans ht.evolves)
  | connected i addr isn hi ht => exact opFrame_of_create hi ht hc hd
  | accepted i now addr p isn _ _ _ hi ht => exact opFrame_of_create hi ht hc hd
  | ran i hr => exact of_evolves hr.evolves
  | forced i hf => exact of_evolves hf.evolves
  | freed i hf => exact of_evolves hf.evolves
  | probed i x _ b hx hb ht =>
    subst hb
    exact of_evolves (setSlot_evolves .refl hx ht ((SendFrame.refl x).alive b).opFrame)
  | resent now i x refresh k q r he _ _ _ => exact absurd he (hop now i)

/-- Every effect on a legal state leaves a legal state. -/
theorem Effect.engineInv {op : Instr} {s t : State} (h : Effect op s t) (hs : EngineInv s) : EngineInv t := by
  obtain ⟨hclosing, hserves⟩ := engineInv_iff.1 hs
  have htable := hclosing.toTableInv
  cases h with
  | outputs ht => exact ht.engineInv hs
  | testRing hsl hl hw =>
    exact engineInv_iff.2 ⟨⟨htable.congr hsl (hw htable.tring), hclosing.idle.congr hl (by rw [hsl])⟩,
      hserves.congr hl (by rw [hsl])⟩
  | listen ht =>
    refine ht.engineInv (engineInv_iff.2 ⟨⟨htable.congr rfl htable.tring, ?_⟩, ?_⟩) <;> rintro ⟨⟩
  | lclose now u hu ht =>
    have hu' : ClosingInv u := by
      refine ⟨htable.congr hu.slots (by rw [hu.tring]; exact htable.tring), fun hid => ?_⟩
      rw [hu.lstate] at hid; cases hid
    have hloop := hu'.lcloseLoop now (List.range s.maxConn)
    have hframe := (listenerCloseCheck_frame 0 (lcloseLoop now (List.range s.maxConn) u)).tring
    refine ht.engineInv (engineInv_iff.2 ⟨⟨?_, hloop.idle.listenerCloseCheck⟩, listenerCloseCheck_serves _⟩)
    exact hloop.toTableInv.congr (listenerCloseCheck_slots _) (by rw [hframe]; exact hloop.tring)
  | listenerFailed u hu ht =>
    have hu' : TableInv u := htable.congr hu.slots (by rw [hu.tring]; exact htable.tring)
    have hsize : u.maxConn = s.maxConn := by rw [State.maxConn, hu.slots, State.maxConn]
    exact ht.engineInv (hsize ▸ hu'.failAll hu.lstate)
  | connected i addr isn hi ht =>
    have hrole : isAccepting (t.ctx? i) = isAccepting (s.ctx? i) := by
      rw [ctx?_of_freeSlot? hi, ht.ctx?, ctx?_setSlot]; split
      · rfl
      · rw [ctx?_of_freeSlot? hi]
    have hany := (setSlot_table ht).any_isAccepting hrole
    refine engineInv_iff.2 ⟨⟨htable.create (freeSlot?_eq_some hi).1 ht (newConnectCtx_inv i addr isn) ?_,
      hclosing.idle.congr ht.lstate hany⟩, hserves.congr ht.lstate hany⟩
    rintro ⟨⟩
  | accepted i now addr p isn hp hl hlook hi ht =>
    refine engineInv_iff.2 ⟨⟨htable.create (freeSlot?_eq_some hi).1 ht (newAcceptCtx_inv i now addr p isn) ?_, ?_⟩, ?_⟩
    · rintro - j c hc hr hpeer
      have hkey := lookup_eq_none hlook hc hr hpeer
      rw [effectiveId, if_pos hp] at hkey
      exact hkey
    · intro hid; rw [ht.lstate, setSlot_lstate, hl] at hid; cases hid
    · intro hsh; rw [ht.lstate, setSlot_lstate, hl] at hsh; cases hsh
  | ran i hr => exact engineInv_iff.2 ⟨hr.closingInv hclosing, hr.serves hserves⟩
  | forced i hf => exact engineInv_iff.2 ⟨hf.closingInv hclosing, hf.serves hserves⟩
  | freed i hf => exact hf.engineInv hs
  | probed i c _ b hc hb ht =>
    subst hb
    obtain ⟨hcore, hlatch⟩ := ctxInv_iff.1 (htable.ctx i c hc)
    exact engineInv_of_tick hs hc ht (ctxInv_iff.2 ⟨hcore.alive b, hlatch⟩) ((SendFrame.refl c).alive b).opFrame.toCtxMove
  | resent now i c refresh k q r _ hc hr ht =>
    obtain ⟨hcore, hlatch⟩ := ctxInv_iff.1 (htable.ctx i c hc)
    obtain ⟨hlatch', hmove⟩ := retxLoop_move hr
    exact engineInv_of_tick hs hc ht (ctxInv_iff.2 ⟨CtxCore.retx (r := ⟨c, []⟩) hcore hr, hlatch'.trans hlatch⟩) hmove

/-! ### The obligations -/

/-- A frame that holds no instruction is refused, or runs as a DGRAM command (R88, R192, R198). -/
theorem rejectFrame_cases {f : Frame} {s t : State} (h : rejectFrame f s = .next t) :
    SameBlock s t ∨ ∃ op, exec op s = .next t := by
  match f with
  | .command _ _ _ => exact .inl ((sameBlock_start s).trans (sameBlock_of_answer h))
  | .datagram now (.lsock addr isn) b => exact .inr ⟨.dgramL now addr b isn, h⟩
  | .datagram now (.psock c addr) b => exact .inr ⟨.dgramP now c addr b, h⟩

/-- Every step holds the block, or runs an instruction on it (R69, R239). -/
theorem step_cases {s t : State} (h : step s = .next t) :
    SameBlock s t ∨ ∃ op s', SameBlock s s' ∧ exec op s' = .next t := by
  unfold step at h
  split at h
  · cases h; exact .inl (.refl s)
  · next f rest _ =>
    have htaken : SameBlock s { s with port := rest } := ⟨rfl, rfl, rfl⟩
    split at h
    · next op _ => exact .inr ⟨op, _, htaken, h⟩
    · rcases rejectFrame_cases h with hsame | ⟨op, hop⟩
      · exact .inl (htaken.trans hsame)
      · exact .inr ⟨op, _, htaken, hop⟩

/-- Settles O54: what an instruction does to the block is an effect, and every effect keeps the invariant. -/
theorem everyStepKeepsStatesLegal : Obligations.EveryStepKeepsStatesLegal := by
  unfold Obligations.EveryStepKeepsStatesLegal
  intro s t hs h
  rcases step_cases h with hsame | ⟨op, s', hsame, hop⟩
  · exact hsame.engineInv hs
  · exact (exec_effect hop).engineInv (hsame.engineInv hs)

/-- Settles O47: the frame of every effect but the retransmit tick's holds the counter. -/
theorem onlyTheRetransmitTickCounts : Obligations.OnlyTheRetransmitTickCounts := by
  unfold Obligations.OnlyTheRetransmitTickCounts
  intro op s t j c d hop h hc hd
  exact ((exec_effect h).opFrame hop hc hd).retxCount

/-- Every slot is FREE after reset (R43). -/
theorem resetWith_ctx? (n : Nat) (dup refresh : Bool) (i : Nat) : (State.resetWith n dup refresh).ctx? i = none := by
  cases h : (State.resetWith n dup refresh).ctx? i with
  | none => rfl
  | some c => exact absurd (List.mem_of_getElem? (ctx?_eq_some.1 h)) (by simp [State.resetWith])

theorem resetWith_maxConn (n : Nat) (dup refresh : Bool) : (State.resetWith n dup refresh).maxConn = n :=
  List.length_replicate

/-- Settles O52, field by field. -/
theorem resetLeavesAnEmptyBlock : Obligations.ResetLeavesAnEmptyBlock := by
  unfold Obligations.ResetLeavesAnEmptyBlock
  refine ⟨fun n dup refresh => ⟨rfl, resetWith_maxConn n dup refresh, resetWith_ctx? n dup refresh, fun _ => rfl⟩, ?_⟩
  exact ⟨resetMaxConn, rfl⟩

/-- Settles O53: with no context, only the listener's clauses say something, and the listener is idle. -/
theorem resetIsLegal : Obligations.ResetIsLegal := by
  unfold Obligations.ResetIsLegal
  intro n dup refresh hn
  have free := resetWith_ctx? n dup refresh
  refine ⟨?_, ⟨List.Pairwise.nil, ?_⟩, fun i c hc => ?_, fun i j c d hc => ?_, fun _ => ?_, ?_⟩
  · rw [resetWith_maxConn]; exact hn
  · rintro e ⟨⟩
  · rw [free i] at hc; cases hc
  · rw [free i] at hc; cases hc
  · rw [← Bool.not_eq_true, any_isAccepting]
    rintro ⟨i, c, hc, -⟩
    rw [free i] at hc; cases hc
  · rintro ⟨⟩

end Sys2Proof.Machine

/-! Proofs of the statements about how far an operation reaches (20_memory.md rules R69, R72, R73). In order: the
operations on a named slot; that an instruction chooses one of them by the named context and the parameters alone; that
two tables cannot be told apart by them in the connecting role; what every one of them leaves alone; the instructions
that name no context; the obligations. -/

namespace Sys2Proof.Machine

open Sys2Proof.Config

/-! ### Operations on a named slot -/

/-- What an instruction can do at the slot it names. The events are the ones emitted before the latch is tested, or
before the context is forced to close. -/
inductive SlotOp
  /-- Nothing but outputs. -/
  | outputs (es : List Event) (st : Status) (v : Value)
  /-- A new content of the slot. -/
  | put (o : Option Ctx) (es : List Event)
  /-- A new context in the slot, and the test of its latch (R127). -/
  | operate (d : Ctx) (es : List Event)
  /-- A forced close of the context (R128). -/
  | force (d : Ctx) (mode : CloseMode) (es : List Event)
  /-- A fault of the model (log entry 10). -/
  | stop (f : Fault)

/-- The answer of an operation at slot `c`, in the terms of the model. -/
def SlotOp.run (c : Nat) (o : SlotOp) (s : State) : Answer :=
  match o with
  | .outputs es st v => (s.start.emits es).answer st v
  | .put o es => ((s.start.setSlot c o).emits es).done
  | .operate d es => (endOfOp c ((s.start.setSlot c (some d)).emits es)).done
  | .force d mode es => (forceClose c d mode (s.start.emits es)).done
  | .stop f => .fault f

@[simp] theorem SlotOp.run_outputs (c : Nat) (es : List Event) (st : Status) (v : Value) (s : State) :
    (SlotOp.outputs es st v).run c s = (s.start.emits es).answer st v := rfl
@[simp] theorem SlotOp.run_put (c : Nat) (o : Option Ctx) (es : List Event) (s : State) :
    (SlotOp.put o es).run c s = ((s.start.setSlot c o).emits es).done := rfl
@[simp] theorem SlotOp.run_operate (c : Nat) (d : Ctx) (es : List Event) (s : State) :
    (SlotOp.operate d es).run c s = (endOfOp c ((s.start.setSlot c (some d)).emits es)).done := rfl
@[simp] theorem SlotOp.run_force (c : Nat) (d : Ctx) (mode : CloseMode) (es : List Event) (s : State) :
    (SlotOp.force d mode es).run c s = (forceClose c d mode (s.start.emits es)).done := rfl
@[simp] theorem SlotOp.run_stop (c : Nat) (f : Fault) (s : State) : (SlotOp.stop f).run c s = .fault f := rfl

/-- The context that an operation hands to a teardown has the role `r`. -/
def SlotOp.KeepsRole (r : Role) : SlotOp → Prop
  | .operate d _ => d.role = r
  | .force d _ _ => d.role = r
  | _ => True

/-- The answer `a` is one and the same operation at slot `c` in every state that holds the context `x` there and has
these parameters, and the operation keeps the role. -/
def DecidedBy (c : Nat) (x : Ctx) (dup refresh : Bool) (a : State → Answer) : Prop :=
  ∃ o : SlotOp, o.KeepsRole x.role ∧
    ∀ s : State, s.ctx? c = some x → s.dupAtCursorStale = dup → s.retxTagRefresh = refresh → a s = o.run c s

/-! ### The commands choose their operation by the context alone -/

section Commands

variable {c : Nat} {x : Ctx} {dup refresh : Bool}

/-- A handle is looked up in the connecting role only (R131). -/
theorem connectCtx?_of_ctx? {s : State} (h : s.ctx? c = some x) :
    s.connectCtx? c = if x.role = .connect then some x else none := by
  simp only [State.connectCtx?, h]

/-- What needs a connecting-role context is decided by it. -/
theorem decidedBy_of_connect {a : State → Answer} (hb : ∀ s : State, s.connectCtx? c = none → a s = s.badConn)
    (ho : ∃ o : SlotOp, o.KeepsRole x.role ∧
      ∀ s : State, s.connectCtx? c = some x → s.dupAtCursorStale = dup → a s = o.run c s) :
    DecidedBy c x dup refresh a := by
  by_cases hr : x.role = .connect
  · obtain ⟨o, hrole, h⟩ := ho
    exact ⟨o, hrole, fun s hs hd _ => h s (connectCtx?_eq_some.2 ⟨hs, hr⟩) hd⟩
  · exact ⟨.outputs [] .badConn .none, trivial, fun s hs _ _ => hb s (by rw [connectCtx?_of_ctx? hs, if_neg hr])⟩

theorem execBound_decided (now : U32) (port : U16) : DecidedBy c x dup refresh (execBound now c port) := by
  refine decidedBy_of_connect (fun s hs => by simp only [execBound, hs]) ?_
  by_cases h : x.bound = true ∨ x.state = .closed
  · exact ⟨.outputs [] .ok .none, trivial, fun s hs _ => by simp only [execBound, hs, if_pos h]; rfl⟩
  · have hrole : (bindAndSyn now port ⟨x, []⟩).ctx.role = x.role := rfl
    exact ⟨.operate _ (bindAndSyn now port ⟨x, []⟩).ev, hrole, fun s hs _ => by
      simp only [execBound, hs, if_neg h]; rfl⟩

theorem execGraceExpired_decided (now : U32) : DecidedBy c x dup refresh (execGraceExpired now c) := by
  refine decidedBy_of_connect (fun s hs => by simp only [execGraceExpired, hs]) ?_
  by_cases h : x.grace = false
  · exact ⟨.outputs [] .ok .none, trivial, fun s hs _ => by simp only [execGraceExpired, hs, if_pos h]; rfl⟩
  · exact ⟨.put none [.sockClose (.psock c)], trivial, fun s hs _ => by
      simp only [execGraceExpired, hs, if_neg h]; rfl⟩

theorem execSockErr_decided (now : U32) : DecidedBy c x dup refresh (execSockErr now (.psock c)) := by
  refine decidedBy_of_connect (fun s hs => by simp only [execSockErr, hs]) ?_
  by_cases h : x.state ≠ .closed
  · exact ⟨.force x .noGrace [.evError (.conn c) .errSocket], rfl, fun s hs _ => by
      simp only [execSockErr, hs, if_pos h]; rfl⟩
  · by_cases hg : x.grace = true
    · exact ⟨.put none [.sockClose (.psock c)], trivial, fun s hs _ => by
        simp only [execSockErr, hs, if_neg h, if_pos hg]; rfl⟩
    · exact ⟨.outputs [] .ok .none, trivial, fun s hs _ => by
        simp only [execSockErr, hs, if_neg h, if_neg hg]; rfl⟩

theorem execWrite_decided (now : U32) (b : Bytes) : DecidedBy c x dup refresh (execWrite now c b) := by
  by_cases h : x.pw.isSome = true
  · exact ⟨.outputs [] (.refused .writeBusy) .none, trivial, fun s hs _ _ => by
      simp only [execWrite, hs, if_pos h]; rfl⟩
  · have hrole := (acceptWrite_opFrame now c b ⟨x, []⟩).role
    exact ⟨.operate _ (acceptWrite now c b ⟨x, []⟩).ev, hrole, fun s hs _ _ => by
      simp only [execWrite, hs, if_neg h]; rfl⟩

theorem execEndWrite_decided (now : U32) : DecidedBy c x dup refresh (execEndWrite now c) := by
  by_cases h : x.state = .closed ∨ x.endReq = true
  · exact ⟨.outputs [] .ok .none, trivial, fun s hs _ _ => by simp only [execEndWrite, hs, if_pos h]; rfl⟩
  · have hrole := (requestEnd_opFrame now ⟨x, []⟩).role
    exact ⟨.operate _ (requestEnd now ⟨x, []⟩).ev, hrole, fun s hs _ _ => by
      simp only [execEndWrite, hs, if_neg h]; rfl⟩

theorem execReadEnd_decided (now : U32) : DecidedBy c x dup refresh (execReadEnd now c) := by
  by_cases h : x.state = .closed
  · exact ⟨.outputs [] .ok .none, trivial, fun s hs _ _ => by simp only [execReadEnd, hs, if_pos h]; rfl⟩
  · exact ⟨.operate { x with rdone := true } [], rfl, fun s hs _ _ => by
      simp only [execReadEnd, hs, if_neg h]; rfl⟩

/-- The scan reads the parameter `RETX_TAG_REFRESH` and the context (R181). -/
theorem execTickRetx_decided (now : U32) : DecidedBy c x dup refresh (execTickRetx now c) := by
  by_cases h : x.state = .closed ∨ x.bound = false ∨ x.inFlight = 0
  · exact ⟨.outputs [] .ok .none, trivial, fun s hs _ _ => by simp only [execTickRetx, hs, if_pos h]; rfl⟩
  · cases hfirst : ringGet x.outRing x.base with
    | none =>
      exact ⟨.stop .outEntryMissing, trivial, fun s hs _ _ => by
        simp only [execTickRetx, hs, if_neg h, hfirst]; rfl⟩
    | some first =>
      by_cases hexp : isExpired now first.tag = true
      · cases hscan : retxLoop now refresh x.inFlight.toNat x.base ⟨x, []⟩ with
        | none =>
          exact ⟨.stop .outEntryMissing, trivial, fun s hs _ hr => by
            simp only [execTickRetx, hs, if_neg h, hfirst, if_pos hexp, hr, hscan]; rfl⟩
        | some r =>
          exact ⟨.put (some r.ctx) r.ev, trivial, fun s hs _ hr => by
            simp only [execTickRetx, hs, if_neg h, hfirst, if_pos hexp, hr, hscan]; rfl⟩
      · exact ⟨.outputs [] .ok .none, trivial, fun s hs _ _ => by
          simp only [execTickRetx, hs, if_neg h, hfirst, if_neg hexp]; rfl⟩

theorem execTickKa_decided (now : U32) : DecidedBy c x dup refresh (execTickKa now c) := by
  by_cases h : x.state = .connected
  · exact ⟨.put (some (keepAlive now ⟨x, []⟩).ctx) (keepAlive now ⟨x, []⟩).ev, trivial, fun s hs _ _ => by
      simp only [execTickKa, hs, if_pos h]; rfl⟩
  · exact ⟨.outputs [] .ok .none, trivial, fun s hs _ _ => by simp only [execTickKa, hs, if_neg h]; rfl⟩

theorem execCtxRead_decided (now : U32) (r : Byte) : DecidedBy c x dup refresh (execCtxRead now c r) := by
  cases h : x.register r with
  | none => exact ⟨.outputs [] (.refused .reservedReg) .none, trivial, fun s hs _ _ => by
      simp only [execCtxRead, hs, h]; rfl⟩
  | some v => exact ⟨.outputs [] .ok v, trivial, fun s hs _ _ => by simp only [execCtxRead, hs, h]; rfl⟩

theorem execRingPeek_decided (now : U32) (which : Byte) (q : U16) :
    DecidedBy c x dup refresh (execRingPeek now c which q) := by
  cases h : x.ringSlot which q with
  | none => exact ⟨.outputs [] (.refused .reservedReg) .none, trivial, fun s hs _ _ => by
      simp only [execRingPeek, hs, h]; rfl⟩
  | some v => exact ⟨.outputs [] .ok v, trivial, fun s hs _ _ => by simp only [execRingPeek, hs, h]; rfl⟩

/-! ### So does a datagram on a private socket -/

/-- A packet that was handled ends with the test of the latch alone (R192, R198). -/
theorem afterReceive_handled (i : Nat) (sock : Sock) (addr : Addr) (raw : Bytes) (s : State) :
    afterReceive i sock addr raw (.ok ⟨s, true⟩) = (endOfOp i s).done := rfl

/-- A packet that was not handled is surfaced (R141, R192, R198). -/
theorem afterReceive_unhandled (i : Nat) (sock : Sock) (addr : Addr) (raw : Bytes) (s : State) :
    afterReceive i sock addr raw (.ok ⟨s, false⟩) = (endOfOp i (s.emits [.unrecognized sock addr raw])).done := rfl

/-- The path of a context's own socket (R198): a SYN is discarded and another connection's packet surfaced; at a closed
context the packet is surfaced (R141), a RESET forces the close (R143), and any other is processed (R144 to R150). The
parameter `DUP_AT_CURSOR_STALE` is read by the last alone. -/
theorem routePrivate_operation (now : U32) (addr : Addr) (raw : Bytes) (p : Packet) :
    ∃ o : SlotOp, o.KeepsRole x.role ∧ ∀ s : State, s.ctx? c = some x → s.dupAtCursorStale = dup →
      routePrivate now c x addr raw p s = o.run c s := by
  by_cases hsyn : p.type = tySyn
  · exact ⟨.outputs [] .ok .none, trivial, fun s _ _ => by rw [routePrivate, if_pos hsyn]; rfl⟩
  by_cases hid : p.conn = x.recvId
  case neg =>
    exact ⟨.outputs [.unrecognized (.psock c) addr raw] .ok .none, trivial, fun s _ _ => by
      rw [routePrivate, if_neg hsyn, if_pos hid]; rfl⟩
  have dispatched (s : State) : routePrivate now c x addr raw p s =
      afterReceive c (.psock c) addr raw (recvIncoming now c x p s.start) := by
    rw [routePrivate, if_neg hsyn, if_neg (not_not.2 hid)]
  by_cases hclosed : x.state = .closed
  · refine ⟨.outputs [.unrecognized (.psock c) addr raw] .ok .none, trivial, fun s hs _ => ?_⟩
    rw [dispatched, recvIncoming_closed hclosed, afterReceive_unhandled,
      endOfOp_unlatched (c := x) (by simpa using hs) (by simp [Ctx.latched, hclosed])]
    rfl
  by_cases hres : p.type = tyReset
  · refine ⟨.force { x with rdone := true } .normal (if x.rdone then [] else [.rxEof c]), rfl, fun s hs _ => ?_⟩
    have hev : (if x.rdone then s.start else s.start.emits [.rxEof c]) =
        s.start.emits (if x.rdone then [] else [.rxEof c]) := by split <;> rfl
    rw [dispatched, recvIncoming_reset hclosed hres, afterReceive_handled, hev,
      endOfOp_forceClose (c := { x with rdone := true }) (d := x) (by simpa using hs) hclosed]
    rfl
  · refine ⟨.operate (recvOpen now c dup p ⟨x, []⟩).ctx (recvOpen now c dup p ⟨x, []⟩).ev,
      (recvOpen_opFrame now c dup p ⟨x, []⟩).role, fun s _ hd => ?_⟩
    rw [dispatched, recvIncoming_open hclosed hsyn hres, afterReceive_handled, start_dup, hd]
    rfl

theorem receiveWire_decided (now : U32) (addr : Addr) (raw : Bytes) (p : Packet) :
    DecidedBy c x dup refresh (receiveWire now (.psock c addr) raw p) := by
  refine decidedBy_of_connect (fun s hs => by simp only [receiveWire, hs]) ?_
  by_cases hb : x.bound = false
  · exact ⟨.outputs [] .ok .none, trivial, fun s hs _ => by simp only [receiveWire, hs, if_pos hb]; rfl⟩
  · obtain ⟨o, hrole, ho⟩ := routePrivate_operation (c := c) (x := x) (dup := dup) now addr raw p
    exact ⟨o, hrole, fun s hs hd => by
      simp only [receiveWire, hs, if_neg hb, ho s (connectCtx?_eq_some.1 hs).1 hd]⟩

theorem execDgramP_decided (now : U32) (addr : Addr) (b : Bytes) :
    DecidedBy c x dup refresh (execDgramP now c addr b) := by
  refine decidedBy_of_connect (fun s hs => by simp only [execDgramP, hs]) ?_
  by_cases hb : x.bound = false
  · exact ⟨.outputs [] .ok .none, trivial, fun s hs _ => by simp only [execDgramP, hs, if_pos hb]; rfl⟩
  cases hp : decodePacket b with
  | none => exact ⟨.outputs [] .ok .none, trivial, fun s hs _ => by simp only [execDgramP, hs, if_neg hb, hp]; rfl⟩
  | some p =>
    by_cases hty : 4 < p.type.toNat
    · exact ⟨.outputs [.unrecognized (.psock c) addr b] .ok .none, trivial, fun s hs _ => by
        simp only [execDgramP, hs, if_neg hb, hp, if_pos hty]; rfl⟩
    · obtain ⟨o, hrole, ho⟩ := routePrivate_operation (c := c) (x := x) (dup := dup) now addr b p
      exact ⟨o, hrole, fun s hs hd => by
        simp only [execDgramP, hs, if_neg hb, hp, if_neg hty, ho s (connectCtx?_eq_some.1 hs).1 hd]⟩

end Commands

/-! ### Every instruction that names a context -/

/-- The handle in the socket a packet arrives on. -/
def socketHandle : Rx → Option Nat
  | .lsock _ _ => none
  | .psock c _ => some c

/-- A wire packet names the handle of its socket; so do the other four types. -/
theorem handleOf_data (now : U32) (rx : Rx) (h : WireHeader) (pl : Option Bytes) :
    handleOf (.data now rx h pl) = socketHandle rx := by cases rx <;> rfl

theorem handleOf_fin (now : U32) (rx : Rx) (h : WireHeader) (pl : Option Bytes) :
    handleOf (.fin now rx h pl) = socketHandle rx := by cases rx <;> rfl

theorem handleOf_state (now : U32) (rx : Rx) (h : WireHeader) (pl : Option Bytes) :
    handleOf (.state now rx h pl) = socketHandle rx := by cases rx <;> rfl

theorem handleOf_reset (now : U32) (rx : Rx) (h : WireHeader) (pl : Option Bytes) :
    handleOf (.reset now rx h pl) = socketHandle rx := by cases rx <;> rfl

theorem handleOf_syn (now : U32) (rx : Rx) (h : WireHeader) (pl : Option Bytes) :
    handleOf (.syn now rx h pl) = socketHandle rx := by cases rx <;> rfl

theorem receiveWire_decided_of_handle {c : Nat} {x : Ctx} {dup refresh : Bool} {rx : Rx} (h : socketHandle rx = some c)
    (now : U32) (raw : Bytes) (p : Packet) : DecidedBy c x dup refresh (receiveWire now rx raw p) := by
  cases rx with
  | lsock addr isn => cases h
  | psock k addr => cases h; exact receiveWire_decided now addr raw p

/-- An instruction chooses what it does at the context it names by that context and the parameters alone (R73). -/
theorem exec_decided {op : Instr} {c : Nat} (h : handleOf op = some c) (x : Ctx) (dup refresh : Bool) :
    DecidedBy c x dup refresh (exec op) := by
  cases op with
  | data now rx hd pl => exact receiveWire_decided_of_handle (handleOf_data now rx hd pl ▸ h) now _ _
  | fin now rx hd pl => exact receiveWire_decided_of_handle (handleOf_fin now rx hd pl ▸ h) now _ _
  | state now rx hd pl => exact receiveWire_decided_of_handle (handleOf_state now rx hd pl ▸ h) now _ _
  | reset now rx hd pl => exact receiveWire_decided_of_handle (handleOf_reset now rx hd pl ▸ h) now _ _
  | syn now rx hd pl => exact receiveWire_decided_of_handle (handleOf_syn now rx hd pl ▸ h) now _ _
  | bound now k port => cases h; exact execBound_decided now port
  | dgramP now k addr b => cases h; exact execDgramP_decided now addr b
  | graceExpired now k => cases h; exact execGraceExpired_decided now
  | write now k b => cases h; exact execWrite_decided now b
  | endWrite now k => cases h; exact execEndWrite_decided now
  | readEnd now k => cases h; exact execReadEnd_decided now
  | tickRetx now k => cases h; exact execTickRetx_decided now
  | tickKa now k => cases h; exact execTickKa_decided now
  | ctxRead now k r => cases h; exact execCtxRead_decided now r
  | ringPeek now k which q => cases h; exact execRingPeek_decided now which q
  | sockErr now sock =>
    cases sock with
    | lsock => cases h
    | psock k => cases h; exact execSockErr_decided now
  | _ => cases h

/-! ### In the connecting role the block is not looked at -/

/-- The operation works on its slot and on nothing else of the block. -/
def SlotOp.Plain : SlotOp → Prop
  | .operate _ _ => False
  | .force _ _ _ => False
  | _ => True

/-- The test of the latch in the connecting role is a write to the slot: the grace period starts there (R127, R129). -/
theorem operate_plain (c : Nat) {d : Ctx} (hr : d.role = .connect) (es : List Event) :
    ∃ o : SlotOp, o.Plain ∧
      ∀ (s : State) (x : Ctx), s.ctx? c = some x → (SlotOp.operate d es).run c s = o.run c s := by
  have slot {s : State} {x : Ctx} (hs : s.ctx? c = some x) :
      ((s.start.setSlot c (some d)).emits es).ctx? c = some d := ctx?_setSlot_self _ (ctx?_lt hs)
  cases hl : d.latched with
  | false =>
    refine ⟨.put (some d) es, trivial, fun s x hs => ?_⟩
    rw [SlotOp.run_operate, endOfOp_unlatched (slot hs) hl]; rfl
  | true =>
    refine ⟨.put (some { d with state := .closed, grace := true }) (es ++ [.timerStop c, .evClose c, .graceStart c]),
      trivial, fun s x hs => ?_⟩
    rw [SlotOp.run_operate, endOfOp_latched (slot hs) hl, teardown_normal (c := { d with state := .closed }) hr]
    simp [State.emits, State.setSlot, List.set_set]

/-- A forced close in the connecting role is a write to the slot: the grace period starts there, or the slot is freed
(R128, R129). -/
theorem force_plain (c : Nat) {d : Ctx} (hr : d.role = .connect) (mode : CloseMode) (es : List Event) :
    ∃ o : SlotOp, o.Plain ∧ ∀ s : State, (SlotOp.force d mode es).run c s = o.run c s := by
  by_cases hs : d.state = .closed
  · exact ⟨.outputs es .ok .none, trivial, fun s => by rw [SlotOp.run_force, forceClose_closed hs]; rfl⟩
  have rejected (s : State) : (if d.pw.isSome then s.emits [.writeDone c .rejected] else s) =
      s.emits (if d.pw.isSome then [.writeDone c .rejected] else []) := by
    split
    · rfl
    · simp [State.emits]
  cases mode with
  | normal =>
    refine ⟨.put (some { d with pw := none, endReq := true, state := .closed, grace := true })
      (es ++ (if d.pw.isSome then [.writeDone c .rejected] else []) ++
        [.timerStop c, .evClose c, .graceStart c]), trivial, fun s => ?_⟩
    rw [SlotOp.run_force, forceClose_open hs, rejected,
      teardown_normal (c := { d with pw := none, endReq := true, state := .closed }) hr]
    simp [State.emits, State.setSlot]
  | noGrace =>
    refine ⟨.put none (es ++ (if d.pw.isSome then [.writeDone c .rejected] else []) ++
      [.timerStop c, .evClose c, .sockClose (.psock c)]), trivial, fun s => ?_⟩
    rw [SlotOp.run_force, forceClose_open hs, rejected,
      teardown_noGrace (c := { d with pw := none, endReq := true, state := .closed }) hr]
    simp [State.emits, State.setSlot]

theorem SlotOp.exists_plain (c : Nat) {o : SlotOp} (h : o.KeepsRole .connect) :
    ∃ o' : SlotOp, o'.Plain ∧ ∀ (s : State) (x : Ctx), s.ctx? c = some x → o.run c s = o'.run c s := by
  cases o with
  | operate d es => exact operate_plain c h es
  | force d mode es =>
    obtain ⟨o', hplain, hrun⟩ := force_plain c h mode es
    exact ⟨o', hplain, fun s _ _ => hrun s⟩
  | outputs es st v => exact ⟨.outputs es st v, trivial, fun _ _ _ => rfl⟩
  | put o es => exact ⟨.put o es, trivial, fun _ _ _ => rfl⟩
  | stop f => exact ⟨.stop f, trivial, fun _ _ _ => rfl⟩

/-- Two tables with the same context in the slot cannot be told apart by an operation on it. -/
theorem SlotOp.Plain.same_outcome {o : SlotOp} (h : o.Plain) {c : Nat} {x : Ctx} {s s' t : State}
    (hs : s.ctx? c = some x) (hs' : s'.ctx? c = some x) (ht : o.run c s = .next t) :
    t.lstate = s.lstate ∧
      ∃ t', o.run c s' = .next t' ∧ t'.ctx? c = t.ctx? c ∧ t'.events = t.events ∧ t'.result = t.result ∧
        t'.lstate = s'.lstate := by
  cases o with
  | outputs es st v => cases ht; exact ⟨rfl, _, rfl, hs'.trans hs.symm, rfl, rfl, rfl⟩
  | put o es =>
    cases ht
    refine ⟨rfl, _, rfl, ?_, rfl, rfl, rfl⟩
    have filled {u : State} (hu : u.ctx? c = some x) : (u.start.setSlot c o).ctx? c = o :=
      ctx?_setSlot_self o (ctx?_lt hu)
    exact (filled hs').trans (filled hs).symm
  | operate d es => exact h.elim
  | force d mode es => exact h.elim
  | stop f => cases ht

/-- Settles O60: the instruction chooses one operation for both states, and in the connecting role it works on the slot
alone. -/
theorem connectingRoleContextsAreIsolated : Obligations.ConnectingRoleContextsAreIsolated := by
  unfold Obligations.ConnectingRoleContextsAreIsolated
  intro op c x s s' t hop hs hs' hr hdup hrefresh ht
  obtain ⟨o, hrole, hexec⟩ := exec_decided hop x s.dupAtCursorStale s.retxTagRefresh
  obtain ⟨o', hplain, hrun⟩ := SlotOp.exists_plain c (hr ▸ hrole)
  rw [hexec s hs rfl rfl, hrun s x hs] at ht
  rw [hexec s' hs' hdup hrefresh, hrun s' x hs']
  exact hplain.same_outcome hs hs' ht

/-! ### What an operation on one slot leaves alone -/

/-- A listener that was shutting down may close (R197); nothing else happens to it. -/
def ListenerKept (s t : State) : Prop := t.lstate = s.lstate ∨ s.lstate = .shutting ∧ t.lstate = .idle

theorem ListenerKept.congr {s s' t : State} (h : ListenerKept s t) (hs : s'.lstate = s.lstate) : ListenerKept s' t := by
  rw [ListenerKept, hs]; exact h

theorem ListenerKept.trans {s t u : State} (h : ListenerKept s t) (k : ListenerKept t u) : ListenerKept s u := by
  rcases h with h | ⟨h1, h2⟩
  · exact k.congr h.symm
  · rcases k with k | ⟨k1, -⟩
    · exact .inr ⟨h1, k.trans h2⟩
    · rw [h2] at k1; cases k1

theorem listenerCloseCheck_kept (s : State) : ListenerKept s (listenerCloseCheck s) := by
  rcases listenerCloseCheck_cases s with ⟨hsh, -, e⟩ | ⟨-, e⟩ <;> rw [e]
  · exact .inr ⟨hsh, rfl⟩
  · exact .inl rfl

theorem teardown_kept (i : Nat) (c : Ctx) (mode : CloseMode) (s : State) : ListenerKept s (teardown i c mode s) := by
  cases hr : c.role with
  | accept => rw [teardown_accept hr]; exact (listenerCloseCheck_kept _).congr rfl
  | connect =>
    cases mode with
    | normal => rw [teardown_normal hr]; exact .inl rfl
    | noGrace => rw [teardown_noGrace hr]; exact .inl rfl

theorem forceClose_kept (i : Nat) (c : Ctx) (mode : CloseMode) (s : State) :
    ListenerKept s (forceClose i c mode s) := by
  by_cases h : c.state = .closed
  · rw [forceClose_closed h]; exact .inl rfl
  · rw [forceClose_open h]
    refine (teardown_kept i _ mode _).congr ?_
    split <;> rfl

theorem endOfOp_kept (i : Nat) (s : State) : ListenerKept s (endOfOp i s) := by
  rcases endOfOp_cases i s with ⟨c, -, -, e⟩ | ⟨-, e⟩ <;> rw [e]
  · exact teardown_kept ..
  · exact .inl rfl

theorem recvIncoming_kept {now : U32} {i : Nat} {c : Ctx} {p : Packet} {s : State} {r : Received}
    (h : recvIncoming now i c p s = .ok r) : ListenerKept s r.state := by
  by_cases hs : c.state = .closed
  · rw [recvIncoming_closed hs] at h; cases h; exact .inl rfl
  by_cases h1 : p.type = tySyn
  · cases hr : c.role with
    | connect => rw [recvIncoming_syn_connect h1 hr] at h; cases h; exact .inl rfl
    | accept =>
      cases hsa : c.synack with
      | none => simp [recvIncoming, hs, h1, hr, hsa] at h
      | some sa => rw [recvIncoming_syn hs h1 hr hsa] at h; cases h; exact .inl rfl
  by_cases h2 : p.type = tyReset
  · rw [recvIncoming_reset hs h2] at h; cases h
    refine (forceClose_kept i _ _ _).congr ?_
    split <;> rfl
  · rw [recvIncoming_open hs h1 h2] at h; cases h; exact .inl rfl

/-- What every instruction leaves alone: the size of the table, the parameters, and the frames still waiting. -/
structure FixedKept (s t : State) : Prop where
  size : t.maxConn = s.maxConn
  dup : t.dupAtCursorStale = s.dupAtCursorStale
  refresh : t.retxTagRefresh = s.retxTagRefresh
  port : t.port = s.port

theorem FixedKept.refl (s : State) : FixedKept s s := ⟨rfl, rfl, rfl, rfl⟩

theorem FixedKept.trans {s t u : State} (h : FixedKept s t) (k : FixedKept t u) : FixedKept s u :=
  ⟨k.size.trans h.size, k.dup.trans h.dup, k.refresh.trans h.refresh, k.port.trans h.port⟩

theorem FixedKept.answer {s t u : State} (h : FixedKept s u) {st : Status} {v : Value} (ht : u.answer st v = .next t) :
    FixedKept s t := by
  cases ht
  exact ⟨h.size, h.dup, h.refresh, h.port⟩

theorem BlockFrame.fixed {i : Nat} {s t : State} (h : BlockFrame i s t) : FixedKept s t :=
  ⟨h.size, h.dup, h.refresh, h.port⟩

/-- A loop over the table whose rounds each work on one slot. -/
theorem foldl_fixed {f : State → Nat → State} (hf : ∀ s i, BlockFrame i s (f s i)) (l : List Nat) (s : State) :
    FixedKept s (l.foldl f s) := by
  induction l generalizing s with
  | nil => exact .refl s
  | cons i l ih => exact (hf s i).fixed.trans (ih (f s i))

/-- An instruction that works on the slot `i` leaves every other slot alone, and of the listener all but its close
(R73). -/
structure OnlySlot (i : Nat) (s t : State) : Prop extends FixedKept s t where
  others : ∀ j, j ≠ i → t.slots[j]? = s.slots[j]?
  listener : ListenerKept s t

/-- An instruction ends with an answer: what its operations leave alone, it leaves alone. -/
theorem BlockFrame.onlySlot {i : Nat} {s t u : State} {st : Status} {v : Value} (h : BlockFrame i s.start u)
    (hl : ListenerKept s.start u) (ht : u.answer st v = .next t) : OnlySlot i s t := by
  cases ht
  exact ⟨⟨h.size, h.dup, h.refresh, h.port⟩, h.others, hl⟩

theorem SlotOp.run_onlySlot {o : SlotOp} {c : Nat} {s t : State} (h : o.run c s = .next t) : OnlySlot c s t := by
  cases o with
  | outputs es st v => exact (emits_frame c s.start es).onlySlot (.inl rfl) h
  | put o es => exact ((setSlot_frame c s.start o).trans (emits_frame c _ es)).onlySlot (.inl rfl) h
  | operate d es =>
    exact (((setSlot_frame c s.start _).trans (emits_frame c _ es)).trans (endOfOp_frame c _)).onlySlot
      ((endOfOp_kept c _).congr rfl) h
  | force d mode es =>
    exact ((emits_frame c s.start es).trans (forceClose_frame c d mode _)).onlySlot
      ((forceClose_kept c d mode _).congr rfl) h
  | stop f => cases h

/-! ### A handle that names no context -/

/-- An instruction whose handle names no context is BADCONN (R131). -/
theorem exec_badConn {op : Instr} {c : Nat} {s : State} (h : handleOf op = some c) (hc : s.ctx? c = none) :
    exec op s = s.badConn := by
  have hcon : s.connectCtx? c = none := by simp only [State.connectCtx?, hc]
  have wire {now : U32} {rx : Rx} {raw : Bytes} {p : Packet} (hrx : socketHandle rx = some c) :
      receiveWire now rx raw p s = s.badConn := by
    cases rx with
    | lsock addr isn => cases hrx
    | psock k addr => cases hrx; simp only [receiveWire, hcon]
  cases op with
  | data now rx hd pl => exact wire (handleOf_data now rx hd pl ▸ h)
  | fin now rx hd pl => exact wire (handleOf_fin now rx hd pl ▸ h)
  | state now rx hd pl => exact wire (handleOf_state now rx hd pl ▸ h)
  | reset now rx hd pl => exact wire (handleOf_reset now rx hd pl ▸ h)
  | syn now rx hd pl => exact wire (handleOf_syn now rx hd pl ▸ h)
  | bound now k port => cases h; simp only [exec, execBound, hcon]
  | dgramP now k addr b => cases h; simp only [exec, execDgramP, hcon]
  | graceExpired now k => cases h; simp only [exec, execGraceExpired, hcon]
  | write now k b => cases h; simp only [exec, execWrite, hc]
  | endWrite now k => cases h; simp only [exec, execEndWrite, hc]
  | readEnd now k => cases h; simp only [exec, execReadEnd, hc]
  | tickRetx now k => cases h; simp only [exec, execTickRetx, hc]
  | tickKa now k => cases h; simp only [exec, execTickKa, hc]
  | ctxRead now k r => cases h; simp only [exec, execCtxRead, hc]
  | ringPeek now k which q => cases h; simp only [exec, execRingPeek, hc]
  | sockErr now sock =>
    cases sock with
    | lsock => cases h
    | psock k => cases h; simp only [exec, execSockErr, hcon]
  | _ => cases h

/-- An instruction that names a context works on its slot only (R73). -/
theorem exec_onlySlot {op : Instr} {c : Nat} {s t : State} (hop : handleOf op = some c) (h : exec op s = .next t) :
    OnlySlot c s t := by
  cases hc : s.ctx? c with
  | none =>
    rw [exec_badConn hop hc] at h
    exact SlotOp.run_onlySlot (o := .outputs [] .badConn .none) h
  | some x =>
    obtain ⟨o, -, hexec⟩ := exec_decided hop x s.dupAtCursorStale s.retxTagRefresh
    rw [hexec s hc rfl rfl] at h
    exact SlotOp.run_onlySlot h

/-! ### Instructions that name no context -/

theorem onlySlot_of_answer (i : Nat) {s t : State} {st : Status} {v : Value} (h : s.start.answer st v = .next t) :
    OnlySlot i s t := (BlockFrame.refl i s.start).onlySlot (.inl rfl) h

theorem onlySlot_of_surface (i : Nat) {s t : State} {sock : Sock} {addr : Addr} {raw : Bytes}
    (h : s.start.surface sock addr raw = .next t) : OnlySlot i s t :=
  (emits_frame i s.start [.unrecognized sock addr raw]).onlySlot (.inl rfl) h

/-- A dispatch works on the slot it found (R192). -/
theorem afterReceive_onlySlot {now : U32} {i : Nat} {c : Ctx} {sock : Sock} {addr : Addr} {raw : Bytes} {p : Packet}
    {s t : State} (h : afterReceive i sock addr raw (recvIncoming now i c p s.start) = .next t) : OnlySlot i s t := by
  cases hr : recvIncoming now i c p s.start with
  | error f => rw [hr] at h; cases h
  | ok r =>
    rw [hr, afterReceive_ok] at h
    have hframe : BlockFrame i r.state
        (if r.handled then r.state else r.state.emits [.unrecognized sock addr raw]) := by
      split
      · exact .refl ..
      · exact emits_frame ..
    refine (((recvIncoming_frame hr).trans hframe).trans (endOfOp_frame i _)).onlySlot ?_ h
    refine (recvIncoming_kept hr).trans ((endOfOp_kept i _).congr ?_)
    split <;> rfl

/-- The listener's path works on the slot that its key finds, or on the one it creates a context in (R192 to R195). -/
theorem routeListener_onlySlot {now : U32} {addr : Addr} {raw : Bytes} {isn : U16} {p : Packet} {s t : State}
    (h : routeListener now addr raw isn p s = .next t) : ∃ k, OnlySlot k s t := by
  unfold routeListener at h
  split at h
  · next i _ =>
    refine ⟨i, ?_⟩
    split at h
    · exact afterReceive_onlySlot h
    · exact onlySlot_of_surface i h
  · split at h
    · exact ⟨0, onlySlot_of_surface 0 h⟩
    · split at h
      · exact ⟨0, onlySlot_of_surface 0 h⟩
      · split at h
        · exact ⟨0, onlySlot_of_surface 0 h⟩
        · next j _ => exact ⟨j, (acceptCreate_frame now j addr p isn s.start).onlySlot (.inl rfl) h⟩

theorem execDgramL_onlySlot {now : U32} {addr : Addr} {b : Bytes} {isn : U16} {s t : State}
    (h : execDgramL now addr b isn s = .next t) : ∃ k, OnlySlot k s t := by
  unfold execDgramL at h
  split at h
  · exact ⟨0, onlySlot_of_answer 0 h⟩
  · split at h
    · exact ⟨0, onlySlot_of_surface 0 h⟩
    · exact routeListener_onlySlot h

theorem receiveWire_fixed {now : U32} {rx : Rx} {raw : Bytes} {p : Packet} {s t : State} (hrx : socketHandle rx = none)
    (h : receiveWire now rx raw p s = .next t) : FixedKept s t := by
  cases rx with
  | psock c addr => cases hrx
  | lsock addr isn =>
    obtain ⟨k, hk⟩ := routeListener_onlySlot h
    exact hk.toFixedKept

theorem execLclose_fixed {now : U32} {s t : State} (h : execLclose now s = .next t) : FixedKept s t := by
  unfold execLclose at h
  split at h
  · have hstart : FixedKept s { s.start with lstate := .shutting } := ⟨rfl, rfl, rfl, rfl⟩
    have hloop := foldl_fixed (fun u i => lcloseSlot_frame now i u) (List.range s.maxConn)
      { s.start with lstate := .shutting }
    exact ((hstart.trans hloop).trans (listenerCloseCheck_frame 0 _).fixed).answer h
  · exact (onlySlot_of_answer 0 h).toFixedKept

theorem execSockErr_fixed {now : U32} {s t : State} (h : execSockErr now .lsock s = .next t) : FixedKept s t := by
  simp only [execSockErr] at h
  split at h
  · exact (onlySlot_of_answer 0 h).toFixedKept
  · have hstart : FixedKept s { s.start.emits [.evError .listener .errSocket] with lstate := .idle } :=
      ⟨rfl, rfl, rfl, rfl⟩
    have hloop := foldl_fixed (fun u i => failSlot_frame i u) (List.range s.maxConn)
      { s.start.emits [.evError .listener .errSocket] with lstate := .idle }
    exact ((hstart.trans hloop).trans (emits_frame 0 _ [.sockClose .lsock]).fixed).answer h

theorem execConnect_fixed {now : U32} {addr : Addr} {isn : U16} {s t : State}
    (h : execConnect now addr isn s = .next t) : FixedKept s t := by
  unfold execConnect at h
  split at h
  · exact (onlySlot_of_answer 0 h).toFixedKept
  · next i _ =>
    have hframe := (setSlot_frame i s.start (some (newConnectCtx i addr isn))).trans
      (emits_frame i _ [.bindReq i, .timerStart i])
    exact (hframe.onlySlot (.inl rfl) h).toFixedKept

/-- An instruction that names no context keeps what every instruction keeps. -/
theorem exec_fixed_of_unnamed {op : Instr} {s t : State} (hop : handleOf op = none) (h : exec op s = .next t) :
    FixedKept s t := by
  have answered {st : Status} {v : Value} (ha : s.start.answer st v = .next t) : FixedKept s t :=
    (onlySlot_of_answer 0 ha).toFixedKept
  cases op with
  | data now rx hd pl => exact receiveWire_fixed (handleOf_data now rx hd pl ▸ hop) h
  | fin now rx hd pl => exact receiveWire_fixed (handleOf_fin now rx hd pl ▸ hop) h
  | state now rx hd pl => exact receiveWire_fixed (handleOf_state now rx hd pl ▸ hop) h
  | reset now rx hd pl => exact receiveWire_fixed (handleOf_reset now rx hd pl ▸ hop) h
  | syn now rx hd pl => exact receiveWire_fixed (handleOf_syn now rx hd pl ▸ hop) h
  | encode now p => exact answered h
  | decode now b =>
    simp only [exec, execDecode] at h
    split at h <;> exact answered h
  | ringPut now q v => cases h; exact ⟨rfl, rfl, rfl, rfl⟩
  | ringGet now q => exact answered h
  | ringDel now q => cases h; exact ⟨rfl, rfl, rfl, rfl⟩
  | listen now =>
    simp only [exec, execListen] at h
    split at h
    · cases h; exact ⟨rfl, rfl, rfl, rfl⟩
    · exact answered h
  | lclose now => exact execLclose_fixed h
  | dgramL now addr b isn =>
    obtain ⟨k, hk⟩ := execDgramL_onlySlot h
    exact hk.toFixedKept
  | connect now addr isn => exact execConnect_fixed (now := now) h
  | glbRead now r =>
    simp only [exec, execGlbRead] at h
    split at h <;> exact answered h
  | sockErr now sock =>
    cases sock with
    | lsock => exact execSockErr_fixed (now := now) h
    | psock k => cases hop
  | _ => cases hop

theorem exec_fixed {op : Instr} {s t : State} (h : exec op s = .next t) : FixedKept s t := by
  cases hop : handleOf op with
  | none => exact exec_fixed_of_unnamed hop h
  | some c => exact (exec_onlySlot hop h).toFixedKept

/-- Settles O59: a named context's instruction works on its slot only, a datagram on the listener socket on the slot its
key finds or creates, and every instruction keeps the rest. -/
theorem oneContextPerOperation : Obligations.OneContextPerOperation := by
  unfold Obligations.OneContextPerOperation
  intro op s t h
  obtain ⟨hsize, hdup, hrefresh, hport⟩ := exec_fixed h
  refine ⟨⟨hsize, hdup, hrefresh, hport⟩, fun c hop => ?_, ?_⟩
  · exact ⟨(exec_onlySlot hop h).others, (exec_onlySlot hop h).listener⟩
  · rintro ⟨now, addr, b, isn, rfl⟩
    obtain ⟨k, hk⟩ := execDgramL_onlySlot h
    exact ⟨k, hk.others⟩

/-! ### A step -/

/-- Settles O9: `step` takes the frame, and `decode` says which instruction runs. -/
theorem stepRunsTheDecodedInstruction : Obligations.StepRunsTheDecodedInstruction := by
  unfold Obligations.StepRunsTheDecodedInstruction
  intro s f rest op hport hdecode
  simp only [step, hport, hdecode]

end Sys2Proof.Machine

/-! Proofs of the statements about frames and instructions (30_encoding.md rules R80 to R89): the fields of a datagram
read and written back, the wire decoder by type code, the table of op codes, and the obligations. -/

namespace Sys2Proof

open Sys2Proof.Config Sys2Proof.Machine

/-! ### A datagram read and written back (R80, R83, R84) -/

/-- The bytes from offset `o` on, the first one apart (R14). -/
theorem byteAt_cons_drop {B : Bytes} {o : Nat} (h : o < B.length) : byteAt B o :: B.drop (o + 1) = B.drop o := by
  rw [byteAt, List.getD_eq_getElem _ _ h, List.drop_eq_getElem_cons h]

/-- Two bytes read and written back (R14). -/
theorem bytes16_append (a b : Byte) : bytes16 (a ++ b) = [a, b] := by
  rw [bytes16, BitVec.extractLsb'_append_eq_left, BitVec.extractLsb'_append_eq_right]

/-- Two halves read and written back (R14). -/
theorem bytes32_append (a b : U16) : bytes32 (a ++ b) = bytes16 a ++ bytes16 b := by
  rw [bytes32, BitVec.extractLsb'_append_eq_left, BitVec.extractLsb'_append_eq_right]

theorem memRead16_append_drop {B : Bytes} {o : Nat} (h : o + 2 ≤ B.length) :
    bytes16 (memRead16 B o) ++ B.drop (o + 2) = B.drop o := by
  rw [memRead16, bytes16_append, ← byteAt_cons_drop (o := o) (by omega), ← byteAt_cons_drop (o := o + 1) (by omega)]
  rfl

theorem memRead32_append_drop {B : Bytes} {o : Nat} (h : o + 4 ≤ B.length) :
    bytes32 (memRead32 B o) ++ B.drop (o + 4) = B.drop o := by
  rw [memRead32, bytes32_append, List.append_assoc, memRead16_append_drop (o := o + 2) (by omega),
    memRead16_append_drop (by omega)]

/-- The payload is what follows the header (R84). -/
theorem wirePayload_getD (B : Bytes) : (wirePayload B).getD [] = B.drop hdrLen := by
  unfold wirePayload
  split
  · next h => rw [← h, List.drop_length]; rfl
  · rfl

/-- A datagram told by its length has no empty payload (R21, R84). -/
theorem payloadOk_wirePayload {B : Bytes} (h : hdrLen ≤ B.length) : payloadOk (wirePayload B) := by
  unfold wirePayload
  split
  · rintro ⟨⟩
  · intro hnil
    have hle : B.length ≤ hdrLen := List.drop_eq_nil_iff.1 (Option.some.inj hnil)
    omega

/-- The fields of a datagram, written again, are the datagram (R80). -/
theorem wireBytes_read {B : Bytes} (h : hdrLen ≤ B.length) :
    wireBytes (wireType B) (wireHeader B) (wirePayload B) = B := by
  simp only [hdrLen] at h
  simp only [wireBytes, wireType, wireHeader, wirePayload_getD, join_nibbles, List.append_assoc]
  rw [memRead16_append_drop (by omega), memRead16_append_drop (by omega), memRead32_append_drop (by omega),
    memRead32_append_drop (by omega), memRead32_append_drop (by omega), memRead16_append_drop (by omega),
    byteAt_cons_drop (by omega), byteAt_cons_drop (by omega), List.drop_zero]

/-! ### The wire decoder by type code (R82, R85) -/

/-- The instruction of a wire packet with these fields. -/
def wireInstr (now : U32) (rx : Rx) (ty : BitVec 4) (h : WireHeader) (pl : Option Bytes) : Except DecodeError Instr :=
  match ty.toNat with
  | 0 => .ok (.data now rx h pl)
  | 1 => .ok (.fin now rx h pl)
  | 2 => .ok (.state now rx h pl)
  | 3 => .ok (.reset now rx h pl)
  | 4 => .ok (.syn now rx h pl)
  | _ => .error (.unknownType ty)

theorem decodeDatagram_short (now : U32) (rx : Rx) {B : Bytes} (h : B.length < hdrLen) :
    decodeDatagram now rx B = .error .shortDatagram := if_pos h

theorem decodeDatagram_long (now : U32) (rx : Rx) {B : Bytes} (h : hdrLen ≤ B.length) :
    decodeDatagram now rx B = wireInstr now rx (wireType B) (wireHeader B) (wirePayload B) :=
  if_neg (Nat.not_lt.2 h)

/-- A wire packet written out decodes to the instruction of its fields (R80, R83, R84). -/
theorem decode_wireBytes (now : U32) (rx : Rx) (ty : BitVec 4) (h : WireHeader) {pl : Option Bytes}
    (hpl : payloadOk pl) : decode (.datagram now rx (wireBytes ty h pl)) = wireInstr now rx ty h pl := by
  have hlen : hdrLen ≤ (wireBytes ty h pl).length := by rw [wireBytes_length]; exact Nat.le_add_right ..
  rw [decode, decodeDatagram_long now rx hlen, wireType_wireBytes, wireHeader_wireBytes, wirePayload_wireBytes ty h hpl]

/-- The instruction of a wire packet is written out as that packet, with the type code it was read from (R82). -/
theorem encode_wireInstr {now : U32} {rx : Rx} {ty : BitVec 4} {h : WireHeader} {pl : Option Bytes} {i : Instr}
    (hi : wireInstr now rx ty h pl = .ok i) :
    encode i = .datagram now rx (wireBytes ty h pl) ∧ (payloadOk pl → WellFormed i) := by
  have typed {code : BitVec 4} (hcode : ty.toNat = code.toNat) :
      Frame.datagram now rx (wireBytes code h pl) = .datagram now rx (wireBytes ty h pl) := by
    rw [BitVec.eq_of_toNat_eq hcode]
  unfold wireInstr at hi
  split at hi <;> cases hi
  all_goals exact ⟨typed ‹_›, id⟩

/-! ### The table of op codes (R87, R88) -/

/-- The 21 op codes of the table (R87). -/
def opCodes : List Nat :=
  [0x01, 0x02, 0x08, 0x09, 0x0A, 0x10, 0x11, 0x12, 0x18, 0x19, 0x1A, 0x1B, 0x20, 0x21, 0x22, 0x28, 0x29, 0x30, 0x38,
    0x39, 0x3A]

/-- An op code of the table has an instruction, any other is reserved (R88). -/
theorem decodeCommand_cases (op : Byte) (now : U32) (a : Args) :
    (op.toNat ∈ opCodes ∧ ∃ i, decodeCommand op now a = .ok i) ∨
      (op.toNat ∉ opCodes ∧ decodeCommand op now a = .error (.reservedOp op)) := by
  unfold decodeCommand
  split
  case h_22 => right; simp_all [opCodes]
  all_goals next hop => exact .inl ⟨by rw [hop]; decide, _, rfl⟩

/-- A command's instruction is written out with the op code it was read from (R87). -/
theorem encode_of_decodeCommand {op : Byte} {now : U32} {a : Args} {i : Instr} (h : decodeCommand op now a = .ok i) :
    ∃ b : Args, encode i = .command op now b := by
  have row {code : Byte} {b : Args} (hcode : op.toNat = code.toNat) :
      ∃ b', Frame.command code now b = .command op now b' := ⟨b, by rw [BitVec.eq_of_toNat_eq hcode]⟩
  unfold decodeCommand at h
  split at h <;> cases h
  all_goals exact row ‹_›

/-! ### The obligations -/

/-- Settles O4: a wire packet's fields are read back from its bytes, a command's arguments from the record. -/
theorem decodeInvertsEncode : Obligations.DecodeInvertsEncode := by
  unfold Obligations.DecodeInvertsEncode
  intro i hi
  cases i with
  | data now rx h pl => exact decode_wireBytes now rx tyData h hi
  | fin now rx h pl => exact decode_wireBytes now rx tyFin h hi
  | state now rx h pl => exact decode_wireBytes now rx tyState h hi
  | reset now rx h pl => exact decode_wireBytes now rx tyReset h hi
  | syn now rx h pl => exact decode_wireBytes now rx tySyn h hi
  | _ => rfl

/-- Settles O5: a datagram is its fields written out, and a command's op code is its row's. -/
theorem encodeInvertsDecode : Obligations.EncodeInvertsDecode := by
  unfold Obligations.EncodeInvertsDecode
  refine ⟨fun now rx B i hi => ?_, fun op now a i hi => encode_of_decodeCommand hi⟩
  rw [decode] at hi
  by_cases hlen : B.length < hdrLen
  · rw [decodeDatagram_short now rx hlen] at hi
    cases hi
  · have hlong := Nat.not_lt.1 hlen
    rw [decodeDatagram_long now rx hlong] at hi
    obtain ⟨hframe, hwf⟩ := encode_wireInstr hi
    exact ⟨hwf (payloadOk_wirePayload hlong), by rw [hframe, wireBytes_read hlong]⟩

/-- Settles O7: an op code outside the table decodes to no instruction, and its frame is refused. -/
theorem reservedOpCodesRefused : Obligations.ReservedOpCodesRefused := by
  unfold Obligations.ReservedOpCodesRefused
  intro op now a s rest
  rcases decodeCommand_cases op now a with ⟨hmem, hok⟩ | ⟨hmem, herr⟩
  · exact ⟨fun _ => hok, fun hnot => absurd hmem hnot⟩
  · refine ⟨fun hin => absurd hin hmem, fun _ => ?_⟩
    simp only [step, decode, herr, rejectFrame]
    rfl

/-- A frame that an instruction is written out as decodes to it. -/
theorem decode_of_encode_eq {f : Frame} {i : Instr} (h : encode i = f) (hi : WellFormed i) : decode f = .ok i :=
  h ▸ decodeInvertsEncode i hi

/-- Settles O6: each word is what its instruction is written out as, by R80 and R87. -/
theorem writtenWordsDecode : Obligations.WrittenWordsDecode := by
  unfold Obligations.WrittenWordsDecode
  refine ⟨decode_of_encode_eq rfl trivial, decode_of_encode_eq rfl trivial, decode_of_encode_eq rfl trivial,
    decode_of_encode_eq rfl trivial, decode_of_encode_eq rfl trivial, decode_of_encode_eq rfl trivial,
    decode_of_encode_eq rfl ?_, decode_of_encode_eq rfl ?_⟩ <;> rintro ⟨⟩

/-- Settles O51: each code is its row of R89, R224 or R228. -/
theorem outputCodes : Obligations.OutputCodes := by
  unfold Obligations.OutputCodes
  refine ⟨fun a b c d e => ⟨rfl, rfl, rfl, rfl, rfl, rfl, rfl, fun _ => rfl, rfl, rfl, rfl, rfl, rfl, rfl, rfl⟩, rfl, rfl,
    rfl, rfl, fun _ => rfl, rfl, rfl, rfl, rfl, rfl, rfl, rfl⟩

end Sys2Proof

/-! Proof of the statement about the length of emitted datagrams (30_encoding.md rule R93, 44_conn_send.md rule R167). In
order: events that fit, what each operation on one context emits, what each operation on the block emits, the
instructions, and the obligation. An operation builds short packets itself; the ones it only sends again, the cached
SYN-ACK and the entries of the outgoing ring, are short in a legal context. -/

namespace Sys2Proof.Machine

open Sys2Proof.Config

/-! ### Events that fit -/

/-- A datagram in this event is a header and at most one segment (R93). -/
def Event.Fits : Event → Prop
  | .tx _ _ b => hdrLen ≤ b.length ∧ b.length ≤ hdrLen + mtu
  | _ => True

/-- Every datagram among these events fits. -/
def AllFit (es : List Event) : Prop := ∀ e ∈ es, e.Fits

@[simp] theorem allFit_nil : AllFit [] := by simp [AllFit]

@[simp] theorem allFit_cons (e : Event) (es : List Event) : AllFit (e :: es) ↔ e.Fits ∧ AllFit es := List.forall_mem_cons

@[simp] theorem allFit_append (es fs : List Event) : AllFit (es ++ fs) ↔ AllFit es ∧ AllFit fs := List.forall_mem_append

/-- A packet with at most one segment of payload (R167). -/
def SmallPayload (p : Packet) : Prop := (p.payload.getD []).length ≤ mtu

theorem smallPayload_none (now : U32) (c : Ctx) (ty : BitVec 4) : SmallPayload (makePacket now c ty none) := Nat.zero_le _

theorem smallPayload_segment (now : U32) (c : Ctx) (ty : BitVec 4) (b : Bytes) :
    SmallPayload (makePacket now c ty (some (b.take mtu))) := List.length_take_le _ _

theorem smallPayload_of_payloadFits {p : Packet} (h : payloadFits p) : SmallPayload p := by
  unfold SmallPayload
  cases hp : p.payload with
  | none => exact Nat.zero_le _
  | some b =>
    obtain ⟨-, -, hle⟩ := h b hp
    exact hle

/-- The datagram of a short packet fits: the header is 20 bytes (R93). -/
theorem fits_tx {p : Packet} (h : SmallPayload p) (sock : Sock) (addr : Addr) :
    (Event.tx sock addr (encodePacket p)).Fits := by
  rw [Event.Fits, encodePacket, wireBytes_length]
  exact ⟨Nat.le_add_right .., Nat.add_le_add_left h _⟩

theorem CtxInv.smallPayload_out {i : Nat} {c : Ctx} (h : CtxInv i c) : ∀ e ∈ c.outRing, SmallPayload e.2.packet := by
  intro e he
  obtain ⟨-, -, hfits, -⟩ := h.outEntries e he
  exact smallPayload_of_payloadFits hfits

theorem CtxInv.smallPayload_synack {i : Nat} {c : Ctx} (h : CtxInv i c) (hr : c.role = .accept) {sa : Packet}
    (hsa : c.synack = some sa) : SmallPayload sa := by
  obtain ⟨-, -, -, -, hp⟩ := h.accepting hr
  have hnone : sa.payload = none := by
    rw [hsa] at hp
    exact congrArg Prod.snd (Option.some.inj hp)
  rw [SmallPayload, hnone]
  exact Nat.zero_le _

/-! ### Operations on one context -/

theorem transmit_fits {p : Packet} (hp : SmallPayload p) {r : Run} (h : AllFit r.ev) : AllFit (transmit p r).ev := by
  simp [h, fits_tx hp]

theorem sendOutgoing_fits {p : Packet} (hp : SmallPayload p) {r : Run} (h : AllFit r.ev) :
    AllFit (sendOutgoing p r).ev := by
  simp [h, fits_tx hp]

theorem sendAck_fits (now : U32) {r : Run} (h : AllFit r.ev) : AllFit (sendAck now r).ev :=
  transmit_fits (smallPayload_none ..) h

theorem emit_fits {r : Run} (h : AllFit r.ev) {e : Event} (he : e.Fits) : AllFit (r.emit e).ev := by
  simp [h, he]

theorem tryFin_fits (now : U32) {r : Run} (h : AllFit r.ev) : AllFit (tryFin now r).ev := by
  rcases tryFin_cases now r with ⟨-, e⟩ | ⟨-, e⟩ <;> rw [e]
  · exact h
  · simp [h, fits_tx (smallPayload_none ..)]

/-- A segment is cut to the MTU before it is sent, whatever the write (R167). -/
theorem pumpLoop_fits (now : U32) (i fuel : Nat) {r : Run} (h : AllFit r.ev) : AllFit (pumpLoop now i fuel r).ev := by
  induction fuel generalizing r with
  | zero => exact h
  | succ n ih =>
    rw [Laws.Send.pumpLoop_succ]
    split
    · exact h
    · next w _ =>
      have hsent : AllFit (Laws.Send.sendSegment now w r).ev := sendOutgoing_fits (smallPayload_segment ..) h
      split
      · exact h
      · split
        · exact tryFin_fits now (emit_fits hsent trivial)
        · exact ih hsent

theorem pump_fits (now : U32) (i : Nat) {r : Run} (h : AllFit r.ev) : AllFit (pump now i r).ev := by
  unfold pump
  split
  · exact pumpLoop_fits now i _ h
  · exact h

theorem onFlush_fits (now : U32) (i : Nat) {r : Run} (h : AllFit r.ev) : AllFit (onFlush now i r).ev := by
  rcases onFlush_cases now i r with ⟨-, e⟩ | ⟨-, e⟩ <;> rw [e]
  · exact h
  · exact pump_fits now i h

theorem recvAck_fits (now : U32) (i : Nat) (a : U16) {r : Run} (h : AllFit r.ev) : AllFit (recvAck now i a r).ev := by
  rcases recvAck_cases now i a r with ⟨-, e⟩ | ⟨-, -, -, e⟩ | ⟨-, -, -, -, e⟩ <;> rw [e]
  · exact h
  · exact h
  · exact onFlush_fits now i h

theorem deliver_fits (i : Nat) (q : Packet) {r : Run} (h : AllFit r.ev) : AllFit (deliver i q r).ev := by
  simp only [deliver_eq, allFit_append]
  refine ⟨h, ?_⟩
  split
  · exact allFit_nil
  · split
    · cases q.payload <;> simp [Event.Fits]
    · split <;> simp [Event.Fits]

theorem drainLoop_fits (i fuel : Nat) {r : Run} (h : AllFit r.ev) : AllFit (drainLoop i fuel r).ev := by
  induction fuel generalizing r with
  | zero => exact h
  | succ n ih =>
    rw [drainLoop]
    split
    · exact h
    · exact ih (deliver_fits i _ h)

theorem completeConnect_fits (now : U32) (i : Nat) (p : Packet) {r : Run} (h : AllFit r.ev) :
    AllFit (completeConnect now i p r).ev := by
  have hack := recvAck_fits now i p.ack (r := { r with ctx := { r.ctx with ack := p.seq - 1 } }) h
  refine tryFin_fits now ?_
  split
  · exact pump_fits now i (emit_fits hack trivial)
  · exact emit_fits hack trivial

theorem recvEstablished_fits (now : U32) (i : Nat) (dup : Bool) (p : Packet) {r : Run} (h : AllFit r.ev) :
    AllFit (recvEstablished now i dup p r).ev := by
  have hack := recvAck_fits now i p.ack h
  unfold recvEstablished
  split
  · exact sendAck_fits now h
  · simp only
    split
    · exact hack
    · exact sendAck_fits now (drainLoop_fits i _ hack)

theorem recvOpen_fits (now : U32) (i : Nat) (dup : Bool) (p : Packet) {r : Run} (h : AllFit r.ev) :
    AllFit (recvOpen now i dup p r).ev := by
  unfold recvOpen
  split
  · split
    · have hdone := completeConnect_fits now i p h
      simp only
      split
      · exact hdone
      · exact recvEstablished_fits now i dup _ hdone
    · exact h
  · exact recvEstablished_fits now i dup p h

theorem bindAndSyn_fits (now : U32) (port : U16) {r : Run} (h : AllFit r.ev) : AllFit (bindAndSyn now port r).ev :=
  sendOutgoing_fits (smallPayload_none ..) h

theorem requestEnd_fits (now : U32) {r : Run} (h : AllFit r.ev) : AllFit (requestEnd now r).ev := tryFin_fits now h

theorem acceptWrite_fits (now : U32) (i : Nat) (b : Bytes) {r : Run} (h : AllFit r.ev) :
    AllFit (acceptWrite now i b r).ev := by
  unfold acceptWrite
  split
  · exact emit_fits h trivial
  · split
    · exact emit_fits h trivial
    · split
      · exact h
      · exact pump_fits now i h

theorem keepAlive_fits (now : U32) {r : Run} (h : AllFit r.ev) : AllFit (keepAlive now r).ev := by
  unfold keepAlive
  split
  · exact h
  · exact sendAck_fits now h

/-- The scan sends what the outgoing ring holds, and renews tags only (R181). -/
theorem retxLoop_fits {now : U32} {refresh : Bool} {k : Nat} {q : U16} {r t : Run}
    (ht : retxLoop now refresh k q r = some t) (hout : ∀ e ∈ r.ctx.outRing, SmallPayload e.2.packet)
    (h : AllFit r.ev) : AllFit t.ev := by
  induction k generalizing q r with
  | zero => cases ht; exact h
  | succ n ih =>
    cases hg : ringGet r.ctx.outRing q with
    | none => simp [retxLoop, hg] at ht
    | some e =>
      have hsmall : SmallPayload e.packet := hout _ (mem_of_ringGet hg)
      rw [retxLoop_succ hg] at ht
      split at ht
      · refine ih ht (fun x hx => ?_) (by simp [h, fits_tx hsmall])
        split at hx
        · rcases mem_ringPut hx with rfl | hx
          · exact hsmall
          · exact hout x hx
        · exact hout x hx
      · exact ih ht hout h

/-! ### Operations on the block -/

theorem emits_fits {s : State} (h : AllFit s.events) {es : List Event} (he : AllFit es) : AllFit (s.emits es).events := by
  simp [h, he]

/-- An operation on one context, from the start of an instruction or of a round of a loop. -/
theorem runOn_fits {s : State} (h : AllFit s.events) (i : Nat) (c : Ctx) {f : Run → Run} (hf : AllFit (f ⟨c, []⟩).ev) :
    AllFit (s.runOn i c f).events := by
  simp [h, hf]

theorem listenerCloseCheck_fits {s : State} (h : AllFit s.events) : AllFit (listenerCloseCheck s).events := by
  rcases listenerCloseCheck_cases s with ⟨-, -, e⟩ | ⟨-, e⟩ <;> rw [e]
  · simp [h, Event.Fits]
  · exact h

theorem teardown_fits (i : Nat) (c : Ctx) (mode : CloseMode) {s : State} (h : AllFit s.events) :
    AllFit (teardown i c mode s).events := by
  cases hr : c.role with
  | accept =>
    rw [teardown_accept hr]
    exact listenerCloseCheck_fits (by simp [h, Event.Fits])
  | connect =>
    cases mode with
    | normal => rw [teardown_normal hr]; simp [h, Event.Fits]
    | noGrace => rw [teardown_noGrace hr]; simp [h, Event.Fits]

theorem forceClose_fits (i : Nat) (c : Ctx) (mode : CloseMode) {s : State} (h : AllFit s.events) :
    AllFit (forceClose i c mode s).events := by
  by_cases hs : c.state = .closed
  · rwa [forceClose_closed hs]
  · rw [forceClose_open hs]
    refine teardown_fits i _ mode ?_
    split
    · exact emits_fits h (by simp [Event.Fits])
    · exact h

theorem endOfOp_fits (i : Nat) {s : State} (h : AllFit s.events) : AllFit (endOfOp i s).events := by
  rcases endOfOp_cases i s with ⟨c, -, -, e⟩ | ⟨-, e⟩ <;> rw [e]
  · exact teardown_fits i _ .normal h
  · exact h

theorem lcloseSlot_fits (now : U32) (i : Nat) {s : State} (h : AllFit s.events) : AllFit (lcloseSlot now i s).events := by
  unfold lcloseSlot
  split
  · next c _ =>
    split
    · refine endOfOp_fits i ?_
      split
      · exact runOn_fits h i c (requestEnd_fits now allFit_nil)
      · exact h
    · exact h
  · exact h

theorem failSlot_fits (i : Nat) {s : State} (h : AllFit s.events) : AllFit (failSlot i s).events := by
  unfold failSlot
  split
  · split
    · exact forceClose_fits i _ _ (emits_fits h (by simp [Event.Fits]))
    · exact h
  · exact h

/-- A loop over the table emits what its rounds emit. -/
theorem foldl_fits {f : State → Nat → State} (hf : ∀ s i, AllFit s.events → AllFit (f s i).events) (l : List Nat)
    {s : State} (h : AllFit s.events) : AllFit (l.foldl f s).events := by
  induction l generalizing s with
  | nil => exact h
  | cons i l ih => exact ih (hf s i h)

/-- Receive processing sends a cached SYN-ACK again, or packets of its own (R140, R142). -/
theorem recvIncoming_fits {now : U32} {i : Nat} {c : Ctx} {p : Packet} {s : State} {r : Received} (hc : CtxInv i c)
    (h : AllFit s.events) (hr : recvIncoming now i c p s = .ok r) : AllFit r.state.events := by
  by_cases hs : c.state = .closed
  · rw [recvIncoming_closed hs] at hr; cases hr; exact h
  by_cases hsyn : p.type = tySyn
  · cases hrole : c.role with
    | connect => rw [recvIncoming_syn_connect hsyn hrole] at hr; cases hr; exact h
    | accept =>
      cases hsa : c.synack with
      | none => simp [recvIncoming, hs, hsyn, hrole, hsa] at hr
      | some sa =>
        rw [recvIncoming_syn hs hsyn hrole hsa] at hr
        cases hr
        exact runOn_fits h i c (transmit_fits (hc.smallPayload_synack hrole hsa) allFit_nil)
  by_cases hres : p.type = tyReset
  · rw [recvIncoming_reset hs hres] at hr
    cases hr
    refine forceClose_fits i _ _ ?_
    split
    · exact h
    · exact emits_fits h (by simp [Event.Fits])
  · rw [recvIncoming_open hs hsyn hres] at hr
    cases hr
    exact runOn_fits h i c (recvOpen_fits now i _ p allFit_nil)

/-! ### Instructions -/

/-- Every datagram that this answer emits fits. -/
def AnswerFits (a : Answer) : Prop := ∀ t, a = .next t → AllFit t.events

theorem answerFits_answer {s : State} (h : AllFit s.events) {st : Status} {v : Value} : AnswerFits (s.answer st v) := by
  rintro _ ⟨⟩
  exact h

/-- BADCONN, a refusal, a result without an event, a discard. -/
theorem answerFits_outputs {s : State} {st : Status} {v : Value} : AnswerFits (s.start.answer st v) :=
  answerFits_answer allFit_nil

theorem answerFits_surface {s : State} {sock : Sock} {addr : Addr} {raw : Bytes} :
    AnswerFits (s.start.surface sock addr raw) :=
  answerFits_answer (by simp [Event.Fits])

theorem answerFits_fault {f : Fault} : AnswerFits (.fault f) := by rintro _ ⟨⟩

/-- An operation on one context that ends with the test of the latch. -/
theorem answerFits_runOn (s : State) (i : Nat) (c : Ctx) {f : Run → Run} (hf : AllFit (f ⟨c, []⟩).ev) :
    AnswerFits (endOfOp i (s.start.runOn i c f)).done :=
  answerFits_answer (endOfOp_fits i (runOn_fits allFit_nil i c hf))

theorem execDecode_fits (now : U32) (b : Bytes) (s : State) : AnswerFits (execDecode now b s) := by
  unfold execDecode
  split <;> exact answerFits_outputs

theorem execListen_fits (now : U32) (s : State) : AnswerFits (execListen now s) := by
  unfold execListen
  split
  · exact answerFits_answer (s := { s.start with lstate := .listening }) allFit_nil
  · exact answerFits_outputs

theorem execLclose_fits (now : U32) (s : State) : AnswerFits (execLclose now s) := by
  unfold execLclose
  split
  · exact answerFits_answer (listenerCloseCheck_fits
      (foldl_fits (fun t i => lcloseSlot_fits now i) _ (s := { s.start with lstate := .shutting }) allFit_nil))
  · exact answerFits_outputs

theorem execConnect_fits (now : U32) (addr : Addr) (isn : U16) (s : State) : AnswerFits (execConnect now addr isn s) := by
  unfold execConnect
  split
  · exact answerFits_outputs
  · exact answerFits_answer (by simp [Event.Fits])

theorem execBound_fits (now : U32) (c : Nat) (port : U16) (s : State) : AnswerFits (execBound now c port s) := by
  unfold execBound
  split
  · exact answerFits_outputs
  · split
    · exact answerFits_outputs
    · exact answerFits_runOn s c _ (bindAndSyn_fits now port allFit_nil)

theorem execEndWrite_fits (now : U32) (c : Nat) (s : State) : AnswerFits (execEndWrite now c s) := by
  unfold execEndWrite
  split
  · exact answerFits_outputs
  · split
    · exact answerFits_outputs
    · exact answerFits_runOn s c _ (requestEnd_fits now allFit_nil)

theorem execReadEnd_fits (now : U32) (c : Nat) (s : State) : AnswerFits (execReadEnd now c s) := by
  unfold execReadEnd
  split
  · exact answerFits_outputs
  · split
    · exact answerFits_outputs
    · exact answerFits_answer (endOfOp_fits c allFit_nil)

theorem execWrite_fits (now : U32) (c : Nat) (b : Bytes) (s : State) : AnswerFits (execWrite now c b s) := by
  unfold execWrite
  split
  · exact answerFits_outputs
  · split
    · exact answerFits_outputs
    · exact answerFits_runOn s c _ (acceptWrite_fits now c b allFit_nil)

theorem execGraceExpired_fits (now : U32) (c : Nat) (s : State) : AnswerFits (execGraceExpired now c s) := by
  unfold execGraceExpired
  split
  · exact answerFits_outputs
  · split
    · exact answerFits_outputs
    · exact answerFits_answer (by simp [Event.Fits])

theorem execSockErr_fits (now : U32) (sock : Sock) (s : State) : AnswerFits (execSockErr now sock s) := by
  cases sock with
  | lsock =>
    simp only [execSockErr]
    split
    · exact answerFits_outputs
    · exact answerFits_answer (emits_fits (foldl_fits (fun t i => failSlot_fits i) _
        (s := { s.start.emits [.evError .listener .errSocket] with lstate := .idle }) (by simp [Event.Fits]))
        (by simp [Event.Fits]))
  | psock i =>
    simp only [execSockErr]
    split
    · exact answerFits_outputs
    · split
      · exact answerFits_answer (forceClose_fits i _ _ (by simp [Event.Fits]))
      · split
        · exact answerFits_answer (by simp [Event.Fits])
        · exact answerFits_outputs

theorem execCtxRead_fits (now : U32) (c : Nat) (r : Byte) (s : State) : AnswerFits (execCtxRead now c r s) := by
  unfold execCtxRead
  split
  · exact answerFits_outputs
  · split <;> exact answerFits_outputs

theorem execGlbRead_fits (now : U32) (r : Byte) (s : State) : AnswerFits (execGlbRead now r s) := by
  unfold execGlbRead
  split <;> exact answerFits_outputs

theorem execRingPeek_fits (now : U32) (c : Nat) (which : Byte) (q : U16) (s : State) :
    AnswerFits (execRingPeek now c which q s) := by
  unfold execRingPeek
  split
  · exact answerFits_outputs
  · split <;> exact answerFits_outputs

theorem execTickKa_fits (now : U32) (c : Nat) (s : State) : AnswerFits (execTickKa now c s) := by
  unfold execTickKa
  split
  · exact answerFits_outputs
  · next x _ =>
    split
    · exact answerFits_answer (runOn_fits allFit_nil c x (keepAlive_fits now allFit_nil))
    · exact answerFits_outputs

section Legal

variable {s : State} (hs : EngineInv s)
include hs

theorem execTickRetx_fits (now : U32) (c : Nat) : AnswerFits (execTickRetx now c s) := by
  unfold execTickRetx
  split
  · exact answerFits_outputs
  · next x hx =>
    split
    · exact answerFits_outputs
    · split
      · exact answerFits_fault
      · split
        · split
          · exact answerFits_fault
          · next r hr =>
            exact answerFits_answer (runOn_fits allFit_nil c x (f := fun _ => r)
              (retxLoop_fits hr (hs.ctx c x hx).smallPayload_out allFit_nil))
        · exact answerFits_outputs

theorem afterReceive_fits {i : Nat} {c : Ctx} (hc : s.ctx? i = some c) (now : U32) (sock : Sock) (addr : Addr)
    (raw : Bytes) (p : Packet) : AnswerFits (afterReceive i sock addr raw (recvIncoming now i c p s.start)) := by
  cases hr : recvIncoming now i c p s.start with
  | error f => exact answerFits_fault
  | ok r =>
    have hrecv := recvIncoming_fits (hs.ctx i c hc) allFit_nil hr
    refine answerFits_answer (endOfOp_fits i ?_)
    split
    · exact hrecv
    · exact emits_fits hrecv (by simp [Event.Fits])

theorem routeListener_fits (now : U32) (addr : Addr) (raw : Bytes) (isn : U16) (p : Packet) :
    AnswerFits (routeListener now addr raw isn p s) := by
  unfold routeListener
  split
  · split
    · next hc => exact afterReceive_fits hs hc now .lsock addr raw p
    · exact answerFits_surface
  · split
    · exact answerFits_surface
    · split
      · exact answerFits_surface
      · split
        · exact answerFits_surface
        · rw [acceptCreate_eq]
          exact answerFits_answer (emits_fits allFit_nil
            (by simp only [allFit_cons]; exact ⟨trivial, fits_tx (smallPayload_none ..) _ _, trivial, allFit_nil⟩))

theorem routePrivate_fits {c : Nat} {x : Ctx} (hc : s.ctx? c = some x) (now : U32) (addr : Addr) (raw : Bytes)
    (p : Packet) : AnswerFits (routePrivate now c x addr raw p s) := by
  unfold routePrivate
  split
  · exact answerFits_outputs
  · split
    · exact answerFits_surface
    · exact afterReceive_fits hs hc now (.psock c) addr raw p

theorem receiveWire_fits (now : U32) (rx : Rx) (raw : Bytes) (p : Packet) : AnswerFits (receiveWire now rx raw p s) := by
  cases rx with
  | lsock addr isn => exact routeListener_fits hs now addr raw isn p
  | psock c addr =>
    simp only [receiveWire]
    split
    · exact answerFits_outputs
    · next hx =>
      split
      · exact answerFits_outputs
      · exact routePrivate_fits hs (connectCtx?_eq_some.1 hx).1 now addr raw p

theorem execDgramL_fits (now : U32) (addr : Addr) (b : Bytes) (isn : U16) : AnswerFits (execDgramL now addr b isn s) := by
  unfold execDgramL
  split
  · exact answerFits_outputs
  · split
    · exact answerFits_surface
    · exact routeListener_fits hs now addr b isn _

theorem execDgramP_fits (now : U32) (c : Nat) (addr : Addr) (b : Bytes) : AnswerFits (execDgramP now c addr b s) := by
  unfold execDgramP
  split
  · exact answerFits_outputs
  · next hx =>
    split
    · exact answerFits_outputs
    · split
      · exact answerFits_outputs
      · split
        · exact answerFits_surface
        · exact routePrivate_fits hs (connectCtx?_eq_some.1 hx).1 now addr b _

theorem exec_fits (op : Instr) : AnswerFits (exec op s) := by
  cases op with
  | data now rx hd pl => exact receiveWire_fits hs now rx _ _
  | fin now rx hd pl => exact receiveWire_fits hs now rx _ _
  | state now rx hd pl => exact receiveWire_fits hs now rx _ _
  | reset now rx hd pl => exact receiveWire_fits hs now rx _ _
  | syn now rx hd pl => exact receiveWire_fits hs now rx _ _
  | encode now p => exact answerFits_outputs
  | decode now b => exact execDecode_fits now b s
  | ringPut now q v => exact answerFits_answer (s := { s.start with tring := ringPut s.tring q v }) allFit_nil
  | ringGet now q => exact answerFits_outputs
  | ringDel now q => exact answerFits_answer (s := { s.start with tring := ringDel s.tring q }) allFit_nil
  | listen now => exact execListen_fits now s
  | lclose now => exact execLclose_fits now s
  | dgramL now addr b isn => exact execDgramL_fits hs now addr b isn
  | connect now addr isn => exact execConnect_fits now addr isn s
  | bound now c port => exact execBound_fits now c port s
  | dgramP now c addr b => exact execDgramP_fits hs now c addr b
  | graceExpired now c => exact execGraceExpired_fits now c s
  | write now c b => exact execWrite_fits now c b s
  | endWrite now c => exact execEndWrite_fits now c s
  | readEnd now c => exact execReadEnd_fits now c s
  | tickRetx now c => exact execTickRetx_fits hs now c
  | tickKa now c => exact execTickKa_fits now c s
  | sockErr now sock => exact execSockErr_fits now sock s
  | ctxRead now c r => exact execCtxRead_fits now c r s
  | glbRead now r => exact execGlbRead_fits now r s
  | ringPeek now c which q => exact execRingPeek_fits now c which q s

end Legal

/-! ### The obligation -/

/-- Settles O56: everything an instruction emits from a legal state fits. -/
theorem emittedDatagramsFitTheMtu : Obligations.EmittedDatagramsFitTheMtu := by
  unfold Obligations.EmittedDatagramsFitTheMtu
  intro op s t sock addr b hs ht hmem
  exact exec_fits hs op t ht _ hmem

end Sys2Proof.Machine

/-! Proofs of the statements about the codec commands (40_codec.md rules R100 to R104). In order: fields written as the
spec's big-endian bytes, fields read as the spec's big-endian numbers, byte 0, a packet encoded and a byte string
decoded, the commands, and the obligations. -/

namespace Sys2Proof

open Sys2Proof.Config Sys2Proof.Machine

/-! ### Fields written big-endian (R14, R100) -/

/-- The two bytes stored are the two low bytes of the number. -/
theorem bytes16_ofNat (n : Nat) : bytes16 (BitVec.ofNat 16 n) = bigEndian 2 n := by
  have hhigh : (BitVec.ofNat 16 n).extractLsb' 8 8 = BitVec.ofNat 8 (n / 256) := by
    apply BitVec.eq_of_toNat_eq
    simp only [BitVec.extractLsb'_toNat, BitVec.toNat_ofNat, Nat.shiftRight_eq_div_pow]
    omega
  have hlow : (BitVec.ofNat 16 n).extractLsb' 0 8 = BitVec.ofNat 8 n := by
    apply BitVec.eq_of_toNat_eq
    simp only [BitVec.extractLsb'_toNat, BitVec.toNat_ofNat, Nat.shiftRight_zero]
    omega
  rw [bytes16, hhigh, hlow]
  simp [bigEndian, List.range_succ]

/-- Four bytes are the two bytes of the high half and then those of the low half. -/
theorem bigEndian_four (n : Nat) : bigEndian 4 n = bigEndian 2 (n / 2 ^ 16) ++ bigEndian 2 n := by
  simp [bigEndian, List.range_succ, Nat.div_div_eq_div_mul]

theorem bytes16_eq_bigEndian (v : U16) : bytes16 v = bigEndian 2 v.toNat := by
  rw [← bytes16_ofNat, BitVec.ofNat_toNat, BitVec.setWidth_eq]

theorem bytes32_eq_bigEndian (v : U32) : bytes32 v = bigEndian 4 v.toNat := by
  rw [bigEndian_four, ← bytes16_ofNat, ← bytes16_ofNat, ← Nat.shiftRight_eq_div_pow]
  rfl

/-! ### Fields read big-endian (R14, R101) -/

/-- A concatenation as a number: the left part is the more significant one. -/
theorem toNat_append_eq_mul_add {m n : Nat} (x : BitVec m) (y : BitVec n) :
    (x ++ y).toNat = x.toNat * 2 ^ n + y.toNat := by
  rw [BitVec.toNat_append, ← Nat.shiftLeft_add_eq_or_of_lt y.isLt, Nat.shiftLeft_eq]

/-- `n` bytes and one more: the last one is the least significant. -/
theorem bigEndianAt_succ {B : Bytes} {o n : Nat} (h : o + n < B.length) :
    bigEndianAt B o (n + 1) = bigEndianAt B o n * 256 + (byteAt B (o + n)).toNat := by
  rw [bigEndianAt, List.take_add, List.drop_drop, List.foldl_append, ← byteAt_cons_drop h]
  rfl

theorem toNat_memRead16 {B : Bytes} {o : Nat} (h : o + 2 ≤ B.length) : (memRead16 B o).toNat = bigEndianAt B o 2 := by
  rw [memRead16, toNat_append_eq_mul_add, bigEndianAt_succ (by omega), bigEndianAt_succ (by omega)]
  simp [bigEndianAt]

theorem toNat_memRead32 {B : Bytes} {o : Nat} (h : o + 4 ≤ B.length) : (memRead32 B o).toNat = bigEndianAt B o 4 := by
  rw [memRead32, toNat_append_eq_mul_add, toNat_memRead16 (by omega), memRead16, toNat_append_eq_mul_add,
    bigEndianAt_succ (n := 3) (by omega), bigEndianAt_succ (n := 2) (by omega)]
  simp only [Nat.add_assoc, Nat.reduceAdd]
  omega

/-! ### Byte 0 (R81) -/

/-- The byte that ENCODE writes for a type code: the code in the high nibble, the version 1 in the low one. -/
theorem append_version (ty : BitVec 4) : (ty ++ version : Byte) = BitVec.ofNat 8 (ty.toNat * 16 + 1) := by
  apply BitVec.eq_of_toNat_eq
  have hlt := ty.isLt
  rw [toNat_append_eq_mul_add, BitVec.toNat_ofNat, Nat.mod_eq_of_lt (by omega)]
  rfl

theorem toNat_wireType (B : Bytes) : (wireType B).toNat = (B.getD 0 0).toNat / 16 := by
  have hlt := (byteAt B 0).isLt
  rw [wireType, BitVec.extractLsb'_toNat, Nat.shiftRight_eq_div_pow]
  exact Nat.mod_eq_of_lt (by omega)

/-- Writing version 1 into the low nibble changes no byte that has it already, and every other one. -/
theorem ofNat_nibble_one_eq_iff (b : Byte) : BitVec.ofNat 8 (b.toNat / 16 * 16 + 1) = b ↔ b.toNat % 16 = 1 := by
  have hlt := b.isLt
  rw [← BitVec.toNat_inj, BitVec.toNat_ofNat]
  omega

/-! ### A packet encoded, a byte string decoded -/

/-- The bytes of R100, each field as the spec writes it. -/
theorem encodePacket_eq_bigEndian (p : Packet) :
    encodePacket p =
      [BitVec.ofNat 8 (p.type.toNat * 16 + 1), 0] ++ bigEndian 2 p.conn.toNat ++ bigEndian 4 p.ts.toNat ++
        bigEndian 4 p.tdiff.toNat ++ bigEndian 4 p.wnd.toNat ++ bigEndian 2 p.seq.toNat ++ bigEndian 2 p.ack.toNat ++
        p.payload.getD [] := by
  simp only [← bytes16_eq_bigEndian, ← bytes32_eq_bigEndian, ← append_version]
  rfl

theorem length_encodePacket (p : Packet) : (encodePacket p).length = 20 + (p.payload.getD []).length :=
  wireBytes_length p.type p.header p.payload

/-- Decoding inverts encoding (R102). -/
theorem decodePacket_encodePacket {p : Packet} (hp : payloadOk p.payload) : decodePacket (encodePacket p) = some p :=
  decodePacket_wireBytes p.type p.header hp

/-- The packet record that a byte string of at least 20 bytes holds. -/
def packetIn (B : Bytes) : Packet := packetOf (wireType B) (wireHeader B) (wirePayload B)

theorem decodePacket_short {B : Bytes} (h : B.length < 20) : decodePacket B = none := if_pos h

theorem decodePacket_long {B : Bytes} (h : 20 ≤ B.length) : decodePacket B = some (packetIn B) :=
  if_neg (Nat.not_lt.2 h)

/-- The payload of a packet is none exactly when the datagram is a bare header (R84). -/
theorem wirePayload_eq_none_iff (B : Bytes) : wirePayload B = none ↔ B.length = 20 := by
  unfold wirePayload
  split
  · next h => exact iff_of_true rfl h
  · next h => exact iff_of_false (Option.some_ne_none _) h

/-- What re-encoding leaves: everything but the version nibble and the extension byte (R102). -/
theorem encodePacket_packetIn {B : Bytes} (h : 20 ≤ B.length) :
    encodePacket (packetIn B) = BitVec.ofNat 8 ((B.getD 0 0).toNat / 16 * 16 + 1) :: 0 :: B.drop 2 :=
  calc encodePacket (packetIn B)
    _ = (wireType B ++ version : Byte) :: 0 :: (wireBytes (wireType B) (wireHeader B) (wirePayload B)).drop 2 := rfl
    _ = BitVec.ofNat 8 ((B.getD 0 0).toNat / 16 * 16 + 1) :: 0 :: B.drop 2 := by
      rw [wireBytes_read h, append_version, toNat_wireType]

/-- Re-encoding gives the byte string back exactly when it has the version and extension that ENCODE writes (R102). -/
theorem encodePacket_packetIn_eq_iff {B : Bytes} (h : 20 ≤ B.length) :
    encodePacket (packetIn B) = B ↔ (B.getD 0 0).toNat % 16 = 1 ∧ B.getD 1 0 = 0 := by
  have hB : B.getD 0 0 :: B.getD 1 0 :: B.drop 2 = B := by
    change byteAt B 0 :: byteAt B 1 :: B.drop 2 = B
    rw [byteAt_cons_drop (o := 1) (by omega), byteAt_cons_drop (o := 0) (by omega), List.drop_zero]
  calc encodePacket (packetIn B) = B
    _ ↔ BitVec.ofNat 8 ((B.getD 0 0).toNat / 16 * 16 + 1) :: 0 :: B.drop 2 = B.getD 0 0 :: B.getD 1 0 :: B.drop 2 := by
      rw [hB, encodePacket_packetIn h]
    _ ↔ BitVec.ofNat 8 ((B.getD 0 0).toNat / 16 * 16 + 1) = B.getD 0 0 ∧ B.getD 1 0 = 0 := by
      rw [List.cons.injEq, List.cons.injEq, eq_self, and_true, eq_comm (a := 0)]
    _ ↔ (B.getD 0 0).toNat % 16 = 1 ∧ B.getD 1 0 = 0 := and_congr_left' (ofNat_nibble_one_eq_iff _)

/-! ### The commands -/

theorem exec_encode (now : U32) (p : Packet) (s : State) :
    exec (.encode now p) s = .next (s.unchanged [] .ok (.bytes (encodePacket p))) := rfl

theorem exec_decode_short (now : U32) {B : Bytes} (s : State) (h : B.length < 20) :
    exec (.decode now B) s = .next (s.unchanged [] .short .none) := by
  simp only [exec, execDecode, decodePacket_short h]
  rfl

theorem exec_decode_long (now : U32) {B : Bytes} (s : State) (h : 20 ≤ B.length) :
    exec (.decode now B) s = .next (s.unchanged [] .ok (.packet (packetIn B))) := by
  simp only [exec, execDecode, decodePacket_long h]
  rfl

/-! ### The obligations -/

/-- Settles O1: the encoded packet is the answer, and its fields are stored big-endian. -/
theorem encodeWritesHeaderAndPayload : Obligations.EncodeWritesHeaderAndPayload := by
  unfold Obligations.EncodeWritesHeaderAndPayload
  intro now p s
  rw [exec_encode, encodePacket_eq_bigEndian]

/-- Settles O2: the length decides, and each field is read from its own offset. -/
theorem decodeReadsHeaderAndPayload : Obligations.DecodeReadsHeaderAndPayload := by
  unfold Obligations.DecodeReadsHeaderAndPayload
  refine fun now B s => ⟨exec_decode_short now s, fun h => ⟨packetIn B, exec_decode_long now s h, toNat_wireType B, ?_⟩⟩
  exact ⟨toNat_memRead16 (by omega), toNat_memRead32 (by omega), toNat_memRead32 (by omega), toNat_memRead32 (by omega),
    toNat_memRead16 (by omega), toNat_memRead16 (by omega), rfl⟩

/-- Settles O3: the payload is what follows the header, and only byte 0 and byte 1 of a byte string are not held. -/
theorem codecRoundTripAndLengths : Obligations.CodecRoundTripAndLengths := by
  unfold Obligations.CodecRoundTripAndLengths
  refine ⟨length_encodePacket, fun p => decodePacket_encodePacket, fun B h => ⟨packetIn B, decodePacket_long h, ?_⟩⟩
  have hlen : ((packetIn B).payload.getD []).length = B.length - 20 := by
    rw [← List.length_drop, ← wirePayload_getD]
    rfl
  exact ⟨hlen, wirePayload_eq_none_iff B, encodePacket_packetIn_eq_iff h, encodePacket_packetIn h⟩

end Sys2Proof

/-! Proofs of the statements about the test ring (41_ring.md rules R110 to R119). In order: what the three ring commands
answer; that every operation commutes with putting another test ring in the block (`State.withTring`), first on the
block, then for the instructions; the obligations. -/

namespace Sys2Proof.Machine

open Sys2Proof.Config

/-! ### The ring commands (R116 to R118) -/

theorem exec_ringPut (now : U32) (q : U16) (v : Item) (s : State) :
    exec (.ringPut now q v) s = .next { s.unchanged [] .ok .none with tring := ringPut s.tring q v } := rfl

theorem exec_ringGet (now : U32) (q : U16) (s : State) :
    exec (.ringGet now q) s = .next (s.unchanged [] .ok (.item (ringGet s.tring q))) := rfl

theorem exec_ringDel (now : U32) (q : U16) (s : State) :
    exec (.ringDel now q) s =
      .next { s.unchanged [] .ok (.item (ringGet s.tring q)) with tring := ringDel s.tring q } := rfl

/-- Two sequence numbers name one slot when they are equal modulo 512 (R110). -/
theorem ringIx_eq_iff (q t : U16) : ringIx q = ringIx t ↔ t.toNat % 512 = q.toNat % 512 := eq_comm

/-- Sequence numbers 512 apart read one slot (R114). -/
theorem ringGet_add_mul {α : Type} (r : Ring α) (q : U16) (k : Nat) :
    ringGet r (q + BitVec.ofNat 16 (512 * k)) = ringGet r q := by
  rw [ringGet, ringIx_add_mul, ← ringGet]

/-! ### Another test ring in the block -/

/-- The block with the test ring `r`. -/
def State.withTring (s : State) (r : Ring Item) : State := { s with tring := r }

/-- An answer with the test ring `r` in its next state. -/
def answerWithTring (r : Ring Item) : Answer → Answer
  | .next t => .next (t.withTring r)
  | .fault f => .fault f
  | .refused e => .refused e

@[simp] theorem withTring_tring (s : State) (r : Ring Item) : (s.withTring r).tring = r := rfl
@[simp] theorem withTring_slots (s : State) (r : Ring Item) : (s.withTring r).slots = s.slots := rfl
@[simp] theorem withTring_lstate (s : State) (r : Ring Item) : (s.withTring r).lstate = s.lstate := rfl
@[simp] theorem withTring_dup (s : State) (r : Ring Item) : (s.withTring r).dupAtCursorStale = s.dupAtCursorStale := rfl
@[simp] theorem withTring_ctx? (s : State) (r : Ring Item) (i : Nat) : (s.withTring r).ctx? i = s.ctx? i := rfl
@[simp] theorem withTring_freeSlot? (s : State) (r : Ring Item) : (s.withTring r).freeSlot? = s.freeSlot? := rfl
@[simp] theorem withTring_lookup (s : State) (r : Ring Item) (addr : Addr) (eff : U16) :
    (s.withTring r).lookup addr eff = s.lookup addr eff := rfl
@[simp] theorem withTring_register (s : State) (r : Ring Item) (n : Byte) :
    (s.withTring r).register n = s.register n := rfl

/-! The updates that the operations are made of commute with it. -/

@[simp] theorem start_withTring (s : State) (r : Ring Item) : (s.withTring r).start = s.start.withTring r := rfl
@[simp] theorem emits_withTring (s : State) (r : Ring Item) (es : List Event) :
    (s.withTring r).emits es = (s.emits es).withTring r := rfl
@[simp] theorem setSlot_withTring (s : State) (r : Ring Item) (i : Nat) (o : Option Ctx) :
    (s.withTring r).setSlot i o = (s.setSlot i o).withTring r := rfl
@[simp] theorem runOn_withTring (s : State) (r : Ring Item) (i : Nat) (c : Ctx) (f : Run → Run) :
    (s.withTring r).runOn i c f = (s.runOn i c f).withTring r := rfl

theorem answer_withTring (s : State) (r : Ring Item) (st : Status) (v : Value) :
    (s.withTring r).answer st v = answerWithTring r (s.answer st v) := rfl
theorem done_withTring (s : State) (r : Ring Item) : (s.withTring r).done = answerWithTring r s.done := rfl
theorem badConn_withTring (s : State) (r : Ring Item) : (s.withTring r).badConn = answerWithTring r s.badConn := rfl
theorem refuse_withTring (s : State) (r : Ring Item) (e : Reason) :
    (s.withTring r).refuse e = answerWithTring r (s.refuse e) := rfl
theorem discard_withTring (s : State) (r : Ring Item) : (s.withTring r).discard = answerWithTring r s.discard := rfl
theorem surface_withTring (s : State) (r : Ring Item) (sock : Sock) (addr : Addr) (raw : Bytes) :
    (s.withTring r).surface sock addr raw = answerWithTring r (s.surface sock addr raw) := rfl

/-! ### Operations on the block -/

theorem listenerCloseCheck_withTring (s : State) (r : Ring Item) :
    listenerCloseCheck (s.withTring r) = (listenerCloseCheck s).withTring r := by
  unfold listenerCloseCheck
  rw [withTring_lstate, withTring_slots]
  split <;> rfl

theorem teardown_withTring (i : Nat) (c : Ctx) (mode : CloseMode) (s : State) (r : Ring Item) :
    teardown i c mode (s.withTring r) = (teardown i c mode s).withTring r := by
  cases hr : c.role with
  | accept => simp only [teardown_accept hr, emits_withTring, setSlot_withTring, listenerCloseCheck_withTring]
  | connect =>
    cases mode with
    | normal => simp only [teardown_normal hr, setSlot_withTring, emits_withTring]
    | noGrace => simp only [teardown_noGrace hr, setSlot_withTring, emits_withTring]

theorem forceClose_withTring (i : Nat) (c : Ctx) (mode : CloseMode) (s : State) (r : Ring Item) :
    forceClose i c mode (s.withTring r) = (forceClose i c mode s).withTring r := by
  by_cases h : c.state = .closed
  · rw [forceClose_closed h, forceClose_closed h]
  · rw [forceClose_open h, forceClose_open h, emits_withTring, ← apply_ite (State.withTring · r),
      teardown_withTring]

theorem endOfOp_withTring (i : Nat) (s : State) (r : Ring Item) :
    endOfOp i (s.withTring r) = (endOfOp i s).withTring r := by
  simp only [endOfOp, withTring_ctx?]
  split
  · split
    · exact teardown_withTring ..
    · rfl
  · rfl

theorem acceptCreate_withTring (now : U32) (i : Nat) (addr : Addr) (p : Packet) (isn : U16) (s : State)
    (r : Ring Item) : acceptCreate now i addr p isn (s.withTring r) = (acceptCreate now i addr p isn s).withTring r := rfl

theorem lcloseSlot_withTring (now : U32) (i : Nat) (s : State) (r : Ring Item) :
    lcloseSlot now i (s.withTring r) = (lcloseSlot now i s).withTring r := by
  simp only [lcloseSlot, withTring_ctx?]
  split
  · split
    · rw [runOn_withTring, ← apply_ite (State.withTring · r), endOfOp_withTring]
    · rfl
  · rfl

theorem failSlot_withTring (i : Nat) (s : State) (r : Ring Item) :
    failSlot i (s.withTring r) = (failSlot i s).withTring r := by
  simp only [failSlot, withTring_ctx?]
  split
  · split
    · rw [emits_withTring, forceClose_withTring]
    · rfl
  · rfl

/-- A loop over the table whose rounds commute with it. -/
theorem foldl_withTring {f : Nat → State → State} {r : Ring Item}
    (hf : ∀ s i, f i (s.withTring r) = (f i s).withTring r) (l : List Nat) (s : State) :
    l.foldl (fun t i => f i t) (s.withTring r) = (l.foldl (fun t i => f i t) s).withTring r :=
  List.foldl_hom (State.withTring · r) hf

/-- Dispatch to the context of a slot, whatever receive processing finds there (R140, R192, R198). -/
theorem afterReceive_withTring (now : U32) (i : Nat) (c : Ctx) (sock : Sock) (addr : Addr) (raw : Bytes) (p : Packet)
    (s : State) (r : Ring Item) :
    afterReceive i sock addr raw (recvIncoming now i c p (s.withTring r)) =
      answerWithTring r (afterReceive i sock addr raw (recvIncoming now i c p s)) := by
  by_cases hs : c.state = .closed
  · simp only [recvIncoming_closed hs, afterReceive_unhandled, emits_withTring, endOfOp_withTring, done_withTring]
  by_cases hsyn : p.type = tySyn
  · cases hr : c.role with
    | connect =>
      simp only [recvIncoming_syn_connect hsyn hr, afterReceive_unhandled, emits_withTring, endOfOp_withTring,
        done_withTring]
    | accept =>
      cases hsa : c.synack with
      | none => simp only [recvIncoming, if_neg hs, if_pos hsyn, hr, hsa]; rfl
      | some sa =>
        simp only [recvIncoming_syn hs hsyn hr hsa, afterReceive_handled, runOn_withTring, endOfOp_withTring,
          done_withTring]
  by_cases hres : p.type = tyReset
  · simp only [recvIncoming_reset hs hres, afterReceive_handled, emits_withTring, ← apply_ite (State.withTring · r),
      forceClose_withTring, endOfOp_withTring, done_withTring]
  · simp only [recvIncoming_open hs hsyn hres, afterReceive_handled, withTring_dup, runOn_withTring, endOfOp_withTring,
      done_withTring]

/-! ### Instructions -/

/-- An operation at a named slot (R73). -/
theorem SlotOp.run_withTring (c : Nat) (o : SlotOp) (s : State) (r : Ring Item) :
    o.run c (s.withTring r) = answerWithTring r (o.run c s) := by
  cases o with
  | outputs es st v => rfl
  | put o es => rfl
  | operate d es =>
    simp only [run_operate, start_withTring, setSlot_withTring, emits_withTring, endOfOp_withTring, done_withTring]
  | force d mode es => simp only [run_force, start_withTring, emits_withTring, forceClose_withTring, done_withTring]
  | stop f => rfl

/-- An instruction that names a context chooses its operation without the test ring, and no operation reads it. -/
theorem exec_withTring_of_named {op : Instr} {c : Nat} (hop : handleOf op = some c) (s : State) (r : Ring Item) :
    exec op (s.withTring r) = answerWithTring r (exec op s) := by
  cases hc : s.ctx? c with
  | none => rw [exec_badConn hop hc, exec_badConn hop (s := s.withTring r) hc, badConn_withTring]
  | some x =>
    obtain ⟨o, -, hexec⟩ := exec_decided hop x s.dupAtCursorStale s.retxTagRefresh
    rw [hexec s hc rfl rfl, hexec (s.withTring r) hc rfl rfl, SlotOp.run_withTring]

/-- The listener's path (R192 to R195). -/
theorem routeListener_withTring (now : U32) (addr : Addr) (raw : Bytes) (isn : U16) (p : Packet) (s : State)
    (r : Ring Item) :
    routeListener now addr raw isn p (s.withTring r) = answerWithTring r (routeListener now addr raw isn p s) := by
  unfold routeListener
  rw [withTring_lookup, withTring_lstate, withTring_freeSlot?, start_withTring]
  simp only [withTring_ctx?]
  split
  · split
    · exact afterReceive_withTring ..
    · exact surface_withTring ..
  · split
    · exact surface_withTring ..
    · split
      · exact surface_withTring ..
      · split
        · exact surface_withTring ..
        · rw [acceptCreate_withTring, done_withTring]

/-- A wire packet that names no context arrived on the listener socket. -/
theorem receiveWire_withTring {rx : Rx} (hrx : socketHandle rx = none) (now : U32) (raw : Bytes) (p : Packet)
    (s : State) (r : Ring Item) :
    receiveWire now rx raw p (s.withTring r) = answerWithTring r (receiveWire now rx raw p s) := by
  cases rx with
  | lsock addr isn => exact routeListener_withTring ..
  | psock c addr => cases hrx

theorem execDgramL_withTring (now : U32) (addr : Addr) (b : Bytes) (isn : U16) (s : State) (r : Ring Item) :
    execDgramL now addr b isn (s.withTring r) = answerWithTring r (execDgramL now addr b isn s) := by
  simp only [execDgramL, start_withTring]
  split
  · exact discard_withTring ..
  · split
    · exact surface_withTring ..
    · exact routeListener_withTring ..

theorem execDecode_withTring (now : U32) (b : Bytes) (s : State) (r : Ring Item) :
    execDecode now b (s.withTring r) = answerWithTring r (execDecode now b s) := by
  simp only [execDecode, start_withTring]
  split <;> exact answer_withTring ..

theorem execListen_withTring (now : U32) (s : State) (r : Ring Item) :
    execListen now (s.withTring r) = answerWithTring r (execListen now s) := by
  unfold execListen
  rw [withTring_lstate]
  split
  · rfl
  · exact refuse_withTring ..

theorem execLclose_withTring (now : U32) (s : State) (r : Ring Item) :
    execLclose now (s.withTring r) = answerWithTring r (execLclose now s) := by
  have hloop := foldl_withTring (fun t i => lcloseSlot_withTring now i t r) (List.range s.maxConn)
    { s.start with lstate := .shutting }
  have hend := (congrArg listenerCloseCheck hloop).trans (listenerCloseCheck_withTring ..)
  unfold execLclose
  rw [withTring_lstate]
  split
  · exact congrArg State.done hend
  · rw [start_withTring, done_withTring]

theorem execConnect_withTring (now : U32) (addr : Addr) (isn : U16) (s : State) (r : Ring Item) :
    execConnect now addr isn (s.withTring r) = answerWithTring r (execConnect now addr isn s) := by
  simp only [execConnect, withTring_freeSlot?]
  split <;> rfl

theorem execSockErr_lsock_withTring (now : U32) (s : State) (r : Ring Item) :
    execSockErr now .lsock (s.withTring r) = answerWithTring r (execSockErr now .lsock s) := by
  have hloop := foldl_withTring (fun t i => failSlot_withTring i t r) (List.range s.maxConn)
    { s.start.emits [.evError .listener .errSocket] with lstate := .idle }
  have hend := congrArg (State.emits · [.sockClose .lsock]) hloop
  simp only [execSockErr]
  rw [withTring_lstate]
  split
  · rw [start_withTring, done_withTring]
  · exact congrArg State.done hend

theorem execGlbRead_withTring (now : U32) (n : Byte) (s : State) (r : Ring Item) :
    execGlbRead now n (s.withTring r) = answerWithTring r (execGlbRead now n s) := by
  simp only [execGlbRead, withTring_register, start_withTring]
  split
  · exact refuse_withTring ..
  · exact answer_withTring ..

/-- Every instruction but the three ring commands does the same whatever the test ring holds, and carries it along
(R119). -/
theorem exec_withTring {op : Instr} (hput : ∀ now q v, op ≠ .ringPut now q v) (hget : ∀ now q, op ≠ .ringGet now q)
    (hdel : ∀ now q, op ≠ .ringDel now q) (s : State) (r : Ring Item) :
    exec op (s.withTring r) = answerWithTring r (exec op s) := by
  cases hop : handleOf op with
  | some c => exact exec_withTring_of_named hop s r
  | none =>
    cases op with
    | data now rx hd pl => exact receiveWire_withTring (handleOf_data now rx hd pl ▸ hop) ..
    | fin now rx hd pl => exact receiveWire_withTring (handleOf_fin now rx hd pl ▸ hop) ..
    | state now rx hd pl => exact receiveWire_withTring (handleOf_state now rx hd pl ▸ hop) ..
    | reset now rx hd pl => exact receiveWire_withTring (handleOf_reset now rx hd pl ▸ hop) ..
    | syn now rx hd pl => exact receiveWire_withTring (handleOf_syn now rx hd pl ▸ hop) ..
    | encode now p => rfl
    | decode now b => exact execDecode_withTring now b s r
    | ringPut now q v => exact absurd rfl (hput now q v)
    | ringGet now q => exact absurd rfl (hget now q)
    | ringDel now q => exact absurd rfl (hdel now q)
    | listen now => exact execListen_withTring now s r
    | lclose now => exact execLclose_withTring now s r
    | dgramL now addr b isn => exact execDgramL_withTring now addr b isn s r
    | connect now addr isn => exact execConnect_withTring now addr isn s r
    | glbRead now n => exact execGlbRead_withTring now n s r
    | sockErr now sock =>
      cases sock with
      | lsock => exact execSockErr_lsock_withTring now s r
      | psock k => cases hop
    | _ => cases hop

/-- An operation that carries any test ring along keeps the one it finds: putting in the ring that is there changes
nothing. -/
theorem tring_eq_of_withTring {a : State → Answer} {s t : State}
    (ha : ∀ r, a (s.withTring r) = answerWithTring r (a s)) (h : a s = .next t) : t.tring = s.tring := by
  have hself : a s = .next (t.withTring s.tring) := (ha s.tring).trans (congrArg (answerWithTring s.tring) h)
  have ht : t = t.withTring s.tring := Host.Outcome.next.inj (h.symm.trans hself)
  rw [ht, withTring_tring]

/-! ### The obligations -/

/-- Settles O12, by what a slot reads after a put. -/
theorem ringPutWritesOneSlot : Obligations.RingPutWritesOneSlot := by
  unfold Obligations.RingPutWritesOneSlot
  refine fun now q v s => ⟨ringPut s.tring q v, exec_ringPut now q v s, fun t => ?_, fun hwf => ringPut_wf hwf q v⟩
  simp only [ringGet_ringPut, ringIx_eq_iff]

/-- Settles O14, by what a slot reads after a delete. -/
theorem ringDelTakesOneSlot : Obligations.RingDelTakesOneSlot := by
  unfold Obligations.RingDelTakesOneSlot
  refine fun now q s => ⟨ringDel s.tring q, exec_ringDel now q s, fun t => ?_, fun hwf => ringDel_wf hwf q⟩
  simp only [ringGet_ringDel, ringIx_eq_iff]

/-- Settles O15: an instruction that commutes with every change of the test ring neither reads nor writes it. -/
theorem testRingIsSeparate : Obligations.TestRingIsSeparate := by
  unfold Obligations.TestRingIsSeparate
  refine ⟨fun op s t r hput hget hdel h => ?_, fun now q v s t h => ?_, fun _ => rfl⟩
  · have hcomm := exec_withTring hput hget hdel s
    exact ⟨tring_eq_of_withTring hcomm h, (hcomm r).trans (congrArg (answerWithTring r) h)⟩
  · rw [exec_ringPut, exec_ringGet, exec_ringDel] at h
    rcases h with h | h | h <;> cases h <;> exact ⟨rfl, rfl, rfl⟩

/-- Settles O13: the answer reads the slot, which numbers 512 apart share. -/
theorem ringGetReadsItsSlot : Obligations.RingGetReadsItsSlot := by
  unfold Obligations.RingGetReadsItsSlot
  refine fun now q s => ⟨exec_ringGet now q s, fun k => ?_⟩
  rw [exec_ringGet, exec_ringGet, ringGet_add_mul]

end Sys2Proof.Machine

/-! Proofs of the statements about the commands of a context's life, its creation and bad handles (42_conn_lifecycle.md
rules R121 to R126, R130, R131, 46_demux.md rule R195). In order: how an operation on one context ends; where a new
context goes; the handles that name no context of the right role; what each command does; the obligations. -/

namespace Sys2Proof.Machine

open Sys2Proof.Config

/-! ### How an operation ends (R127) -/

theorem latched_of_closed {c : Ctx} (h : c.state = .closed) : c.latched = false := by simp [Ctx.latched, h]

theorem afterLatch_of_unlatched {d : Ctx} (h : d.latched = false) (s : State) (i : Nat) (es : List Event) :
    s.afterLatch i d es = s.after (s.slots.set i (some d)) es := by simp [State.afterLatch, h]

theorem afterLatch_of_latched {d : Ctx} (h : d.latched = true) (s : State) (i : Nat) (es : List Event) :
    s.afterLatch i d es = s.tornDown i d es := by simp [State.afterLatch, h]

/-- A context that is torn down is closed, whatever its state was. -/
theorem tornDown_setClosed (s : State) (i : Nat) (d : Ctx) (es : List Event) :
    s.tornDown i { d with state := .closed } es = s.tornDown i d es := by simp only [State.tornDown]

/-- The test of the latch that ends an operation, in the terms of the statements: `t` is the state it runs in, which has
changed nothing of `s` but the slot `i` and the events. -/
theorem endOfOp_done {s t : State} {i : Nat} {d : Ctx} {es : List Event} (hi : i < s.slots.length)
    (ht : t = { s with slots := s.slots.set i (some d), events := es }) :
    (endOfOp i t).done = .next (s.afterLatch i d es) := by
  have hd : t.ctx? i = some d := by
    subst ht
    exact ctx?_setSlot_self (s := s) (some d) hi
  cases hl : d.latched with
  | false => rw [endOfOp_unlatched hd hl, afterLatch_of_unlatched hl, ht]; rfl
  | true => rw [endOfOp_latched hd hl, teardown_done rfl ht, tornDown_setClosed, afterLatch_of_latched hl]

/-- An operation on the context of a slot, put together by `State.runOn`. -/
theorem runOn_done {s : State} {i : Nat} {c d : Ctx} {f : Run → Run} {es : List Event} (hc : s.ctx? i = some c)
    (hf : f ⟨c, []⟩ = ⟨d, es⟩) : (endOfOp i (s.start.runOn i c f)).done = .next (s.afterLatch i d es) := by
  refine endOfOp_done (ctx?_lt hc) ?_
  rw [State.runOn, hf]
  rfl

/-! ### Where a new context goes (R121, R195) -/

theorem freeSlot?_of_lowest {s : State} {i : Nat} (h : s.slots[i]? = some none)
    (hlow : ∀ j, j < i → (s.ctx? j).isSome = true) : s.freeSlot? = some i := by
  obtain ⟨hi, he⟩ := List.getElem?_eq_some_iff.1 h
  rw [State.freeSlot?, List.findIdx?_eq_some_iff_getElem]
  refine ⟨hi, by rw [he]; rfl, fun j hj => ?_⟩
  have hsome := hlow j hj
  rw [State.ctx?, List.getElem?_eq_getElem (Nat.lt_trans hj hi), Option.join_some] at hsome
  simpa [Option.isSome_iff_ne_none] using hsome

theorem freeSlot?_of_full {s : State} (h : ∀ i, i < s.maxConn → (s.ctx? i).isSome = true) : s.freeSlot? = none := by
  cases hf : s.freeSlot? with
  | none => rfl
  | some i =>
    obtain ⟨hfree, -⟩ := freeSlot?_eq_some hf
    have hsome := h i (List.getElem?_eq_some_iff.1 hfree).1
    rw [State.ctx?, hfree] at hsome
    cases hsome

/-- A key that no accepting-role context has is not found (R194). -/
theorem lookup_of_absent {s : State} {addr : Addr} {eff : U16}
    (h : ∀ j c, s.ctx? j = some c → c.role = .accept → c.peer = addr → c.recvId ≠ eff) : s.lookup addr eff = none := by
  cases hl : s.lookup addr eff with
  | none => rfl
  | some i =>
    obtain ⟨c, hc, hr, hp, hid⟩ := lookup_eq_some hl
    exact absurd hid (h i c hc hr hp)

/-! ### Handles that name no context of the role an instruction needs (R131) -/

/-- A handle that names no connecting-role context is BADCONN where the instruction needs one. -/
theorem exec_badConn_of_role {op : Instr} {c : Nat} {s : State} (h : handleOf op = some c)
    (hrole : needsConnectRole op = true) (hc : s.connectCtx? c = none) : exec op s = s.badConn := by
  have wire {now : U32} {rx : Rx} {raw : Bytes} {p : Packet} (hrx : socketHandle rx = some c) :
      receiveWire now rx raw p s = s.badConn := by
    cases rx with
    | lsock addr isn => cases hrx
    | psock k addr => cases hrx; simp only [receiveWire, hc]
  cases op with
  | data now rx hd pl => exact wire (handleOf_data now rx hd pl ▸ h)
  | fin now rx hd pl => exact wire (handleOf_fin now rx hd pl ▸ h)
  | state now rx hd pl => exact wire (handleOf_state now rx hd pl ▸ h)
  | reset now rx hd pl => exact wire (handleOf_reset now rx hd pl ▸ h)
  | syn now rx hd pl => exact wire (handleOf_syn now rx hd pl ▸ h)
  | bound now k port => cases h; simp only [exec, execBound, hc]
  | dgramP now k addr b => cases h; simp only [exec, execDgramP, hc]
  | graceExpired now k => cases h; simp only [exec, execGraceExpired, hc]
  | sockErr now sock =>
    cases sock with
    | lsock => cases h
    | psock k => cases h; simp only [exec, execSockErr, hc]
  | _ => cases hrole

theorem badConn_unchanged (s : State) : s.badConn = .next (s.unchanged [] .badConn .none) := rfl

/-! ### The commands, case by case -/

section Commands

variable {s : State} {i : Nat} {c : Ctx} (now : U32)

theorem exec_bound_ignored (hc : s.connectCtx? i = some c) (h : c.bound = true ∨ c.state = .closed) (port : U16) :
    exec (.bound now i port) s = .next (s.unchanged [] .ok .none) := by
  simp only [exec, execBound, hc, if_pos h]; rfl

/-- BOUND at a context that is neither bound nor closed (R122). -/
theorem exec_bound_open (hc : s.connectCtx? i = some c) (hb : c.bound = false) (hs : c.state ≠ .closed) (port : U16) :
    exec (.bound now i port) s =
      .next (s.afterLatch i (bindAndSyn now port ⟨c, []⟩).ctx (bindAndSyn now port ⟨c, []⟩).ev) := by
  have hopen : ¬ (c.bound = true ∨ c.state = .closed) := by simp [hb, hs]
  simp only [exec, execBound, hc, if_neg hopen]
  exact runOn_done (connectCtx?_eq_some.1 hc).1 rfl

theorem exec_endWrite_ignored (hc : s.ctx? i = some c) (h : c.state = .closed ∨ c.endReq = true) :
    exec (.endWrite now i) s = .next (s.unchanged [] .ok .none) := by
  simp only [exec, execEndWrite, hc, if_pos h]; rfl

/-- What END and LCLOSE make of a context (R125). -/
theorem requestEnd_eq (c : Ctx) : requestEnd now ⟨c, []⟩ = ⟨c.ended now, c.endEvents now⟩ := by
  rw [requestEnd, tryFin_ended]
  simp [Ctx.ended, Ctx.endEvents, Ctx.finReady, Ctx.withFin, finPacket]

/-- END at a context whose end was not asked for (R125). -/
theorem exec_endWrite_open (hc : s.ctx? i = some c) (hs : c.state ≠ .closed) (he : c.endReq = false) :
    exec (.endWrite now i) s = .next (s.afterLatch i (c.ended now) (c.endEvents now)) := by
  have hopen : ¬ (c.state = .closed ∨ c.endReq = true) := by simp [hs, he]
  simp only [exec, execEndWrite, hc, if_neg hopen]
  exact runOn_done hc (requestEnd_eq now c)

theorem exec_readEnd_closed (hc : s.ctx? i = some c) (h : c.state = .closed) :
    exec (.readEnd now i) s = .next (s.unchanged [] .ok .none) := by
  simp only [exec, execReadEnd, hc, if_pos h]; rfl

/-- READ_END at a context that is not closed (R126). -/
theorem exec_readEnd_open (hc : s.ctx? i = some c) (h : c.state ≠ .closed) :
    exec (.readEnd now i) s = .next (s.afterLatch i { c with rdone := true } []) := by
  simp only [exec, execReadEnd, hc, if_neg h]
  exact endOfOp_done (ctx?_lt hc) rfl

theorem exec_tickRetx_closed (hc : s.ctx? i = some c) (h : c.state = .closed) :
    exec (.tickRetx now i) s = .next (s.unchanged [] .ok .none) := by
  simp only [exec, execTickRetx, hc, h, true_or, if_true]; rfl

theorem exec_tickKa_closed (hc : s.ctx? i = some c) (h : c.state = .closed) :
    exec (.tickKa now i) s = .next (s.unchanged [] .ok .none) := by
  have hconn : c.state ≠ .connected := by rw [h]; decide
  simp only [exec, execTickKa, hc, if_neg hconn]; rfl

/-- Putting back the context that is there leaves the table as it is. -/
theorem slots_set_ctx? (hc : s.ctx? i = some c) : s.slots.set i (some c) = s.slots := (setSlot_ctx? hc).slots.symm

/-- WRITE at a closed context with no write pending (R164). -/
theorem exec_write_closed (hc : s.ctx? i = some c) (h : c.state = .closed) (hpw : c.pw = none) (b : Bytes) :
    exec (.write now i b) s = .next (s.after s.slots [.writeDone i .rejected]) := by
  have hrun : acceptWrite now i b ⟨c, []⟩ = ⟨c, [.writeDone i .rejected]⟩ := by simp [acceptWrite, h, Run.emit]
  simp only [exec, execWrite, hc, hpw, Option.isSome_none, Bool.false_eq_true, if_false]
  rw [runOn_done hc hrun, afterLatch_of_unlatched (latched_of_closed h), slots_set_ctx? hc]

end Commands

/-! ### The obligations -/

/-- Settles O27: each command's test of the state comes first. -/
theorem closedContextIgnoresCommands : Obligations.ClosedContextIgnoresCommands := by
  unfold Obligations.ClosedContextIgnoresCommands
  intro now i c s hc hs
  refine ⟨fun port hr => exec_bound_ignored now (connectCtx?_eq_some.2 ⟨hc, hr⟩) (.inr hs) port,
    exec_endWrite_ignored now hc (.inl hs), exec_readEnd_closed now hc hs, exec_tickRetx_closed now hc hs,
    exec_tickKa_closed now hc hs, fun b hpw => exec_write_closed now hc hs hpw b⟩

/-- Settles O21, by what the lowest FREE slot is. -/
theorem connectCreatesInLowestFreeSlot : Obligations.ConnectCreatesInLowestFreeSlot := by
  unfold Obligations.ConnectCreatesInLowestFreeSlot
  intro now addr isn s
  refine ⟨fun hfull => ?_, fun i hfree hlow => ?_⟩
  · simp only [exec, execConnect, freeSlot?_of_full hfull]; rfl
  · simp only [exec, execConnect, freeSlot?_of_lowest hfree hlow]; rfl

/-- Settles O22: the new ids and the SYN are no input of the latch. -/
theorem boundDerivesIdsAndSendsSyn : Obligations.BoundDerivesIdsAndSendsSyn := by
  unfold Obligations.BoundDerivesIdsAndSendsSyn
  intro now i port s
  refine ⟨fun hc => exec_badConn_of_role rfl rfl hc, fun c hc => ⟨fun h => exec_bound_ignored now hc h port, ?_⟩⟩
  intro hb hs hl
  rw [exec_bound_open now hc hb hs, afterLatch_of_unlatched]
  · rfl
  · exact hl

theorem ended_latched (now : U32) (c : Ctx) : (c.ended now).latched = c.latched := by
  unfold Ctx.ended
  split <;> rfl

/-- Settles O23: asking for the end is no input of the latch. -/
theorem endSendsFinOrDefers : Obligations.EndSendsFinOrDefers := by
  unfold Obligations.EndSendsFinOrDefers
  intro now i s
  refine ⟨fun hc => exec_badConn rfl hc, fun c hc => ⟨exec_endWrite_ignored now hc, fun hs he hl => ?_⟩⟩
  rw [exec_endWrite_open now hc hs he, afterLatch_of_unlatched ((ended_latched now c).trans hl)]

/-- Settles O24: `wdone` decides the latch. -/
theorem readEndSetsRdoneAndMayClose : Obligations.ReadEndSetsRdoneAndMayClose := by
  unfold Obligations.ReadEndSetsRdoneAndMayClose
  intro now i s
  refine ⟨fun hc => exec_badConn rfl hc, fun c hc => ⟨exec_readEnd_closed now hc, fun hs hw => ?_, fun hs hw => ?_⟩⟩
  · rw [exec_readEnd_open now hc hs, afterLatch_of_unlatched (by simp [Ctx.latched, hw])]
  · rw [exec_readEnd_open now hc hs, afterLatch_of_latched (by simp [Ctx.latched, hs, hw])]

/-- Settles O26: the handle names no context, or none of the role that is needed. -/
theorem badHandleChangesNothing : Obligations.BadHandleChangesNothing := by
  unfold Obligations.BadHandleChangesNothing
  intro op c s hop hbad
  rw [← badConn_unchanged]
  rcases hbad with (hsize | hfree) | ⟨hrole, x, hx, hacc⟩
  · exact exec_badConn hop (by rw [State.ctx?, List.getElem?_eq_none hsize]; rfl)
  · exact exec_badConn hop (by rw [State.ctx?, hfree]; rfl)
  · exact exec_badConn_of_role hop hrole (by rw [connectCtx?_of_ctx? hx, if_neg (by rw [hacc]; decide)])

/-- Settles O18: the key is not found, so that a SYN while listening creates a context where a slot is FREE, and every
other packet is surfaced. -/
theorem acceptExactlyNewSynWhileListening : Obligations.AcceptExactlyNewSynWhileListening := by
  unfold Obligations.AcceptExactlyNewSynWhileListening
  intro now addr B isn p s hp hty hkey
  have hlook : s.lookup addr (effectiveId p) = none := lookup_of_absent hkey
  have routed : exec (.dgramL now addr B isn) s = routeListener now addr B isn p s := by
    simp only [exec, execDgramL, hp, if_neg (Nat.not_lt.2 hty)]
  rw [routed]
  refine ⟨fun i hsyn hl hfree hlow => ?_, fun hno => ?_⟩
  · simp only [routeListener, hlook, hsyn, hl, freeSlot?_of_lowest hfree hlow, ne_eq, not_true_eq_false, if_false]
    rfl
  · simp only [routeListener, hlook]
    by_cases hsyn : p.type = tySyn
    case neg => rw [if_pos hsyn]; rfl
    by_cases hl : s.lstate = .listening
    case neg => rw [if_neg (not_not.2 hsyn), if_pos hl]; rfl
    have hfull := (hno.resolve_left (not_not.2 hsyn)).resolve_left (not_not.2 hl)
    rw [if_neg (not_not.2 hsyn), if_neg (not_not.2 hl), freeSlot?_of_full hfull]
    rfl

end Sys2Proof.Machine

/-! Proofs of the statements about the handshake's end and the close latch (42_conn_lifecycle.md rules R124, R127). In
order: the acknowledgment that a handshake's STATE packet carries; what the handshake makes of the context; what a pump
leaves of the latch and of a waiting FIN; the packet that completes the latch; the obligations. -/

namespace Sys2Proof.Machine

open Sys2Proof.Config

/-! ### The acknowledgment of a SYN (R124, R148) -/

/-- A context with the SYN alone in flight after the acknowledgment number `a`. -/
def Ctx.synAcked (c : Ctx) (a : U16) : Ctx :=
  if a = c.seq - 1 then { c with inFlight := 0, outRing := ringDel c.outRing (c.seq - 1) } else c

theorem base_of_one {c : Ctx} (h : c.inFlight = 1) : c.base = c.seq - 1 := by rw [Ctx.base, h]; rfl

theorem ackCount_of_one {c : Ctx} (h : c.inFlight = 1) (a : U16) : c.ackCount a = a - (c.seq - 1) + 1 := by
  rw [Ctx.ackCount, base_of_one h]

/-- A number other than the SYN's acknowledges nothing (R148). -/
theorem ignoresAck_of_ne {c : Ctx} (h : c.inFlight = 1) {a : U16} (ha : a ≠ c.seq - 1) : c.ignoresAck a := by
  have hne : c.ackCount a ≠ 1 := by
    rw [ackCount_of_one h]
    intro he
    exact ha (by bv_omega)
  by_cases h0 : c.ackCount a = 0
  · exact .inl h0
  · refine .inr (.inr ?_)
    rw [h]
    show 1 < (c.ackCount a).toNat
    bv_omega

/-- A flush signal before the connection is up resumes nothing, whatever is pending (R149, R165). -/
theorem onFlush_of_connecting (now : U32) (i : Nat) {c : Ctx} (hs : c.state = .connecting) (hf : c.finSent = false)
    (es : List Event) : onFlush now i ⟨c, es⟩ = ⟨c, es⟩ := by
  have hw : (c.wdone || c.finSent) = c.wdone := by rw [hf, Bool.or_false]
  have hkept : (⟨{ c with wdone := c.wdone || c.finSent }, es⟩ : Run) = ⟨c, es⟩ := by rw [hw]
  have hpump : pump now i ⟨c, es⟩ = ⟨c, es⟩ := by simp [pump, hs]
  rcases onFlush_cases now i ⟨c, es⟩ with ⟨-, e⟩ | ⟨-, e⟩
  · exact e.trans hkept
  · exact (e.trans (congrArg (pump now i) hkept)).trans hpump

/-- Everything `RecvAck` does while the SYN alone is in flight. -/
theorem recvAck_of_connecting (now : U32) (i : Nat) (a : U16) {c : Ctx} (hs : c.state = .connecting)
    (hf : c.finSent = false) (h1 : c.inFlight = 1) (es : List Event) :
    recvAck now i a ⟨c, es⟩ = ⟨c.synAcked a, es⟩ := by
  unfold Ctx.synAcked
  by_cases ha : a = c.seq - 1
  case neg => rw [if_neg ha, recvAck_ignored (r := ⟨c, es⟩) (ignoresAck_of_ne h1 ha)]
  have hn : (c.ackCount a).toNat = 1 := by rw [ackCount_of_one h1, ha, BitVec.sub_self]; rfl
  have hdrop : dropAcked 1 c.base c = { c with inFlight := 0, outRing := ringDel c.outRing (c.seq - 1) } := by
    simp only [dropAcked, base_of_one h1, h1]; rfl
  rw [if_pos ha]
  have hcases := recvAck_cases now i a ⟨c, es⟩
  simp only [hn, hdrop] at hcases
  rcases hcases with ⟨hbig, -⟩ | ⟨-, -, hleft, -⟩ | ⟨-, -, -, -, e⟩
  · rw [h1] at hbig; exact absurd hbig (by decide)
  · exact absurd ⟨Nat.le_refl 1, trivial⟩ hleft
  · rw [e]
    exact onFlush_of_connecting (c := { c with inFlight := 0, outRing := ringDel c.outRing (c.seq - 1) }) now i hs hf es

/-! ### The handshake (R124, R145) -/

/-- The context after a STATE packet with the header `h` completed its handshake, before anything that waited is sent. -/
def Ctx.handshaken (c : Ctx) (h : WireHeader) : Ctx :=
  if h.ack = c.seq - 1 then
    { c with state := .connected, ack := h.seq - 1, inFlight := 0, outRing := ringDel c.outRing (c.seq - 1) }
  else { c with state := .connected, ack := h.seq - 1 }

theorem handshaken_eq (c : Ctx) (h : WireHeader) :
    c.handshaken h = { Ctx.synAcked { c with ack := h.seq - 1 } h.ack with state := .connected } := by
  unfold Ctx.handshaken Ctx.synAcked
  split <;> rfl

section Handshaken

variable (c : Ctx) (h : WireHeader)

@[simp] theorem handshaken_state : (c.handshaken h).state = .connected := by rw [handshaken_eq]
@[simp] theorem handshaken_pw : (c.handshaken h).pw = c.pw := by unfold Ctx.handshaken; split <;> rfl
@[simp] theorem handshaken_sock : (c.handshaken h).sock = c.sock := by unfold Ctx.handshaken; split <;> rfl
@[simp] theorem handshaken_peer : (c.handshaken h).peer = c.peer := by unfold Ctx.handshaken; split <;> rfl
@[simp] theorem handshaken_endReq : (c.handshaken h).endReq = c.endReq := by unfold Ctx.handshaken; split <;> rfl
@[simp] theorem handshaken_finSent : (c.handshaken h).finSent = c.finSent := by unfold Ctx.handshaken; split <;> rfl
@[simp] theorem handshaken_wdone : (c.handshaken h).wdone = c.wdone := by unfold Ctx.handshaken; split <;> rfl
@[simp] theorem handshaken_rdone : (c.handshaken h).rdone = c.rdone := by unfold Ctx.handshaken; split <;> rfl

end Handshaken

/-- A context that was not due to close is not due to close once it is connected. -/
theorem handshaken_latched {c : Ctx} (hs : c.state = .connecting) (hl : c.latched = false) (h : WireHeader) :
    (c.handshaken h).latched = false := by
  simpa [Ctx.latched, hs] using hl

/-- Everything `CompleteConnect` does while the SYN alone is in flight. -/
theorem completeConnect_eq (now : U32) (i : Nat) (ty : BitVec 4) (h : WireHeader) (pl : Option Bytes) {c : Ctx}
    (hs : c.state = .connecting) (hf : c.finSent = false) (h1 : c.inFlight = 1) :
    completeConnect now i (packetOf ty h pl) ⟨c, []⟩ =
      tryFin now
        (if c.pw.isSome then pump now i ⟨c.handshaken h, [.evConnect i]⟩ else ⟨c.handshaken h, [.evConnect i]⟩) := by
  have hack : recvAck now i h.ack ⟨{ c with ack := h.seq - 1 }, []⟩ =
      ⟨Ctx.synAcked { c with ack := h.seq - 1 } h.ack, []⟩ :=
    recvAck_of_connecting (c := { c with ack := h.seq - 1 }) now i h.ack hs hf h1 []
  simp only [completeConnect, packetOf, hack, Run.emit, ← handshaken_eq, handshaken_pw, List.nil_append]

/-- With nothing buffered under its number, a STATE packet at a connecting context completes the handshake and does no
more (R145). -/
theorem recvOpen_handshake (now : U32) (i : Nat) (dup : Bool) {p : Packet} {c : Ctx} (hs : c.state = .connecting)
    (hp : p.type = tyState) (hb : ringGet c.inRing p.seq = none) :
    recvOpen now i dup p ⟨c, []⟩ = completeConnect now i p ⟨c, []⟩ := by
  have hring := (completeConnect_frame now i p ⟨c, []⟩).inRing
  simp only [recvOpen, hs, hp, if_true, hring, hb]

/-- The receipt of a STATE packet that completes a handshake, when `replay` is what is sent of the things that waited. -/
theorem exec_handshake {op : Instr} {now : U32} {rx : Rx} {h : WireHeader} {pl : Option Bytes} {s : State} {i : Nat}
    {c e : Ctx} {es : List Event} (hop : Receives op now rx tyState h pl)
    (hr : Reaches s rx (packetOf tyState h pl) i c) (hs : c.state = .connecting) (h1 : c.inFlight = 1)
    (hf : c.finSent = false) (hb : ringGet c.inRing h.seq = none)
    (replay : tryFin now
      (if c.pw.isSome then pump now i ⟨c.handshaken h, [.evConnect i]⟩ else ⟨c.handshaken h, [.evConnect i]⟩) = ⟨e, es⟩)
    (hl : e.latched = false) : exec op s = .next (s.after (s.slots.set i (some e)) es) := by
  have hopen : c.state ≠ .closed := by rw [hs]; decide
  rw [exec_receives hop]
  refine receiveWire_open hr hopen (by show tyState ≠ tySyn; decide) (by show tyState ≠ tyReset; decide) ?_ hl _
  rw [recvOpen_handshake now i _ hs rfl hb, completeConnect_eq now i tyState h pl hs hf h1, replay]

/-! ### What a pump leaves of the latch and of a waiting FIN (R165, R169) -/

section Pumped

variable {now : U32} {i : Nat} {c d : Ctx} {b : Bytes} {es : List Event}

/-- Sending is no input of the latch. -/
theorem Pumped.latched (h : Pumped now i c b d es) : d.latched = c.latched := by
  obtain ⟨r, -, -, h⟩ := h
  split at h
  · rw [h.1, ended_latched]; rfl
  · rw [h.1]; rfl

/-- A pump sends the FIN itself where one waited for the write, so that none is due after it. -/
theorem Pumped.fin_not_due (h : Pumped now i c b d es) (hs : c.state = .connected) (hf : c.finSent = false) :
    d.finDue = false := by
  obtain ⟨r, -, -, h⟩ := h
  generalize min (segments b).length (511 - c.inFlight.toNat) = n at h
  split at h
  · next hall =>
    have hready : (c.withSegments b n r).finReady = true := by
      simp [Ctx.finReady, Ctx.withSegments, hs, hf, hall.1]
    rw [h.1, Ctx.ended, if_pos hready]
    simp [Ctx.finDue, Ctx.withFin]
  · next hnot =>
    rw [h.1, ← Bool.not_eq_true, finDue_iff]
    rintro ⟨hend, -, hpw, -⟩
    refine hnot ⟨?_, hend⟩
    by_contra hn
    simp [Ctx.withSegments, hn] at hpw

end Pumped

/-- No FIN is sent when none is due (R169). -/
theorem tryFin_of_not_due (now : U32) {r : Run} (h : r.ctx.finDue = false) : tryFin now r = r := by
  rcases tryFin_cases now r with ⟨-, e⟩ | ⟨hdue, -⟩
  · exact e
  · rw [h] at hdue; cases hdue

/-! ### The packet that completes the latch (R127) -/

/-- A STATE packet in the window carries its acknowledgment and nothing else (R147). -/
theorem recvEstablished_state {now : U32} {i : Nat} {dup : Bool} {p : Packet} {r : Run}
    (h : isStale dup r.ctx.ack p.seq = false) (hp : p.type = tyState) :
    recvEstablished now i dup p r = recvAck now i p.ack r := by simp [recvEstablished, h, hp]

/-- A DATA or FIN packet in the window is stored, the ring is drained, and the packet is acknowledged (R147, R150). -/
theorem recvEstablished_stored {now : U32} {i : Nat} {dup : Bool} {p : Packet} {r : Run}
    (h : isStale dup r.ctx.ack p.seq = false) (hp : p.type ≠ tyState) :
    recvEstablished now i dup p r =
      sendAck now (drain i { recvAck now i p.ack r with
        ctx := { (recvAck now i p.ack r).ctx with inRing := ringPut (recvAck now i p.ack r).ctx.inRing p.seq p } }) := by
  simp only [recvEstablished, h, if_neg hp, Bool.false_eq_true, if_false]

/-- The receipt of a packet that is neither SYN nor RESET at a connected context: it is processed, and the latch is tested
(R146 to R150). -/
theorem exec_established {op : Instr} {now : U32} {rx : Rx} {ty : BitVec 4} {h : WireHeader} {pl : Option Bytes} {s : State}
    {i : Nat} {c d : Ctx} {es : List Event} (hop : Receives op now rx ty h pl) (hr : Reaches s rx (packetOf ty h pl) i c)
    (hs : c.state = .connected) (h1 : ty ≠ tySyn) (h2 : ty ≠ tyReset)
    (he : recvEstablished now i s.dupAtCursorStale (packetOf ty h pl) ⟨c, []⟩ = ⟨d, es⟩) :
    exec op s = .next (s.afterLatch i d es) := by
  have hopen : c.state ≠ .closed := by rw [hs]; decide
  have hconn : c.state ≠ .connecting := by rw [hs]; decide
  rw [exec_receives hop]
  refine receiveWire_afterLatch hr hopen h1 h2 ?_ _
  simp only [recvOpen, if_neg hconn]
  exact he

/-- An acknowledgment of everything in flight after the FIN sets the write half of the latch (R149). -/
theorem recvAck_fin (now : U32) (i : Nat) {a : U16} {c : Ctx} (hs : c.state = .connected) (hf : c.finSent = true)
    (hpw : c.pw = none) (h1 : 1 ≤ c.inFlight.toNat) (h2 : c.inFlight.toNat < 512)
    (ha : (c.ackCount a).toNat = c.inFlight.toNat) :
    ∃ r : Ring OutEntry, OutRingWithout c c.inFlight.toNat r ∧
      recvAck now i a ⟨c, []⟩ = ⟨{ c with outRing := r, inFlight := 0, wdone := true }, []⟩ := by
  have hcount : ¬ c.ignoresAck a := by
    rintro (h | h | h)
    · rw [h] at ha; rw [← ha] at h1; cases h1
    · simp only [ringCap] at h; omega
    · omega
  have hn : c.acknowledged a = c.inFlight.toNat := (acknowledged_pos hcount).1.trans ha
  obtain ⟨d, ev, hacked, e⟩ := recvAck_acked now i a hs (by simp [hpw]) []
  obtain ⟨r, hr, -, hd⟩ := hacked
  rw [hn] at hr hd
  obtain ⟨rfl, rfl⟩ := hd (.inl (by rw [hpw]; rfl))
  refine ⟨r, hr, ?_⟩
  rw [e, Ctx.withoutOldest, (inFlight_sub_eq_zero c (Nat.le_refl _)).2 rfl]
  simp [hf, h1]

/-- The slot of one number is not the slot of the next (R114). -/
theorem ringIx_add_two_ne (a : U16) : ringIx (a + 1) ≠ ringIx (a + 2) := by
  have h := ringIx_add_ne (a + 1) (j := 0) (k := 1) (by omega) (by omega)
  rwa [BitVec.add_zero, add_one_add] at h

/-- The peer's FIN, next in order and with nothing behind it, is delivered as the end of reading (R151). -/
theorem drain_fin (i : Nat) {p : Packet} (hp : p.type = tyFin) {c : Ctx} (hseq : p.seq = c.ack + 1)
    (hr : c.rdone = false) (hb : ringGet c.inRing (c.ack + 2) = none) :
    ∃ r : Ring Packet,
      drain i ⟨{ c with inRing := ringPut c.inRing p.seq p }, []⟩ =
        ⟨{ c with inRing := r, ack := c.ack + 1, rdone := true }, [.rxEof i]⟩ ∧
        ∀ t : U16, ringGet r t = if t.toNat % 512 = (c.ack + 1).toNat % 512 then none else ringGet c.inRing t := by
  have hput : ∀ t, ringGet (ringPut c.inRing p.seq p) t =
      if ringIx (c.ack + 1) = ringIx t then some p else ringGet c.inRing t := fun t => by rw [ringGet_ringPut, hseq]
  obtain ⟨r, e, hslots⟩ := drain_deliveries i [p] { c with inRing := ringPut c.inRing p.seq p } [] (by simp)
    (fun k q hk => by
      obtain ⟨hk0, rfl⟩ : k = 0 ∧ p = q := by cases k <;> simp_all
      simp only [hk0, hput, BitVec.add_zero, if_true])
    (.inl (by
      simp only [List.length_singleton, hput, add_one_add]
      exact (if_neg (ringIx_add_two_ne c.ack)).trans hb))
  refine ⟨r, ?_, fun t => ?_⟩
  · rw [e]
    simp [hr, hp, deliveries]
  · obtain ⟨hgone, hkept⟩ := hslots t
    simp only [List.length_singleton, Nat.lt_one_iff, exists_eq_left, forall_eq, BitVec.add_zero] at hgone hkept
    by_cases ht : ringIx (c.ack + 1) = ringIx t
    · rw [hgone ht, if_pos ((ringIx_eq_iff _ _).1 ht)]
    · rw [hkept ht, hput, if_neg ht, if_neg (fun h => ht ((ringIx_eq_iff _ _).2 h))]

/-! ### The obligations -/

/-- Settles O32: nothing waits, so that the handshake sends nothing. -/
theorem stateCompletesHandshake : Obligations.StateCompletesHandshake := by
  unfold Obligations.StateCompletesHandshake
  intro op now rx h pl s i c hop hr hs hl h1 hpw hend hf hb
  refine exec_handshake hop hr hs h1 hf hb (e := c.handshaken h) ?_ (handshaken_latched hs hl h)
  rw [hpw]
  exact tryFin_of_not_due now (r := ⟨c.handshaken h, [.evConnect i]⟩) (by simp [Ctx.finDue, hend])

/-- Settles O33: what waited is the end alone, or a write that the pump sends, with the end behind it. -/
theorem handshakeReplaysWriteAndEnd : Obligations.HandshakeReplaysWriteAndEnd := by
  unfold Obligations.HandshakeReplaysWriteAndEnd
  intro op now rx h pl s i c hop hr hs hl h1 hf hb
  have hld := handshaken_latched hs hl h
  refine ⟨fun hpw hend => ?_, fun w hw hne => ?_⟩
  · have hready : (c.handshaken h).finReady = true := by simp [Ctx.finReady, hpw, hf]
    refine exec_handshake hop hr hs h1 hf hb (e := (c.handshaken h).withFin now)
      (es := [.evConnect i, .tx c.sock c.peer (encodePacket (finPacket now (c.handshaken h)))]) ?_ hld
    simp [hpw, tryFin_ended, hend, Ctx.ended, Ctx.endEvents, hready]
  · have hwd : (c.handshaken h).pw = some w := (handshaken_pw c h).trans hw
    obtain ⟨e, ev, hpumped, hpump⟩ := pump_pumped now i (handshaken_state c h) hwd hne [.evConnect i]
    refine ⟨e, ev, hpumped, exec_handshake hop hr hs h1 hf hb ?_ (hpumped.latched.trans hld)⟩
    rw [hw, Option.isSome_some, if_pos rfl, hpump]
    exact tryFin_of_not_due now (hpumped.fin_not_due (handshaken_state c h) (by simpa using hf))

/-- Settles O40: the acknowledgment of the FIN, or the peer's FIN, sets the half of the latch that was missing. -/
theorem latchClosesInEitherOrder : Obligations.LatchClosesInEitherOrder := by
  unfold Obligations.LatchClosesInEitherOrder
  intro op now rx h pl s i c hs hdup
  refine ⟨fun hop hr hwin hrd hf hpw h1 h2 ha => ?_, fun hop hr hseq hack hrd hw hb => ?_⟩
  · obtain ⟨r, hout, e⟩ := recvAck_fin now i hs hf hpw h1 h2 ha
    refine ⟨r, hout, ?_⟩
    have hrun : recvEstablished now i s.dupAtCursorStale (packetOf tyState h pl) ⟨c, []⟩ =
        ⟨{ c with outRing := r, inFlight := 0, wdone := true }, []⟩ := by
      rw [recvEstablished_state (r := ⟨c, []⟩) (isStale_false hwin hdup) rfl]
      exact e
    rw [exec_established hop hr hs (by decide) (by decide) hrun,
      afterLatch_of_latched (by simp [Ctx.latched, hs, hrd])]
  · obtain ⟨r, e, hslots⟩ := drain_fin i (p := packetOf tyFin h pl) rfl (c := c) hseq hrd hb
    refine ⟨r, ?_, hslots⟩
    have hwin : (h.seq - c.ack).toNat < 512 := by
      rw [hseq]; bv_omega
    have hrun : recvEstablished now i s.dupAtCursorStale (packetOf tyFin h pl) ⟨c, []⟩ =
        ⟨{ c with inRing := r, ack := c.ack + 1, rdone := true, alive := true },
          [.rxEof i, .tx c.sock c.peer (encodePacket (bareAck now c c.seq (c.ack + 1)))]⟩ := by
      have hfin : (packetOf tyFin h pl).type ≠ tyState := by show tyFin ≠ tyState; decide
      rw [recvEstablished_stored (r := ⟨c, []⟩) (isStale_false hwin hdup) hfin]
      have hkept := recvAck_ignored (now := now) (i := i) (r := ⟨c, []⟩) hack
      simp only [show (packetOf tyFin h pl).ack = h.ack from rfl, hkept, e]
      rfl
    rw [exec_established hop hr hs (by decide) (by decide) hrun,
      afterLatch_of_latched (by simp [Ctx.latched, hs, hw])]

end Sys2Proof.Machine

/-! Proofs of the statements about the latch after every operation and the moves of a context (42_conn_lifecycle.md rules
R120, R127). In order: every effect on the block leaves no context due to close; every effect moves contexts as listed, or
creates one in a FREE slot; the obligations. -/

namespace Sys2Proof.Machine

open Sys2Proof.Config

/-! ### No context is due to close (R127) -/

/-- No context is due to close. -/
def Unlatched (s : State) : Prop := ∀ j c, s.ctx? j = some c → c.latched = false

theorem Unlatched.congr {s t : State} (h : Unlatched s) (hst : t.slots = s.slots) : Unlatched t := fun j c hc =>
  h j c (by rw [State.ctx?, ← hst]; exact hc)

/-- An operation on one slot that leaves no context there that is due to close. -/
theorem TableFrame.unlatched {i : Nat} {s t : State} (h : TableFrame i s t) (hs : Unlatched s)
    (hi : ∀ d, t.ctx? i = some d → d.latched = false) : Unlatched t := by
  intro j d hd
  by_cases hj : j = i
  · subst hj; exact hi d hd
  · exact hs j d (by rw [← h.others j hj]; exact hd)

/-- A new content of one slot that is not due to close. -/
theorem Unlatched.setSlot {i : Nat} {s t : State} {d : Ctx} (hs : Unlatched s)
    (ht : SameBlock (s.setSlot i (some d)) t) (hd : d.latched = false) : Unlatched t := by
  refine (setSlot_table ht).unlatched hs fun e he => ?_
  rw [ht.ctx?, ctx?_setSlot] at he
  split at he
  · cases he; exact hd
  · exact hs i e he

/-- The test of the latch leaves its slot FREE or with a context that is not due to close. -/
theorem endOfOp_unlatches {i : Nat} {u : State} {d e : Ctx} (hu : u.ctx? i = some d)
    (he : (endOfOp i u).ctx? i = some e) : e.latched = false := by
  rw [endOfOp_slot hu] at he
  split at he
  · split at he
    · cases he; exact latched_of_closed rfl
    · cases he
  · next hl => cases he; simpa using hl

theorem RanOn.unlatched {i : Nat} {s t : State} (h : RanOn i s t) (hs : Unlatched s) : Unlatched t := by
  obtain ⟨c, d, u, hc, -, hu, ht⟩ := h
  refine (((setSlot_table hu).trans (endOfOp_frame i u).table).trans (ht.table i)).unlatched hs fun e he => ?_
  exact endOfOp_unlatches (setSlot_slot hc hu) (by rw [← ht.ctx?]; exact he)

theorem ForcedOn.unlatched {i : Nat} {s t : State} (h : ForcedOn i s t) (hs : Unlatched s) : Unlatched t := by
  refine h.table.unlatched hs fun e he => ?_
  obtain ⟨c, rd, mode, u, hc, hopen, -, -, hu, ht⟩ := h
  rw [ht.ctx?, forceClose_slot (c := { c with rdone := rd }) (hu.ctx? i ▸ hc) hopen] at he
  split at he
  · cases he; exact latched_of_closed rfl
  · cases he

theorem FreedOn.unlatched {i : Nat} {s t : State} (h : FreedOn i s t) (hs : Unlatched s) : Unlatched t := by
  obtain ⟨c, hc, -, ht⟩ := h
  refine (setSlot_table ht).unlatched hs fun e he => ?_
  rw [setSlot_slot hc ht] at he
  cases he

theorem Unlatched.lcloseLoop {s : State} (h : Unlatched s) (now : U32) (l : List Nat) :
    Unlatched (lcloseLoop now l s) := by
  induction l generalizing s with
  | nil => exact h
  | cons i l ih =>
    rcases lcloseSlot_cases now i s with e | hran
    · rw [Machine.lcloseLoop, List.foldl_cons, e]; exact ih h
    · exact ih (hran.unlatched h)

theorem Unlatched.failLoop {s : State} (h : Unlatched s) (l : List Nat) : Unlatched (failLoop l s) := by
  induction l generalizing s with
  | nil => exact h
  | cons i l ih =>
    rcases failSlot_cases i s with ⟨hsame, -⟩ | hforced
    · exact ih (h.congr hsame.slots)
    · exact ih (hforced.unlatched h)

/-- Every effect leaves no context due to close where none was. -/
theorem Effect.unlatched {op : Instr} {s t : State} (h : Effect op s t) (hs : Unlatched s) : Unlatched t := by
  cases h with
  | outputs ht => exact hs.congr ht.slots
  | testRing hsl _ _ => exact hs.congr hsl
  | listen ht => exact hs.congr ht.slots
  | lclose now u hu ht =>
    have hloop := (hs.congr hu.slots).lcloseLoop now (List.range s.maxConn)
    exact hloop.congr (ht.slots.trans (listenerCloseCheck_slots _))
  | listenerFailed u hu ht => exact ((hs.congr hu.slots).failLoop _).congr ht.slots
  | connected i addr isn hi ht => exact hs.setSlot ht (newConnectCtx_inv i addr isn).latch
  | accepted i now addr p isn _ _ _ _ ht => exact hs.setSlot ht (newAcceptCtx_inv i now addr p isn).latch
  | ran i hr => exact hr.unlatched hs
  | forced i hf => exact hf.unlatched hs
  | freed i hf => exact hf.unlatched hs
  | probed i c d b hc hd ht =>
    subst hd
    exact hs.setSlot ht (hs i c hc)
  | resent now i c refresh k q r _ hc hr ht => exact hs.setSlot ht ((retxLoop_move hr).1.trans (hs i c hc))

/-! ### The moves of a context (R120) -/

/-- The state a new context starts in, by its role (R120). -/
def CreationState (d : Ctx) : Prop :=
  (d.role = .connect ∧ d.state = .connecting) ∨ (d.role = .accept ∧ d.state = .connected)

/-- `t` is the block `s` with a new context in a slot that was FREE. -/
def CreatedOn (s t : State) : Prop :=
  ∃ i d, s.freeSlot? = some i ∧ CreationState d ∧ SameBlock (s.setSlot i (some d)) t

/-- Every effect moves contexts as listed, or creates one. -/
theorem Effect.evolves_or_created {op : Instr} {s t : State} (h : Effect op s t) :
    Evolves CtxMove s t ∨ CreatedOn s t := by
  cases h with
  | outputs ht => exact .inl ht.evolves.move
  | testRing hs _ _ => exact .inl (evolves_of_slots hs).move
  | listen ht => exact .inl (evolves_of_slots ht.slots).move
  | lclose now u hu ht =>
    have hloop := (evolves_of_slots hu.slots).trans (lcloseLoop_evolves now (List.range s.maxConn) u)
    exact .inl (hloop.trans (evolves_of_slots (ht.slots.trans (listenerCloseCheck_slots _)))).move
  | listenerFailed u hu ht =>
    exact .inl (((evolves_of_slots hu.slots).trans (failLoop_evolves _ u)).trans ht.evolves).move
  | connected i addr isn hi ht => exact .inr ⟨i, _, hi, .inl ⟨rfl, rfl⟩, ht⟩
  | accepted i now addr p isn _ _ _ hi ht => exact .inr ⟨i, _, hi, .inr ⟨rfl, rfl⟩, ht⟩
  | ran i hr => exact .inl hr.evolves.move
  | forced i hf => exact .inl hf.evolves.move
  | freed i hf => exact .inl hf.evolves.move
  | probed i x _ b hx hb ht =>
    subst hb
    exact .inl (setSlot_evolves .refl hx ht ((SendFrame.refl x).alive b).opFrame.toCtxMove)
  | resent now i x refresh k q r _ hx hr ht => exact .inl (setSlot_evolves .refl hx ht (retxLoop_move hr).2)

theorem Evolves.slotMove {s t : State} (h : Evolves CtxMove s t) (j : Nat) : SlotMove (s.ctx? j) (t.ctx? j) := by
  cases hd : t.ctx? j with
  | none =>
    cases s.ctx? j with
    | none => exact .free
    | some c => exact .freed c
  | some d =>
    obtain ⟨c, hc, hm⟩ := h j d hd
    rw [hc]
    exact .moved c d hm

theorem SlotMove.refl (o : Option Ctx) : SlotMove o o := by
  cases o with
  | none => exact .free
  | some c => exact .moved c c (.refl c)

theorem CreatedOn.slotMove {s t : State} (h : CreatedOn s t) (j : Nat) : SlotMove (s.ctx? j) (t.ctx? j) := by
  obtain ⟨i, d, hi, hd, ht⟩ := h
  rw [ht.ctx?, ctx?_setSlot]
  split
  · next hj =>
    rw [← hj.1, ctx?_of_freeSlot? hi]
    exact .created d hd
  · exact .refl _

/-! ### The obligations -/

/-- Settles O25: every effect ends with the latch tested, where it can have been set. -/
theorem everyOperationTestsTheLatch : Obligations.EveryOperationTestsTheLatch := by
  unfold Obligations.EveryOperationTestsTheLatch
  intro op s t hs h
  exact (exec_effect h).unlatched hs

/-- Settles O57: an effect moves what is there, or fills a FREE slot. -/
theorem contextsMoveOnlyAsListed : Obligations.ContextsMoveOnlyAsListed := by
  unfold Obligations.ContextsMoveOnlyAsListed
  intro op s t _ h j
  rcases (exec_effect h).evolves_or_created with hmoved | hcreated
  · exact hmoved.slotMove j
  · exact hcreated.slotMove j

end Sys2Proof.Machine

/-! Proof of the statement about the lifecycle notifications (42_conn_lifecycle.md rule R132). In order: the notifications
among events and the moves they mark; which operations on one context send one; what the operations on the block do to a
slot and say of it; the loops over the table; every instruction; the obligation. -/

namespace Sys2Proof.Machine

open Sys2Proof.Config

/-! ### Notifications and moves -/

/-- Is the event one of EV_CONNECT, EV_ACCEPT and EV_CLOSE? -/
@[simp] def Event.isNotice : Event → Bool
  | .evConnect _ => true
  | .evAccept _ => true
  | .evClose _ => true
  | _ => false

/-- The notifications among these events, in order. -/
def notices (es : List Event) : List Event := es.filter Event.isNotice

@[simp] theorem notices_nil : notices [] = [] := rfl

@[simp] theorem notices_cons (e : Event) (es : List Event) :
    notices (e :: es) = if e.isNotice then e :: notices es else notices es := List.filter_cons

@[simp] theorem notices_append (es fs : List Event) : notices (es ++ fs) = notices es ++ notices fs := List.filter_append ..

/-- Does the event notify of the slot `j`? -/
def Event.notifies (j : Nat) (e : Event) : Bool :=
  decide (e = .evConnect j) || decide (e = .evAccept j) || decide (e = .evClose j)

/-- The notifications of the slot `j` among these events. -/
def noticesOf (j : Nat) (es : List Event) : List Event := es.filter (Event.notifies j)

theorem noticesOf_append (j : Nat) (es fs : List Event) : noticesOf j (es ++ fs) = noticesOf j es ++ noticesOf j fs :=
  List.filter_append ..

theorem noticesOf_notices (j : Nat) (es : List Event) : noticesOf j (notices es) = noticesOf j es := by
  rw [noticesOf, notices, List.filter_filter, noticesOf]
  congr 1
  funext e
  cases e <;> simp [Event.notifies]

theorem mem_noticesOf {j : Nat} {e : Event} (he : e.notifies j = true) (es : List Event) : e ∈ noticesOf j es ↔ e ∈ es := by
  simp [noticesOf, he]

theorem count_noticesOf {j : Nat} {e : Event} (he : e.notifies j = true) (es : List Event) :
    (noticesOf j es).count e = es.count e := List.count_filter he

/-- A slot whose context completes its handshake, and may be closed by the latch in the same operation. -/
def connects : Option Ctx → Option Ctx → Bool
  | some c, some d =>
    decide (c.role = .connect) && decide (c.state = .connecting) &&
      (decide (d.state = .connected) || decide (d.state = .closed) && d.wdone)
  | _, _ => false

/-- A FREE slot that takes an accepting-role context. -/
def accepts : Option Ctx → Option Ctx → Bool
  | none, some d => decide (d.role = .accept)
  | _, _ => false

/-- A slot whose context closes, and keeps the slot or not. -/
def closes : Option Ctx → Option Ctx → Bool
  | some c, some d => decide (c.state ≠ .closed) && decide (d.state = .closed)
  | some c, none => decide (c.state ≠ .closed)
  | none, _ => false

/-- The notifications that the move of slot `i` from `o` to `o'` calls for. -/
def slotNotices (i : Nat) (o o' : Option Ctx) : List Event :=
  (if connects o o' then [.evConnect i] else []) ++ (if accepts o o' then [.evAccept i] else []) ++
    (if closes o o' then [.evClose i] else [])

/-- A slot that keeps its content calls for none. -/
theorem slotNotices_same (i : Nat) (o : Option Ctx) : slotNotices i o o = [] := by
  cases o with
  | none => rfl
  | some c => cases hs : c.state <;> simp [slotNotices, connects, accepts, closes, hs]

/-- A context that keeps its state calls for none. -/
theorem slotNotices_of_state {c d : Ctx} (h : d.state = c.state) (i : Nat) : slotNotices i (some c) (some d) = [] := by
  cases hs : c.state <;> simp [slotNotices, connects, accepts, closes, hs, h]

theorem noticesOf_slotNotices_self (i : Nat) (o o' : Option Ctx) : noticesOf i (slotNotices i o o') = slotNotices i o o' := by
  rw [noticesOf, List.filter_eq_self]
  intro e he
  simp only [slotNotices, List.mem_append, List.mem_ite_nil_right, List.mem_singleton] at he
  rcases he with (⟨-, rfl⟩ | ⟨-, rfl⟩) | ⟨-, rfl⟩ <;> simp [Event.notifies]

theorem noticesOf_slotNotices_ne {i j : Nat} (h : j ≠ i) (o o' : Option Ctx) : noticesOf j (slotNotices i o o') = [] := by
  rw [noticesOf, List.filter_eq_nil_iff]
  intro e he
  simp only [slotNotices, List.mem_append, List.mem_ite_nil_right, List.mem_singleton] at he
  rcases he with (⟨-, rfl⟩ | ⟨-, rfl⟩) | ⟨-, rfl⟩ <;> simp [Event.notifies, Ne.symm h]

/-- From `s` to `t` the events grow, for every slot, by the notifications that its move calls for. -/
def Marks (s t : State) : Prop :=
  ∀ j, noticesOf j t.events = noticesOf j s.events ++ slotNotices j (s.ctx? j) (t.ctx? j)

theorem Marks.congr {s s' t t' : State} (h : Marks s t) (hs : s'.slots = s.slots)
    (hse : notices s'.events = notices s.events) (ht : t'.slots = t.slots) (hte : notices t'.events = notices t.events) :
    Marks s' t' := by
  intro j
  rw [← noticesOf_notices, hte, noticesOf_notices, h j, ← noticesOf_notices j s'.events, hse, noticesOf_notices,
    State.ctx?, State.ctx?, State.ctx?, State.ctx?, hs, ht]

theorem Marks.refl (s : State) : Marks s s := fun j => by rw [slotNotices_same, List.append_nil]

/-- Two stretches that each leave alone the slots on which the other works. -/
theorem Marks.trans {s t u : State} (h : Marks s t) (k : Marks t u)
    (hsep : ∀ j, t.ctx? j = s.ctx? j ∨ u.ctx? j = t.ctx? j) : Marks s u := by
  intro j
  rw [k j, h j]
  rcases hsep j with e | e <;> rw [e, slotNotices_same] <;> simp

/-- From `s` to `t` only the slot `i` changes, and the events grow by the notifications that its move calls for. -/
structure Announces (i : Nat) (s t : State) : Prop extends TableFrame i s t where
  notices : notices t.events = notices s.events ++ slotNotices i (s.ctx? i) (t.ctx? i)

theorem Announces.marks {i : Nat} {s t : State} (h : Announces i s t) : Marks s t := by
  intro j
  rw [← noticesOf_notices, h.notices, noticesOf_append, noticesOf_notices]
  by_cases hj : j = i
  · subst hj; rw [noticesOf_slotNotices_self]
  · rw [noticesOf_slotNotices_ne hj, h.others j hj, slotNotices_same]

/-- An operation that changes no slot and notifies of nothing. -/
theorem announces_of_quiet (i : Nat) {s t : State} (h : SameBlock s t) (hn : notices t.events = notices s.events) :
    Announces i s t :=
  ⟨h.table i, by rw [h.ctx?, slotNotices_same, hn, List.append_nil]⟩

/-! ### Operations on one context -/

@[simp] theorem notices_transmit (p : Packet) (r : Run) : notices (transmit p r).ev = notices r.ev := by simp

@[simp] theorem notices_sendOutgoing (p : Packet) (r : Run) : notices (sendOutgoing p r).ev = notices r.ev := by simp

@[simp] theorem notices_sendAck (now : U32) (r : Run) : notices (sendAck now r).ev = notices r.ev := notices_transmit _ r

@[simp] theorem notices_tryFin (now : U32) (r : Run) : notices (tryFin now r).ev = notices r.ev := by
  rcases tryFin_cases now r with ⟨-, e⟩ | ⟨-, e⟩ <;> simp [e]

theorem notices_pumpLoop (now : U32) (i fuel : Nat) (r : Run) : notices (pumpLoop now i fuel r).ev = notices r.ev := by
  induction fuel generalizing r with
  | zero => rfl
  | succ n ih =>
    rw [Laws.Send.pumpLoop_succ]
    split
    · rfl
    · split
      · rfl
      · split
        · simp [Laws.Send.sendSegment]
        · rw [ih]; exact notices_sendOutgoing _ r

@[simp] theorem notices_pump (now : U32) (i : Nat) (r : Run) : notices (pump now i r).ev = notices r.ev := by
  unfold pump
  split
  · exact notices_pumpLoop ..
  · rfl

theorem notices_onFlush (now : U32) (i : Nat) (r : Run) : notices (onFlush now i r).ev = notices r.ev := by
  rcases onFlush_cases now i r with ⟨-, e⟩ | ⟨-, e⟩ <;> simp [e]

@[simp] theorem notices_recvAck (now : U32) (i : Nat) (a : U16) (r : Run) :
    notices (recvAck now i a r).ev = notices r.ev := by
  rcases recvAck_cases now i a r with ⟨-, e⟩ | ⟨-, -, -, e⟩ | ⟨-, -, -, -, e⟩ <;> rw [e]
  exact notices_onFlush ..

theorem notices_deliver (i : Nat) (q : Packet) (r : Run) : notices (deliver i q r).ev = notices r.ev := by
  rw [deliver_eq, notices_append, List.append_right_eq_self]
  split
  · rfl
  · split
    · cases q.payload <;> simp
    · split <;> simp

theorem notices_drainLoop (i fuel : Nat) (r : Run) : notices (drainLoop i fuel r).ev = notices r.ev := by
  induction fuel generalizing r with
  | zero => rfl
  | succ n ih =>
    rw [drainLoop]
    split
    · rfl
    · rw [ih, notices_deliver]

@[simp] theorem notices_drain (i : Nat) (r : Run) : notices (drain i r).ev = notices r.ev := notices_drainLoop ..

theorem notices_completeConnect (now : U32) (i : Nat) (p : Packet) (r : Run) :
    notices (completeConnect now i p r).ev = notices r.ev ++ [.evConnect i] := by
  simp only [completeConnect, notices_tryFin]
  split <;> simp

theorem notices_recvEstablished (now : U32) (i : Nat) (dup : Bool) (p : Packet) (r : Run) :
    notices (recvEstablished now i dup p r).ev = notices r.ev := by
  unfold recvEstablished
  split
  · exact notices_sendAck ..
  · simp only
    split <;> simp

theorem notices_acceptWrite (now : U32) (i : Nat) (b : Bytes) (r : Run) :
    notices (acceptWrite now i b r).ev = notices r.ev := by
  unfold acceptWrite
  split
  · simp
  · split
    · simp
    · split <;> simp

theorem notices_retxLoop {now : U32} {refresh : Bool} {k : Nat} {q : U16} {r t : Run}
    (h : retxLoop now refresh k q r = some t) : notices t.ev = notices r.ev := by
  induction k generalizing q r with
  | zero => cases h; rfl
  | succ n ih =>
    cases hg : ringGet r.ctx.outRing q with
    | none => simp [retxLoop, hg] at h
    | some e =>
      rw [retxLoop_succ hg] at h
      split at h
      · rw [ih h]; simp
      · exact ih h

theorem notices_keepAlive (now : U32) (r : Run) : notices (keepAlive now r).ev = notices r.ev := by
  unfold keepAlive
  split
  · rfl
  · exact notices_sendAck ..

/-- An operation that makes `d` of the context `c` of slot `i` and emits `es` either keeps the state and notifies of
nothing, or completes the handshake and emits EV_CONNECT. -/
def Heralds (i : Nat) (c d : Ctx) (es : List Event) : Prop :=
  (d.state = c.state ∧ notices es = []) ∨
    (c.state = .connecting ∧ d.state = .connected ∧ notices es = [.evConnect i])

theorem SendFrame.heralds {c d : Ctx} (h : SendFrame c d) {es : List Event} (hn : notices es = []) (i : Nat) :
    Heralds i c d es := .inl ⟨h.state, hn⟩

theorem recvEstablished_keeps_state (now : U32) (i : Nat) (dup : Bool) (p : Packet) (r : Run) :
    (recvEstablished now i dup p r).ctx.state = r.ctx.state := by
  have hack := (recvAck_frame now i p.ack r).state
  unfold recvEstablished
  split
  · rfl
  · simp only
    split
    · exact hack
    · rw [(sendAck_frame now _).state, (drain_frame i _).eq]
      exact hack

/-- Only a STATE packet at a connecting context sends a notification (R124). -/
theorem recvOpen_heralds (now : U32) (i : Nat) (dup : Bool) (p : Packet) (c : Ctx) :
    Heralds i c (recvOpen now i dup p ⟨c, []⟩).ctx (recvOpen now i dup p ⟨c, []⟩).ev := by
  unfold recvOpen
  split
  · next hs =>
    split
    · have hstate := (completeConnect_frame now i p ⟨c, []⟩).state
      have hnotice := notices_completeConnect now i p ⟨c, []⟩
      refine .inr ⟨hs, ?_⟩
      simp only
      split
      · exact ⟨hstate, hnotice⟩
      · rw [recvEstablished_keeps_state, notices_recvEstablished]
        exact ⟨hstate, hnotice⟩
    · exact .inl ⟨rfl, rfl⟩
  · exact .inl ⟨recvEstablished_keeps_state .., notices_recvEstablished ..⟩

theorem bindAndSyn_heralds (now : U32) (port : U16) (i : Nat) (c : Ctx) :
    Heralds i c (bindAndSyn now port ⟨c, []⟩).ctx (bindAndSyn now port ⟨c, []⟩).ev :=
  .inl ⟨rfl, notices_sendOutgoing ..⟩

theorem requestEnd_heralds (now : U32) (i : Nat) (c : Ctx) :
    Heralds i c (requestEnd now ⟨c, []⟩).ctx (requestEnd now ⟨c, []⟩).ev :=
  .inl ⟨(tryFin_frame now _).state, notices_tryFin ..⟩

theorem acceptWrite_heralds (now : U32) (i : Nat) (b : Bytes) (c : Ctx) :
    Heralds i c (acceptWrite now i b ⟨c, []⟩).ctx (acceptWrite now i b ⟨c, []⟩).ev := by
  refine .inl ⟨?_, notices_acceptWrite ..⟩
  unfold acceptWrite
  split
  · rfl
  · split
    · rfl
    · split
      · rfl
      · exact (pump_frame now i _).state

/-! ### Operations on the block (R127 to R129) -/

theorem notices_listenerCloseCheck (s : State) : notices (listenerCloseCheck s).events = notices s.events := by
  rcases listenerCloseCheck_cases s with ⟨-, -, e⟩ | ⟨-, e⟩ <;> simp [e]

/-- A teardown announces EV_CLOSE (R129). -/
theorem notices_teardown (i : Nat) (c : Ctx) (mode : CloseMode) (s : State) :
    notices (teardown i c mode s).events = notices s.events ++ [.evClose i] := by
  cases hr : c.role with
  | accept => rw [teardown_accept hr, notices_listenerCloseCheck]; simp
  | connect =>
    cases mode with
    | normal => rw [teardown_normal hr]; simp
    | noGrace => rw [teardown_noGrace hr]; simp

theorem notices_forceClose {c : Ctx} (h : c.state ≠ .closed) (i : Nat) (mode : CloseMode) (s : State) :
    notices (forceClose i c mode s).events = notices s.events ++ [.evClose i] := by
  rw [forceClose_open h, notices_teardown]
  split <;> simp

/-- Before the handshake completes the FIN was not sent, so that it was not acknowledged (R149). -/
theorem CtxCore.wdone_of_connecting {i : Nat} {c : Ctx} (h : CtxCore i c) (hs : c.state = .connecting) :
    c.wdone = false := by
  obtain ⟨-, hf, -⟩ := h.handshake hs
  exact h.send.wdone_false hf

/-- What the slot calls for where the latch closes the context. -/
theorem slotNotices_latched {i : Nat} {c d : Ctx} {es : List Event} (hc : CtxCore i c) (hd : CtxCore i d)
    (hh : Heralds i c d es) (hl : d.latched = true) (hr : d.role = c.role) :
    slotNotices i (some c) (if d.role = .connect then some { d with state := .closed, grace := true } else none) =
      notices es ++ [.evClose i] := by
  obtain ⟨hopen, hw, -⟩ := (latched_iff d).1 hl
  rcases hh with ⟨hs, hn⟩ | ⟨hs, hs', hn⟩ <;> rw [hn]
  · have hconn : c.state ≠ .connecting := fun h => by
      rw [hd.wdone_of_connecting (hs.trans h)] at hw; cases hw
    rw [hs] at hopen
    split <;> simp [slotNotices, connects, accepts, closes, hconn, hopen]
  · have hrole := (hc.handshake hs).1
    simp [slotNotices, connects, accepts, closes, hr, hrole, hs, hw]

/-- What the slot calls for where the latch does not close the context. -/
theorem slotNotices_heralds {i : Nat} {c d : Ctx} {es : List Event} (hc : CtxCore i c) (hh : Heralds i c d es) :
    slotNotices i (some c) (some d) = notices es := by
  rcases hh with ⟨hs, hn⟩ | ⟨hs, hs', hn⟩ <;> rw [hn]
  · exact slotNotices_of_state hs i
  · simp [slotNotices, connects, accepts, closes, (hc.handshake hs).1, hs, hs']

/-- An operation on the context of a slot and the test of its latch: `u` is the block between the two. -/
theorem endOfOp_announces {i : Nat} {s u : State} {c d : Ctx} {es : List Event} (hc : s.ctx? i = some c)
    (hinv : CtxInv i c) (hop : CtxOp i c d) (hh : Heralds i c d es) (hu : SameBlock (s.setSlot i (some d)) u)
    (hn : notices u.events = notices s.events ++ notices es) : Announces i s (endOfOp i u) := by
  have hcore := (ctxInv_iff.1 hinv).1
  have hd := setSlot_slot hc hu
  refine ⟨(setSlot_table hu).trans (endOfOp_frame i u).table, ?_⟩
  rw [hc, endOfOp_slot hd]
  cases hl : d.latched with
  | true =>
    rw [endOfOp_latched hd hl, notices_teardown, hn, if_pos rfl,
      slotNotices_latched hcore (hop.core hcore) hh hl hop.opFrame.role, List.append_assoc]
  | false => rw [endOfOp_unlatched hd hl, hn, if_neg Bool.false_ne_true, slotNotices_heralds hcore hh]

/-- A forced close of a context that was not closed: it never completes a handshake. -/
theorem forceClose_announces {i : Nat} {s u : State} {c : Ctx} (hc : s.ctx? i = some c) (hinv : CtxInv i c)
    (hs : c.state ≠ .closed) (rd : Bool) (mode : CloseMode) (hu : SameBlock s u)
    (hn : notices u.events = notices s.events) : Announces i s (forceClose i { c with rdone := rd } mode u) := by
  refine ⟨(hu.table i).trans (forceClose_frame i _ mode u).table, ?_⟩
  rw [notices_forceClose (c := { c with rdone := rd }) hs, hn, hc,
    forceClose_slot (c := { c with rdone := rd }) ((hu.ctx? i).trans hc) hs, List.append_cancel_left_eq]
  have hw : c.state = .connecting → c.wdone = false := (ctxInv_iff.1 hinv).1.wdone_of_connecting
  split
  · simpa [slotNotices, connects, accepts, closes, hs] using fun _ => hw
  · simp [slotNotices, connects, accepts, closes, hs]

/-! ### The loops over the table (R196, R200) -/

/-- A loop over different slots, whose rounds keep `P`. -/
theorem foldl_marks {P : State → Prop} {f : State → Nat → State}
    (hf : ∀ s i, P s → P (f s i) ∧ Announces i s (f s i)) {l : List Nat} (hl : l.Nodup) {s : State} (hs : P s) :
    Marks s (l.foldl f s) ∧ ∀ j, j ∉ l → (l.foldl f s).ctx? j = s.ctx? j := by
  induction l generalizing s with
  | nil => exact ⟨.refl s, fun _ _ => rfl⟩
  | cons i l ih =>
    obtain ⟨hi, hl⟩ := List.nodup_cons.1 hl
    obtain ⟨hp, hround⟩ := hf s i hs
    obtain ⟨hmarks, hkept⟩ := ih hl hp
    refine ⟨hround.marks.trans hmarks fun j => ?_, fun j hj => ?_⟩
    · by_cases hj : j = i
      · exact .inr (hkept j (hj ▸ hi))
      · exact .inl (hround.others j hj)
    · rw [List.mem_cons, not_or] at hj
      exact (hkept j hj.2).trans (hround.others j hj.1)

theorem lcloseSlot_announces (now : U32) (i : Nat) {s : State} (hs : ClosingInv s) :
    Announces i s (lcloseSlot now i s) := by
  unfold lcloseSlot
  split
  · next c hc =>
    split
    · have hinv := hs.ctx i c hc
      split
      · next hopen =>
        exact endOfOp_announces hc hinv (.ended now hopen.1) (requestEnd_heralds now i c)
          ((SameBlock.refl s).runOn i c _) (by simp)
      · exact endOfOp_announces hc hinv .kept (es := []) (.inl ⟨rfl, rfl⟩) (setSlot_ctx? hc) (by simp)
    · exact announces_of_quiet i (.refl s) rfl
  · exact announces_of_quiet i (.refl s) rfl

theorem lcloseSlot_closingInv (now : U32) (i : Nat) {s : State} (hs : ClosingInv s) : ClosingInv (lcloseSlot now i s) := by
  rcases lcloseSlot_cases now i s with e | hran
  · rw [e]; exact hs
  · exact hran.closingInv hs

theorem failSlot_announces (i : Nat) {s : State} (hs : TableInv s) : Announces i s (failSlot i s) := by
  unfold failSlot
  split
  · next c hc =>
    split
    · next hr =>
      have hinv := hs.ctx i c hc
      have hopen : c.state ≠ .closed := by
        rw [((ctxInv_iff.1 hinv).1.base.accepting_open hr).2]; decide
      exact forceClose_announces hc hinv hopen c.rdone .normal (sameBlock_emits s _) (by simp)
    · exact announces_of_quiet i (.refl s) rfl
  · exact announces_of_quiet i (.refl s) rfl

/-! ### Instructions -/

/-- An operation that starts in `s` and answers a next state has notified of the moves it made. -/
def AnswerMarks (s : State) (a : Answer) : Prop := ∀ t, a = .next t → Marks s.start t

theorem answerMarks_of_marks {s u : State} (h : Marks s.start u) {st : Status} {v : Value} :
    AnswerMarks s (u.answer st v) := by
  rintro _ ⟨⟩
  exact h

/-- An answer after no move and no notification. -/
theorem answerMarks_of_quiet {s u : State} (hs : u.slots = s.slots) (hn : notices u.events = []) {st : Status}
    {v : Value} : AnswerMarks s (u.answer st v) :=
  answerMarks_of_marks ((Marks.refl s.start).congr rfl rfl hs hn)

theorem answerMarks_outputs {s : State} {st : Status} {v : Value} : AnswerMarks s (s.start.answer st v) :=
  answerMarks_of_quiet rfl rfl

theorem answerMarks_surface {s : State} {sock : Sock} {addr : Addr} {raw : Bytes} :
    AnswerMarks s (s.start.surface sock addr raw) :=
  answerMarks_of_quiet rfl rfl

theorem answerMarks_fault {s : State} {f : Fault} : AnswerMarks s (.fault f) := by rintro _ ⟨⟩

/-- An operation on one context, put together by `State.runOn`, and the test of its latch. -/
theorem answerMarks_runOn {s : State} {i : Nat} {c : Ctx} {f : Run → Run} (hc : s.ctx? i = some c) (hinv : CtxInv i c)
    (hop : CtxOp i c (f ⟨c, []⟩).ctx) (hh : Heralds i c (f ⟨c, []⟩).ctx (f ⟨c, []⟩).ev) :
    AnswerMarks s (endOfOp i (s.start.runOn i c f)).done :=
  answerMarks_of_marks
    (endOfOp_announces (s := s.start) hc hinv hop hh ((SameBlock.refl s.start).runOn i c f) (by simp)).marks

/-- A tick on one context, which keeps its state. -/
theorem answerMarks_tick {s : State} {i : Nat} {c : Ctx} {f : Run → Run} (hc : s.ctx? i = some c)
    (hs : (f ⟨c, []⟩).ctx.state = c.state) (hn : notices (f ⟨c, []⟩).ev = []) :
    AnswerMarks s (s.start.runOn i c f).done := by
  have hu := (SameBlock.refl s.start).runOn i c f
  have hann : Announces i s.start (s.start.runOn i c f) :=
    ⟨setSlot_table hu, by
      rw [setSlot_slot (s := s.start) hc hu, start_ctx?, hc, slotNotices_of_state hs]; simp [hn]⟩
  exact answerMarks_of_marks hann.marks

/-- A slot that takes a new context, or that a closed context leaves. -/
theorem answerMarks_setSlot {s : State} {i : Nat} {o : Option Ctx} {es : List Event} (hi : i < s.slots.length)
    (hn : notices es = slotNotices i (s.ctx? i) o) {st : Status} {v : Value} :
    AnswerMarks s (((s.start.setSlot i o).emits es).answer st v) := by
  have hu : SameBlock (s.start.setSlot i o) ((s.start.setSlot i o).emits es) := sameBlock_emits _ es
  have hann : Announces i s.start ((s.start.setSlot i o).emits es) :=
    ⟨setSlot_table hu, by
      rw [emits_ctx?, ctx?_setSlot_self (s := s.start) o hi, start_ctx?, ← hn]; simp⟩
  exact answerMarks_of_marks hann.marks

section Legal

variable {s : State} (hs : EngineInv s)
include hs

theorem execLclose_marks (now : U32) : AnswerMarks s (execLclose now s) := by
  unfold execLclose
  split
  · have htable := (engineInv_iff.1 hs).1.toTableInv
    have hstart : ClosingInv { s.start with lstate := .shutting } :=
      ⟨htable.congr rfl htable.tring, by rintro ⟨⟩⟩
    have hloop := (foldl_marks (fun u i hu => ⟨lcloseSlot_closingInv now i hu, lcloseSlot_announces now i hu⟩)
      (List.nodup_range (n := s.maxConn)) hstart).1
    exact answerMarks_of_marks
      (hloop.congr rfl rfl (listenerCloseCheck_slots _) (notices_listenerCloseCheck _))
  · exact answerMarks_outputs

omit hs in
theorem execConnect_marks (now : U32) (addr : Addr) (isn : U16) : AnswerMarks s (execConnect now addr isn s) := by
  unfold execConnect
  split
  · exact answerMarks_outputs
  · next i hi =>
    refine answerMarks_setSlot (List.getElem?_eq_some_iff.1 (freeSlot?_eq_some hi).1).1 ?_
    rw [ctx?_of_freeSlot? hi]
    rfl

theorem execBound_marks (now : U32) (c : Nat) (port : U16) : AnswerMarks s (execBound now c port s) := by
  unfold execBound
  split
  · exact answerMarks_outputs
  · next x hx =>
    obtain ⟨hc, hr⟩ := connectCtx?_eq_some.1 hx
    split
    · exact answerMarks_outputs
    · next hopen =>
      rw [not_or, Bool.not_eq_true] at hopen
      exact answerMarks_runOn hc (hs.ctx c x hc) (.bound now port hr hopen.1) (bindAndSyn_heralds now port c x)

theorem execEndWrite_marks (now : U32) (c : Nat) : AnswerMarks s (execEndWrite now c s) := by
  unfold execEndWrite
  split
  · exact answerMarks_outputs
  · next x hc =>
    split
    · exact answerMarks_outputs
    · next hopen =>
      exact answerMarks_runOn hc (hs.ctx c x hc) (.ended now fun h => hopen (.inl h)) (requestEnd_heralds now c x)

theorem execReadEnd_marks (now : U32) (c : Nat) : AnswerMarks s (execReadEnd now c s) := by
  unfold execReadEnd
  split
  · exact answerMarks_outputs
  · next x hc =>
    split
    · exact answerMarks_outputs
    · next hopen =>
      exact answerMarks_of_marks (endOfOp_announces (s := s.start) (es := []) hc (hs.ctx c x hc) (.readEnded hopen)
        (.inl ⟨rfl, rfl⟩) (.refl _) (by simp)).marks

theorem execWrite_marks (now : U32) (c : Nat) (b : Bytes) : AnswerMarks s (execWrite now c b s) := by
  unfold execWrite
  split
  · exact answerMarks_outputs
  · next x hc =>
    split
    · exact answerMarks_outputs
    · exact answerMarks_runOn hc (hs.ctx c x hc) (.written now b) (acceptWrite_heralds now c b x)

/-- The slot of a context in its grace period is freed without a notification: the context was closed before (R199). -/
theorem grace_freed_marks {c : Nat} {x : Ctx} (hc : s.ctx? c = some x) (hg : x.grace = true) :
    AnswerMarks s (State.done ((s.start.emits [.sockClose (.psock c)]).setSlot c none)) := by
  have hclosed : x.state = .closed := (hs.ctx c x hc).closed.2 hg
  refine answerMarks_setSlot (s := s) (i := c) (o := none) (es := [.sockClose (.psock c)]) (ctx?_lt hc) ?_
  rw [hc]
  simp [slotNotices, connects, accepts, closes, hclosed]

theorem execGraceExpired_marks (now : U32) (c : Nat) : AnswerMarks s (execGraceExpired now c s) := by
  unfold execGraceExpired
  split
  · exact answerMarks_outputs
  · next x hx =>
    split
    · exact answerMarks_outputs
    · next hg => exact grace_freed_marks hs (connectCtx?_eq_some.1 hx).1 (by simpa using hg)

theorem execSockErr_marks (now : U32) (sock : Sock) : AnswerMarks s (execSockErr now sock s) := by
  cases sock with
  | lsock =>
    simp only [execSockErr]
    split
    · exact answerMarks_outputs
    · have htable := (engineInv_iff.1 hs).1.toTableInv
      have hstart : TableInv { s.start.emits [.evError .listener .errSocket] with lstate := .idle } :=
        htable.congr rfl htable.tring
      have hloop := (foldl_marks (fun u i hu => ⟨(hu.failSlot i).1, failSlot_announces i hu⟩)
        (List.nodup_range (n := s.maxConn)) hstart).1
      refine answerMarks_of_marks (Marks.congr (s' := s.start) hloop rfl rfl ?_ ?_)
      · rfl
      · simp
  | psock i =>
    simp only [execSockErr]
    split
    · exact answerMarks_outputs
    · next c hx =>
      have hc := (connectCtx?_eq_some.1 hx).1
      split
      · next hopen =>
        exact answerMarks_of_marks (forceClose_announces (s := s.start) hc (hs.ctx i c hc) hopen c.rdone .noGrace
          (sameBlock_emits s.start _) (by simp)).marks
      · split
        · next hg => exact grace_freed_marks hs hc hg
        · exact answerMarks_outputs

omit hs in
theorem execTickRetx_marks (now : U32) (c : Nat) : AnswerMarks s (execTickRetx now c s) := by
  unfold execTickRetx
  split
  · exact answerMarks_outputs
  · next x hc =>
    split
    · exact answerMarks_outputs
    · split
      · exact answerMarks_fault
      · split
        · split
          · exact answerMarks_fault
          · next r hr =>
            exact answerMarks_tick hc (by rw [retxLoop_frame hr]) (notices_retxLoop hr)
        · exact answerMarks_outputs

omit hs in
theorem execTickKa_marks (now : U32) (c : Nat) : AnswerMarks s (execTickKa now c s) := by
  unfold execTickKa
  split
  · exact answerMarks_outputs
  · next x hc =>
    split
    · exact answerMarks_tick hc (by rw [keepAlive_ctx]) (notices_keepAlive now ⟨x, []⟩)
    · exact answerMarks_outputs

/-- A dispatch to a context that is bound or accepting (R140). -/
theorem afterReceive_marks {i : Nat} {c : Ctx} (hc : s.ctx? i = some c) (hb : c.bound = true ∨ c.role = .accept)
    {p : Packet} (hp : p.type.toNat ≤ 4) (now : U32) (sock : Sock) (addr : Addr) (raw : Bytes) :
    AnswerMarks s (afterReceive i sock addr raw (recvIncoming now i c p s.start)) := by
  have hinv := hs.ctx i c hc
  have surfaced : AnswerMarks s (afterReceive i sock addr raw (.ok ⟨s.start, false⟩)) :=
    answerMarks_of_marks (endOfOp_announces (s := s.start) (es := []) hc hinv .kept (.inl ⟨rfl, rfl⟩)
      ((setSlot_ctx? (s := s.start) hc).trans (sameBlock_emits s.start _)) (by simp)).marks
  by_cases hopen : c.state = .closed
  · rw [recvIncoming_closed hopen]; exact surfaced
  by_cases hsyn : p.type = tySyn
  · cases hr : c.role with
    | connect => rw [recvIncoming_syn_connect hsyn hr]; exact surfaced
    | accept =>
      cases hsa : c.synack with
      | none =>
        rw [recvIncoming, if_neg hopen, if_pos hsyn]
        simp only [hr, hsa]
        exact answerMarks_fault
      | some sa =>
        rw [recvIncoming_syn hopen hsyn hr hsa]
        exact answerMarks_runOn hc hinv (.resent sa) ((transmit_frame sa ⟨c, []⟩).heralds (by simp) i)
  by_cases hres : p.type = tyReset
  · have hsame : SameBlock s.start (if c.rdone then s.start else s.start.emits [.rxEof i]) := by
      split <;> exact ⟨rfl, rfl, rfl⟩
    rw [recvIncoming_reset hopen hres, afterReceive_handled,
      endOfOp_forceClose (c := { c with rdone := true }) ((hsame.ctx? i).trans hc) hopen]
    exact answerMarks_of_marks (forceClose_announces (s := s.start) hc hinv hopen true .normal hsame
      (by split <;> simp)).marks
  · rw [recvIncoming_open hopen hsyn hres]
    exact answerMarks_runOn hc hinv (.received now _ p hopen hb (type_of_toNat_le hp hsyn hres))
      (recvOpen_heralds now i _ p c)

/-- The listener's path: a new context in a FREE slot is announced as accepted (R123, R195). -/
theorem routeListener_marks {p : Packet} (hp : p.type.toNat ≤ 4) (now : U32) (addr : Addr) (raw : Bytes) (isn : U16) :
    AnswerMarks s (routeListener now addr raw isn p s) := by
  unfold routeListener
  split
  · next i hl =>
    obtain ⟨c, hc, hr, -, -⟩ := lookup_eq_some hl
    rw [hc]
    exact afterReceive_marks hs hc (.inr hr) hp now _ _ _
  · split
    · exact answerMarks_surface
    · split
      · exact answerMarks_surface
      · split
        · exact answerMarks_surface
        · next j hj =>
          rw [acceptCreate_eq]
          refine answerMarks_setSlot (List.getElem?_eq_some_iff.1 (freeSlot?_eq_some hj).1).1 ?_
          rw [ctx?_of_freeSlot? hj]
          rfl

theorem routePrivate_marks {c : Nat} {x : Ctx} (hc : s.ctx? c = some x) (hb : x.bound = true) {p : Packet}
    (hp : p.type.toNat ≤ 4) (now : U32) (addr : Addr) (raw : Bytes) :
    AnswerMarks s (routePrivate now c x addr raw p s) := by
  unfold routePrivate
  split
  · exact answerMarks_outputs
  · split
    · exact answerMarks_surface
    · exact afterReceive_marks hs hc (.inl hb) hp now _ _ _

theorem receiveWire_marks {p : Packet} (hp : p.type.toNat ≤ 4) (now : U32) (rx : Rx) (raw : Bytes) :
    AnswerMarks s (receiveWire now rx raw p s) := by
  cases rx with
  | lsock addr isn => exact routeListener_marks hs hp now addr raw isn
  | psock c addr =>
    simp only [receiveWire]
    split
    · exact answerMarks_outputs
    · next x hx =>
      split
      · exact answerMarks_outputs
      · next hb => exact routePrivate_marks hs (connectCtx?_eq_some.1 hx).1 (by simpa using hb) hp now addr raw

theorem execDgramL_marks (now : U32) (addr : Addr) (b : Bytes) (isn : U16) :
    AnswerMarks s (execDgramL now addr b isn s) := by
  unfold execDgramL
  split
  · exact answerMarks_outputs
  · split
    · exact answerMarks_surface
    · next hp => exact routeListener_marks hs (Nat.le_of_not_lt hp) now addr b isn

theorem execDgramP_marks (now : U32) (c : Nat) (addr : Addr) (b : Bytes) :
    AnswerMarks s (execDgramP now c addr b s) := by
  unfold execDgramP
  split
  · exact answerMarks_outputs
  · next x hx =>
    split
    · exact answerMarks_outputs
    · next hb =>
      split
      · exact answerMarks_outputs
      · split
        · exact answerMarks_surface
        · next hp =>
          exact routePrivate_marks hs (connectCtx?_eq_some.1 hx).1 (by simpa using hb) (Nat.le_of_not_lt hp) now addr b

/-- Every instruction notifies of the moves it makes, and of nothing else. -/
theorem exec_marks (op : Instr) : AnswerMarks s (exec op s) := by
  cases op with
  | data now rx hd pl => exact receiveWire_marks hs (p := packetOf tyData hd pl) (show tyData.toNat ≤ 4 by decide) _ _ _
  | fin now rx hd pl => exact receiveWire_marks hs (p := packetOf tyFin hd pl) (show tyFin.toNat ≤ 4 by decide) _ _ _
  | state now rx hd pl => exact receiveWire_marks hs (p := packetOf tyState hd pl) (show tyState.toNat ≤ 4 by decide) _ _ _
  | reset now rx hd pl => exact receiveWire_marks hs (p := packetOf tyReset hd pl) (show tyReset.toNat ≤ 4 by decide) _ _ _
  | syn now rx hd pl => exact receiveWire_marks hs (p := packetOf tySyn hd pl) (show tySyn.toNat ≤ 4 by decide) _ _ _
  | encode now p => exact answerMarks_outputs
  | decode now b =>
    simp only [exec, execDecode]
    split <;> exact answerMarks_outputs
  | ringPut now q v => exact answerMarks_of_quiet rfl rfl
  | ringGet now q => exact answerMarks_outputs
  | ringDel now q => exact answerMarks_of_quiet rfl rfl
  | listen now =>
    simp only [exec, execListen]
    split
    · exact answerMarks_of_quiet rfl rfl
    · exact answerMarks_outputs
  | lclose now => exact execLclose_marks hs now
  | dgramL now addr b isn => exact execDgramL_marks hs now addr b isn
  | connect now addr isn => exact execConnect_marks now addr isn
  | bound now c port => exact execBound_marks hs now c port
  | dgramP now c addr b => exact execDgramP_marks hs now c addr b
  | graceExpired now c => exact execGraceExpired_marks hs now c
  | write now c b => exact execWrite_marks hs now c b
  | endWrite now c => exact execEndWrite_marks hs now c
  | readEnd now c => exact execReadEnd_marks hs now c
  | tickRetx now c => exact execTickRetx_marks now c
  | tickKa now c => exact execTickKa_marks now c
  | sockErr now sock => exact execSockErr_marks hs now sock
  | ctxRead now c r =>
    simp only [exec, execCtxRead]
    split
    · exact answerMarks_outputs
    · split <;> exact answerMarks_outputs
  | glbRead now r =>
    simp only [exec, execGlbRead]
    split <;> exact answerMarks_outputs
  | ringPeek now c which q =>
    simp only [exec, execRingPeek]
    split
    · exact answerMarks_outputs
    · split <;> exact answerMarks_outputs

end Legal

/-! ### The obligation -/

theorem connects_iff (o o' : Option Ctx) :
    connects o o' = true ↔
      ∃ c d, o = some c ∧ o' = some d ∧ c.role = .connect ∧ c.state = .connecting ∧
        (d.state = .connected ∨ d.state = .closed ∧ d.wdone = true) := by
  cases o <;> cases o' <;> simp [connects, and_assoc]

theorem accepts_iff (o o' : Option Ctx) : accepts o o' = true ↔ o = none ∧ ∃ d, o' = some d ∧ d.role = .accept := by
  cases o <;> cases o' <;> simp [accepts]

theorem closes_iff (o o' : Option Ctx) :
    closes o o' = true ↔ ∃ c, o = some c ∧ c.state ≠ .closed ∧ ∀ d, o' = some d → d.state = .closed := by
  cases o <;> cases o' <;> simp [closes]

theorem mem_slotNotices (j : Nat) (o o' : Option Ctx) :
    (Event.evConnect j ∈ slotNotices j o o' ↔ connects o o' = true) ∧
      (Event.evAccept j ∈ slotNotices j o o' ↔ accepts o o' = true) ∧
      (Event.evClose j ∈ slotNotices j o o' ↔ closes o o' = true) := by
  simp [slotNotices]

/-- No move calls for a notification twice. -/
theorem nodup_slotNotices (j : Nat) (o o' : Option Ctx) : (slotNotices j o o').Nodup := by
  unfold slotNotices
  cases connects o o' <;> cases accepts o o' <;> cases closes o o' <;> simp

/-- A new accepting-role context is connected (R120). -/
theorem accept_created_connected {op : Instr} {s t : State} {j : Nat} {d : Ctx} (h : exec op s = .next t)
    (hs : s.ctx? j = none) (hd : t.ctx? j = some d) (hr : d.role = .accept) : d.state = .connected := by
  have hmove : SlotMove (s.ctx? j) (t.ctx? j) := (exec_effect h).evolves_or_created.elim (·.slotMove j) (·.slotMove j)
  rw [hs, hd] at hmove
  cases hmove with
  | created _ hcreated =>
    rcases hcreated with ⟨hconn, -⟩ | ⟨-, hstate⟩
    · rw [hr] at hconn; cases hconn
    · exact hstate

/-- Settles O58: the notifications of a slot in the events are the ones its move calls for. -/
theorem lifecycleNotificationsMarkTheirMoves : Obligations.LifecycleNotificationsMarkTheirMoves := by
  unfold Obligations.LifecycleNotificationsMarkTheirMoves
  intro op s t j hs h
  have hmarks : noticesOf j t.events = slotNotices j (s.ctx? j) (t.ctx? j) := exec_marks hs op t h j
  obtain ⟨hconnect, haccept, hclose⟩ := mem_slotNotices j (s.ctx? j) (t.ctx? j)
  have hmem {e : Event} (he : e.notifies j = true) : e ∈ t.events ↔ e ∈ slotNotices j (s.ctx? j) (t.ctx? j) := by
    rw [← hmarks, mem_noticesOf he]
  have honce {e : Event} (he : e.notifies j = true) : t.events.count e ≤ 1 := by
    rw [← count_noticesOf he, hmarks]
    exact List.nodup_iff_count_le_one.1 (nodup_slotNotices ..) e
  have hc : (Event.evConnect j).notifies j = true := by simp [Event.notifies]
  have ha : (Event.evAccept j).notifies j = true := by simp [Event.notifies]
  have hx : (Event.evClose j).notifies j = true := by simp [Event.notifies]
  exact ⟨(hmem hc).trans (hconnect.trans (connects_iff ..)), (hmem ha).trans (haccept.trans (accepts_iff ..)),
    fun d hfree hd hr => accept_created_connected h hfree hd hr, (hmem hx).trans (hclose.trans (closes_iff ..)),
    honce hc, honce ha, honce hx⟩

end Sys2Proof.Machine

/-! Proofs of the statements about the receipt of packets at a context (43_conn_receive.md rules R140 to R152). In order: a
packet dispatched to the context it reaches; a forced close in the terms of the statements; what an acknowledgment
leaves when no write resumes; what a stored packet leaves; a packet buffered under the number of the handshake's STATE
packet; the obligations. -/

namespace Sys2Proof.Machine

open Sys2Proof.Config

/-! ### Dispatch (R192, R198) -/

/-- The receipt of a packet is receive processing at the context it reaches, on either socket. -/
theorem exec_reaches {op : Instr} {now : U32} {rx : Rx} {ty : BitVec 4} {h : WireHeader} {pl : Option Bytes} {s : State}
    {i : Nat} {c : Ctx} (hop : Receives op now rx ty h pl) (hr : Reaches s rx (packetOf ty h pl) i c) :
    exec op s =
      afterReceive i rx.sock rx.addr (wireBytes ty h pl) (recvIncoming now i c (packetOf ty h pl) s.start) := by
  rw [exec_receives hop, receiveWire_reaches hr]

theorem type_ne_of_dataOrFin {ty : BitVec 4} (h : ty = tyData ∨ ty = tyFin) :
    ty ≠ tyState ∧ ty ≠ tySyn ∧ ty ≠ tyReset := by
  rcases h with rfl | rfl <;> decide

theorem type_ne_of_dataFinOrState {ty : BitVec 4} (h : ty = tyData ∨ ty = tyFin ∨ ty = tyState) :
    ty ≠ tySyn ∧ ty ≠ tyReset := by
  rcases h with rfl | rfl | rfl <;> decide

/-! ### A forced close (R128) -/

/-- A forced close of a context that is not closed, in the terms of the statements: `before` are the events that the
operation emitted before it. -/
theorem forceClose_done {s : State} {i : Nat} {c d : Ctx} (hc : s.ctx? i = some c) (hd : d.state ≠ .closed)
    (before : List Event) :
    (forceClose i d .normal (s.start.emits before)).done =
      .next (s.tornDown i { d with pw := none, endReq := true }
        (before ++ if d.pw.isSome then [.writeDone i .rejected] else [])) := by
  rw [forceClose_open hd, ← tornDown_setClosed]
  refine teardown_done rfl (o := some c) ?_
  rw [slots_set_ctx? hc]
  split <;> simp [State.emits, State.start]

/-! ### Acknowledgments (R148, R149) -/

theorem ignoresAck_iff (c : Ctx) (a : U16) :
    c.ignoresAck a ↔ (c.ackCount a).toNat = 0 ∨ 512 ≤ (c.ackCount a).toNat ∨ c.inFlight.toNat < (c.ackCount a).toNat := by
  have hzero : c.ackCount a = 0 ↔ (c.ackCount a).toNat = 0 := BitVec.toNat_eq
  rw [Ctx.ignoresAck, hzero, ringCap]

/-- An acknowledgment number in range acknowledges as many entries as it covers. -/
theorem acknowledged_of_inRange {c : Ctx} {a : U16} (h1 : 1 ≤ (c.ackCount a).toNat) (h2 : (c.ackCount a).toNat < 512)
    (h3 : (c.ackCount a).toNat ≤ c.inFlight.toNat) : c.acknowledged a = (c.ackCount a).toNat :=
  (acknowledged_pos (by rw [ignoresAck_iff]; omega)).1

/-- With nothing in flight every acknowledgment number is ignored. -/
theorem ignoresAck_of_idle {c : Ctx} (h : c.inFlight = 0) (a : U16) : c.ignoresAck a := by
  have hidle : c.inFlight.toNat = 0 := by rw [h]; rfl
  rw [ignoresAck_iff]
  omega

/-- An acknowledgment that resumes no write removes the entries it acknowledges and sends nothing: no write is held, or
packets stay in flight. -/
theorem recvAck_removes (now : U32) (i : Nat) {a : U16} {c : Ctx} (hs : c.state = .connected)
    (hpw : ∀ w, c.pw = some w → w.data ≠ []) (h : heldWrite c.pw = none ∨ c.acknowledged a ≠ c.inFlight.toNat) :
    ∃ r : Ring OutEntry, OutRingWithout c (c.acknowledged a) r ∧
      recvAck now i a ⟨c, []⟩ = ⟨c.withoutOldest (c.acknowledged a) r, []⟩ := by
  obtain ⟨d, ev, ⟨r, hr, -, hkept⟩, e⟩ := recvAck_acked now i a hs hpw []
  obtain ⟨rfl, rfl⟩ := hkept (h.imp id .inr)
  exact ⟨r, hr, e⟩

/-- The receipt of a STATE packet in the window of a connected context: its acknowledgment, and then the latch. -/
theorem exec_state_inWindow {op : Instr} {now : U32} {rx : Rx} {h : WireHeader} {pl : Option Bytes} {s : State} {i : Nat}
    {c d : Ctx} {es : List Event} (hop : Receives op now rx tyState h pl)
    (hr : Reaches s rx (packetOf tyState h pl) i c) (hs : c.state = .connected) (hwin : (h.seq - c.ack).toNat < 512)
    (hdup : s.dupAtCursorStale = true → h.seq ≠ c.ack) (he : recvAck now i h.ack ⟨c, []⟩ = ⟨d, es⟩) :
    exec op s = .next (s.afterLatch i d es) := by
  refine exec_established hop hr hs (by decide) (by decide) ?_
  rw [recvEstablished_state (r := ⟨c, []⟩) (isStale_false hwin hdup) rfl]
  exact he

/-! ### Stored packets (R147, R150, R151) -/

theorem sendAck_eq (now : U32) (c : Ctx) (es : List Event) :
    sendAck now ⟨c, es⟩ =
      ⟨{ c with alive := true }, es ++ [.tx c.sock c.peer (encodePacket (bareAck now c c.seq c.ack))]⟩ := rfl

/-- Steps 6 to 8 for a DATA or FIN packet in the window, when its acknowledgment makes `d` of the context and `qs` are the
packets that stand in order from the cursor once it is stored. -/
theorem recvEstablished_delivers {now : U32} {i : Nat} {dup : Bool} {p : Packet} {c d : Ctx} {es ev : List Event}
    {qs : List Packet} (hp : p.type ≠ tyState) (hwin : isStale dup c.ack p.seq = false)
    (hack : recvAck now i p.ack ⟨c, es⟩ = ⟨d, ev⟩) (hl : qs.length ≤ 512)
    (hstored : ∀ k q, qs[k]? = some q →
      ringGet (ringPut c.inRing p.seq p) (c.ack + 1 + BitVec.ofNat 16 k) = some q)
    (hend : qs.length < 512 → ringGet (ringPut c.inRing p.seq p) (c.ack + 1 + BitVec.ofNat 16 qs.length) = none) :
    ∃ r : Ring Packet,
      recvEstablished now i dup p ⟨c, es⟩ =
        ⟨{ d with
            inRing := r, ack := c.ack + BitVec.ofNat 16 qs.length
            rdone := c.rdone || qs.any fun q => decide (q.type = tyFin), alive := true },
          ev ++ deliveries i c.rdone qs ++
            [.tx c.sock c.peer (encodePacket (bareAck now c d.seq (c.ack + BitVec.ofNat 16 qs.length)))]⟩ ∧
        ∀ t : U16,
          ((∃ k, k < qs.length ∧ ringIx (c.ack + 1 + BitVec.ofNat 16 k) = ringIx t) → ringGet r t = none) ∧
            ((∀ k, k < qs.length → ringIx (c.ack + 1 + BitVec.ofNat 16 k) ≠ ringIx t) →
              ringGet r t = ringGet (ringPut c.inRing p.seq p) t) := by
  have hframe : SendFrame c d := by simpa only [hack] using recvAck_frame now i p.ack ⟨c, es⟩
  obtain ⟨r, e, hslots⟩ := drain_deliveries i qs { d with inRing := ringPut c.inRing p.seq p } ev hl
    (by simpa only [hframe.ack] using hstored)
    (by
      rw [hframe.ack]
      rcases Nat.lt_or_eq_of_le hl with hlt | hfull
      · exact .inl (hend hlt)
      · exact .inr hfull)
  rw [hframe.ack] at hslots
  refine ⟨r, ?_, hslots⟩
  rw [recvEstablished_stored (r := ⟨c, es⟩) hwin hp, hack, hframe.inRing, e, sendAck_eq]
  simp only [bareAck, hframe.ack, hframe.rdone, hframe.sock, hframe.peer, hframe.sendId]

/-! ### A packet buffered under the number of the handshake's STATE packet (R145) -/

/-- A context whose handshake the STATE packet with the header `h` completed, after it took out the packet buffered under
that packet's number. -/
def Ctx.unbuffered (c : Ctx) (h : WireHeader) : Ctx :=
  { c.handshaken h with inRing := ringDel c.inRing h.seq }

theorem handshaken_of_synAcked {c : Ctx} {h : WireHeader} (hack : h.ack = c.seq - 1) :
    c.handshaken h =
      { c with state := .connected, ack := h.seq - 1, inFlight := 0, outRing := ringDel c.outRing (c.seq - 1) } := by
  rw [Ctx.handshaken, if_pos hack]

/-- When nothing was queued, a STATE packet completes the handshake and hands on the packet buffered under its number. -/
theorem recvOpen_buffered (now : U32) (i : Nat) (dup : Bool) {h : WireHeader} {pl : Option Bytes} {c : Ctx} {q : Packet}
    (hs : c.state = .connecting) (h1 : c.inFlight = 1) (hpw : c.pw = none) (hend : c.endReq = false)
    (hf : c.finSent = false) (hb : ringGet c.inRing h.seq = some q) :
    recvOpen now i dup (packetOf tyState h pl) ⟨c, []⟩ =
      recvEstablished now i dup q ⟨c.unbuffered h, [.evConnect i]⟩ := by
  have hring : (c.handshaken h).inRing = c.inRing := by unfold Ctx.handshaken; split <;> rfl
  have hconn : completeConnect now i (packetOf tyState h pl) ⟨c, []⟩ = ⟨c.handshaken h, [.evConnect i]⟩ := by
    rw [completeConnect_eq now i tyState h pl hs hf h1, hpw]
    exact tryFin_of_not_due now (r := ⟨c.handshaken h, [.evConnect i]⟩) (by simp [Ctx.finDue, hend])
  have hb' : ringGet c.inRing (packetOf tyState h pl).seq = some q := hb
  have ht : (packetOf tyState h pl).type = tyState := rfl
  simp only [recvOpen, hs, ht, if_true, hconn, hring, hb']
  rfl

/-- A ring with a slot emptied and `q` stored there again. -/
theorem ringGet_restored {r : Ring Packet} {s : U16} (q : Packet) (t : U16) :
    ringGet (ringPut (ringDel r s) s q) t = if ringIx s = ringIx t then some q else ringGet r t := by
  rw [ringGet_ringPut, ringGet_ringDel]
  split <;> rfl

/-- The buffered packet stands alone at the cursor of the new connection: it is delivered and acknowledged. -/
theorem recvEstablished_unbuffered (now : U32) (i : Nat) (dup : Bool) {h : WireHeader} {c : Ctx} {q : Packet} {b : Bytes}
    (hrd : c.rdone = false) (hack : h.ack = c.seq - 1) (hq : q.type = tyData) (hseq : q.seq = h.seq)
    (hpl : q.payload = some b) (hnext : ringGet c.inRing (h.seq + 1) = none) :
    ∃ r : Ring Packet,
      recvEstablished now i dup q ⟨c.unbuffered h, [.evConnect i]⟩ =
        ⟨{ c with
            state := .connected, ack := h.seq, inFlight := 0, outRing := ringDel c.outRing (c.seq - 1)
            inRing := r, alive := true },
          [.evConnect i, .rxData i b, .tx c.sock c.peer (encodePacket (bareAck now c c.seq h.seq))]⟩ ∧
        ∀ t : U16, ringGet r t = if t.toNat % 512 = h.seq.toNat % 512 then none else ringGet c.inRing t := by
  have hcursor : h.seq - 1 + 1 = h.seq := BitVec.sub_add_cancel ..
  have hd : c.unbuffered h =
      { c with
        state := .connected, ack := h.seq - 1, inFlight := 0, outRing := ringDel c.outRing (c.seq - 1)
        inRing := ringDel c.inRing h.seq } := by rw [Ctx.unbuffered, handshaken_of_synAcked hack]
  have hwin : isStale dup (c.unbuffered h).ack q.seq = false := by
    rw [hd, hseq]
    exact isStale_false (by bv_omega) (fun _ => by bv_omega)
  have hkept : recvAck now i q.ack ⟨c.unbuffered h, [.evConnect i]⟩ = ⟨c.unbuffered h, [.evConnect i]⟩ :=
    recvAck_ignored (r := ⟨c.unbuffered h, _⟩) (ignoresAck_of_idle (by rw [hd]) _)
  have hslot : ∀ t, ringGet (ringPut (c.unbuffered h).inRing q.seq q) t =
      if ringIx h.seq = ringIx t then some q else ringGet c.inRing t := fun t => by
    rw [hd, hseq, ringGet_restored]
  obtain ⟨r, e, hr⟩ := recvEstablished_delivers (qs := [q]) (by rw [hq]; decide) hwin hkept (by simp)
    (fun k p hk => by
      obtain ⟨rfl, rfl⟩ : k = 0 ∧ q = p := by cases k <;> simp_all
      rw [hslot, hd, BitVec.add_zero, if_pos (by rw [hcursor])])
    (fun _ => by
      have hne : ringIx h.seq ≠ ringIx (h.seq + 1) := by
        simpa using ringIx_add_ne h.seq (j := 0) (k := 1) (by omega) (by omega)
      rw [hslot, hd]
      simp only [hcursor]
      exact (if_neg hne).trans hnext)
  refine ⟨r, ?_, fun t => ?_⟩
  · rw [e, hd]
    simp [hrd, hq, hpl, deliveries, bareAck]
  · obtain ⟨hgone, hothers⟩ := hr t
    simp only [List.length_singleton, Nat.lt_one_iff, exists_eq_left, forall_eq, BitVec.add_zero, hslot] at hgone hothers
    simp only [hd, hcursor] at hgone hothers
    by_cases ht : ringIx h.seq = ringIx t
    · rw [hgone ht, if_pos ((ringIx_eq_iff _ _).1 ht)]
    · rw [hothers ht, if_neg ht, if_neg (fun hmod => ht ((ringIx_eq_iff _ _).2 hmod))]

/-! ### The obligations -/

/-- Settles O28: receive processing leaves the packet unhandled, and a closed context has nothing to latch. -/
theorem closedContextSurfacesPackets : Obligations.ClosedContextSurfacesPackets := by
  unfold Obligations.ClosedContextSurfacesPackets
  intro op now rx ty h pl s i c hop hr hs
  rw [exec_reaches hop hr, recvIncoming_closed hs, afterReceive_ok]
  simp only [Bool.false_eq_true, if_false]
  rw [endOfOp_unlatched (by simpa using reaches_ctx? hr) (latched_of_closed hs)]
  rfl

/-- Settles O29: step 1 of receive processing, by role. -/
theorem duplicateSynResendsCachedSynAck : Obligations.DuplicateSynResendsCachedSynAck := by
  unfold Obligations.DuplicateSynResendsCachedSynAck
  refine ⟨fun op now rx h pl s i c sa hop hr hrole hs hl hsa => ?_,
    fun now i c p s hp hrole => recvIncoming_syn_connect hp hrole now i s⟩
  rw [exec_reaches hop hr, recvIncoming_syn hs rfl hrole hsa, afterReceive_ok]
  simp only [if_true]
  rw [runOn_done (d := { c with alive := true }) (reaches_ctx? hr) rfl,
    afterLatch_of_unlatched (d := { c with alive := true }) hl]
  rfl

/-- Settles O30: a forced close after end-of-read, and a closed context has nothing to latch. -/
theorem resetForcesClose : Obligations.ResetForcesClose := by
  unfold Obligations.ResetForcesClose
  intro op now rx h pl s i c hop hr hs
  have hc : s.ctx? i = some c := reaches_ctx? hr
  have hstart : (if c.rdone then s.start else s.start.emits [.rxEof i]) =
      s.start.emits (if c.rdone then [] else [.rxEof i]) := by
    split
    · simp [State.emits, State.start]
    · rfl
  rw [exec_reaches hop hr, recvIncoming_reset hs rfl, afterReceive_ok, hstart]
  simp only [if_true]
  rw [endOfOp_forceClose (d := c) (by simpa using hc) (show { c with rdone := true }.state ≠ .closed from hs)]
  exact forceClose_done (d := { c with rdone := true }) hc hs _

/-- Settles O31: step 3 of receive processing does no more than store the packet. -/
theorem connectingBuffersDataAndFin : Obligations.ConnectingBuffersDataAndFin := by
  unfold Obligations.ConnectingBuffersDataAndFin
  intro op now rx ty h pl s i c hty hop hr hs hl
  obtain ⟨hstate, hsyn, hreset⟩ := type_ne_of_dataOrFin hty
  have ht : (packetOf ty h pl).type ≠ tyState := hstate
  rw [exec_receives hop]
  refine receiveWire_open (d := { c with inRing := ringPut c.inRing h.seq (packetOf ty h pl) }) hr (by rw [hs]; decide)
    hsyn hreset ?_ hl _
  simp only [recvOpen, hs, if_true, if_neg ht]
  rfl

/-- Settles O34: the handshake hands the buffered packet on, which stands alone at the new cursor. -/
theorem handshakeDeliversBufferedData : Obligations.HandshakeDeliversBufferedData := by
  unfold Obligations.HandshakeDeliversBufferedData
  intro op now rx h pl s i c q b hop hr hs h1 hpw hend hf hrd hack hb hq hseq hpl hnext
  obtain ⟨r, e, hslots⟩ := recvEstablished_unbuffered now i s.dupAtCursorStale hrd hack hq hseq hpl hnext
  refine ⟨r, ?_, hslots⟩
  rw [exec_receives hop]
  refine receiveWire_open hr (by rw [hs]; decide) (by show tyState ≠ tySyn; decide) (by show tyState ≠ tyReset; decide)
    ?_ (by simp [Ctx.latched, hrd]) _
  rw [recvOpen_buffered now i _ hs h1 hpw hend hf hb, e]

/-- Settles O35: the acknowledgment of the packet, then the packets that stand from the cursor on. -/
theorem dataAndFinStoredDrainedAcknowledged : Obligations.DataAndFinStoredDrainedAcknowledged := by
  unfold Obligations.DataAndFinStoredDrainedAcknowledged
  intro op now rx ty h pl s i c qs hty hop hr hs hwin hdup hpw ring hl hstored hend
  obtain ⟨hstate, hsyn, hreset⟩ := type_ne_of_dataOrFin hty
  obtain ⟨d, ev, hacked, hack⟩ := recvAck_acked now i h.ack hs hpw []
  obtain ⟨r, e, hslots⟩ := recvEstablished_delivers (p := packetOf ty h pl) hstate (isStale_false hwin hdup) hack hl
    hstored hend
  exact ⟨d, ev, r, hacked, exec_established hop hr hs hsyn hreset e, hslots⟩

/-- Settles O37: step 5 of receive processing answers a packet outside the window with a bare ack. -/
theorem stalePacketsGetABareAck : Obligations.StalePacketsGetABareAck := by
  unfold Obligations.StalePacketsGetABareAck
  intro op now rx ty h pl s i c hty hop hr hs hl hstale
  obtain ⟨hsyn, hreset⟩ := type_ne_of_dataFinOrState hty
  have hstale' : isStale s.dupAtCursorStale c.ack (packetOf ty h pl).seq = true := (isStale_iff ..).2 hstale
  have hrun : recvEstablished now i s.dupAtCursorStale (packetOf ty h pl) ⟨c, []⟩ = sendAck now ⟨c, []⟩ := by
    simp only [recvEstablished, hstale', if_true]
  rw [exec_established hop hr hs hsyn hreset (hrun.trans (sendAck_eq now c [])),
    afterLatch_of_unlatched (d := { c with alive := true }) hl]
  rfl

/-- Settles O38: with no write pending an acknowledgment removes entries and nothing resumes. -/
theorem stateAcknowledgesOldestEntries : Obligations.StateAcknowledgesOldestEntries := by
  unfold Obligations.StateAcknowledgesOldestEntries
  intro op now rx h pl s i c hop hr hs hwin hdup hpw n
  have hn : n = (c.ackCount h.ack).toNat := rfl
  refine ⟨fun hout => ?_, fun h1 h2 h3 => ?_⟩
  · have hignored : c.ignoresAck h.ack := (ignoresAck_iff ..).2 hout
    exact exec_state_inWindow hop hr hs hwin hdup (recvAck_ignored (r := ⟨c, []⟩) hignored)
  · obtain ⟨r, hslots, e⟩ := recvAck_removes now i (a := h.ack) hs (by simp [hpw]) (.inl (by rw [hpw]; rfl))
    rw [acknowledged_of_inRange h1 h2 h3, ← hn] at hslots e
    refine ⟨r, ?_, hslots⟩
    rw [exec_state_inWindow hop hr hs hwin hdup e]
    simp [Ctx.withoutOldest, h1]

/-- Settles O39: what stays in flight keeps the write held; with nothing left in flight the write is pumped. -/
theorem flushResumesHeldWrite : Obligations.FlushResumesHeldWrite := by
  unfold Obligations.FlushResumesHeldWrite
  intro op now rx h pl s i c b hop hr hs hwin hdup hpw hb n h1 h2
  have hdata : ∀ w, c.pw = some w → w.data ≠ [] := by rw [hpw]; rintro w ⟨⟩; exact hb
  have hn (h3 : n ≤ c.inFlight.toNat) : c.acknowledged h.ack = n := acknowledged_of_inRange h1 h2 h3
  refine ⟨fun hlt => ?_, fun hall => ?_⟩
  · have hcount := hn (Nat.le_of_lt hlt)
    obtain ⟨r, hslots, e⟩ := recvAck_removes now i (a := h.ack) hs hdata (.inr (by omega))
    rw [hcount] at hslots e
    refine ⟨r, hslots, ?_⟩
    rw [exec_state_inWindow hop hr hs hwin hdup e]
    simp [Ctx.withoutOldest, Nat.ne_of_lt hlt]
  · obtain ⟨d, ev, ⟨r, hslots, hresumed, -⟩, e⟩ := recvAck_acked now i h.ack hs hdata []
    rw [hn (Nat.le_of_eq hall)] at hslots hresumed
    exact ⟨r, d, ev, hslots, hresumed b (by rw [hpw]; rfl) h1 hall, exec_state_inWindow hop hr hs hwin hdup e⟩

end Sys2Proof.Machine

/-! Proofs of the statements about WRITE (44_conn_send.md rules R164 to R167). In order: the segments of a write; what
WRITE does at a context, by the order of its tests; the obligations. -/

namespace Sys2Proof.Machine

open Sys2Proof.Config

/-! ### The segments of a write (R167) -/

theorem segments_length (b : Bytes) : (segments b).length = (b.length + 1399) / 1400 := by simp [segments]

/-- The `k`-th segment is what stands from byte `1400 * k` on, up to 1400 bytes of it. -/
theorem eq_of_segments_getElem? {b d : Bytes} {k : Nat} (h : (segments b)[k]? = some d) :
    k < (segments b).length ∧ d = (b.drop (k * 1400)).take 1400 := by
  obtain ⟨hk, rfl⟩ := List.getElem?_eq_some_iff.1 h
  exact ⟨hk, by simp [segments]⟩

theorem segments_flatten (b : Bytes) : (segments b).flatten = b := by
  by_cases hl : mtu < b.length
  · rw [segments_long hl, List.flatten_cons, segments_flatten (b.drop mtu), List.take_append_drop]
  · by_cases h0 : b = []
    · rw [h0]; rfl
    · rw [segments_short h0 (Nat.le_of_not_lt hl), List.flatten_singleton]
termination_by b.length
decreasing_by simp only [List.length_drop, mtu] at *; omega

/-! ### What WRITE does at a context (R164) -/

section Write

variable {s : State} {i : Nat} {c d : Ctx} {b : Bytes} {es : List Event} (now : U32)

/-- A second WRITE while one is pending is refused (R224). -/
theorem exec_write_busy (hc : s.ctx? i = some c) (hpw : c.pw ≠ none) (b : Bytes) :
    exec (.write now i b) s = .next (s.unchanged [] (.refused .writeBusy) .none) := by
  simp only [exec, execWrite, hc, if_pos (Option.isSome_iff_ne_none.2 hpw)]
  rfl

/-- WRITE with no write pending is what `acceptWrite` does to the context, when the latch does not close it. -/
theorem exec_write_accepted (hc : s.ctx? i = some c) (hpw : c.pw = none)
    (hrun : acceptWrite now i b ⟨c, []⟩ = ⟨d, es⟩) (hl : d.latched = false) :
    exec (.write now i b) s = .next (s.after (s.slots.set i (some d)) es) := by
  simp only [exec, execWrite, hc, hpw, Option.isSome_none, Bool.false_eq_true, if_false]
  rw [runOn_done hc hrun, afterLatch_of_unlatched hl]

theorem acceptWrite_rejected (h : c.state = .closed ∨ c.endReq = true) :
    acceptWrite now i b ⟨c, es⟩ = ⟨c, es ++ [.writeDone i .rejected]⟩ := if_pos h

theorem acceptWrite_empty (hs : c.state ≠ .closed) (he : c.endReq = false) :
    acceptWrite now i [] ⟨c, es⟩ = ⟨c, es ++ [.writeDone i .ok]⟩ := by
  simp [acceptWrite, hs, he, Run.emit]

theorem acceptWrite_connecting (hs : c.state = .connecting) (he : c.endReq = false) (hb : b ≠ []) :
    acceptWrite now i b ⟨c, es⟩ = ⟨{ c with pw := some ⟨b, .connectWait⟩ }, es⟩ := by
  simp [acceptWrite, hs, he, hb]

theorem acceptWrite_connected (hs : c.state = .connected) (he : c.endReq = false) (hb : b ≠ []) :
    acceptWrite now i b ⟨c, es⟩ = pump now i ⟨{ c with pw := some ⟨b, .flushWait⟩ }, es⟩ := by
  simp [acceptWrite, hs, he, hb]

end Write

/-- What a pump leaves where no FIN waits for the write (R165, R166): the segments below the cap are sent and kept. -/
theorem Pumped.of_endReq_false {now : U32} {i : Nat} {c d : Ctx} {b : Bytes} {es : List Event}
    (h : Pumped now i c b d es) (he : c.endReq = false) :
    let n : Nat := min (segments b).length (511 - c.inFlight.toNat)
    ∃ r : Ring OutEntry,
      (d = c.withSegments b n r ∧
        es = sentSegments now c b n ++ if n = (segments b).length then [.writeDone i .ok] else []) ∧
        (∀ k p, k < n → (segments b)[k]? = some p →
          ringGet r (c.seq + BitVec.ofNat 16 k) = some { packet := dataPacket now c k p, tag := now }) ∧
        ∀ t : U16, (∀ k, k < n → ringIx (c.seq + BitVec.ofNat 16 k) ≠ ringIx t) → ringGet r t = ringGet c.outRing t := by
  obtain ⟨r, hstored, hothers, hleft⟩ := h
  rw [if_neg (by simp [he])] at hleft
  exact ⟨r, hleft, hstored, hothers⟩

/-! ### The obligations -/

/-- Settles O44: a segment is a piece of the bytes at a known place; joining them is by induction on the length. -/
theorem segmentsJoinToTheWrite : Obligations.SegmentsJoinToTheWrite := by
  unfold Obligations.SegmentsJoinToTheWrite
  refine fun b => ⟨segments_flatten b, segments_length b, fun k d hd => ?_⟩
  obtain ⟨hk, rfl⟩ := eq_of_segments_getElem? hd
  simp only [segments_length, List.length_take, List.length_drop] at hk ⊢
  omega

/-- Settles O42: the cases of WRITE that leave the pump alone, in the order of its tests. -/
theorem writeWithoutSending : Obligations.WriteWithoutSending := by
  unfold Obligations.WriteWithoutSending
  refine fun now i b s => ⟨fun hc => exec_badConn rfl hc, fun c hc => ⟨fun hpw => exec_write_busy now hc hpw b, ?_⟩⟩
  refine fun hpw hl => ⟨fun h => ?rejected, fun hs he hb => ?empty, fun hs he hb => ?connecting⟩
  case rejected => exact exec_write_accepted now hc hpw (acceptWrite_rejected now h) hl
  case empty =>
    subst hb
    exact exec_write_accepted now hc hpw (acceptWrite_empty now hs he) hl
  case connecting => exact exec_write_accepted now hc hpw (acceptWrite_connecting now hs he hb) hl

/-- Settles O43: WRITE pumps the bytes, and as no end was asked for no FIN follows them. -/
theorem writeSendsSegmentsUpToTheCap : Obligations.WriteSendsSegmentsUpToTheCap := by
  unfold Obligations.WriteSendsSegmentsUpToTheCap
  intro now i b s c hc hs hpw he hl hb
  obtain ⟨d, ev, hpumped, hpump⟩ :=
    pump_pumped now i (c := { c with pw := some ⟨b, .flushWait⟩ }) (w := ⟨b, .flushWait⟩) hs rfl hb []
  have hwrite := exec_write_accepted now hc hpw ((acceptWrite_connected now hs he hb).trans hpump)
    (hpumped.latched.trans hl)
  obtain ⟨r, ⟨rfl, rfl⟩, hslots⟩ := hpumped.of_endReq_false he
  exact ⟨r, hwrite, hslots⟩

end Sys2Proof.Machine

/-! Proofs of the statements about the ticks (45_conn_timers.md rules R181, R182). In order: what one round of the
retransmit scan makes of a context; the whole scan; the two commands, by the order of their tests; the obligations. -/

namespace Sys2Proof.Machine

open Sys2Proof.Config

/-! ### The retransmit scan (R181) -/

/-- Is the entry older than the retransmission timeout (R180)? -/
def OutEntry.expired (now : U32) (e : OutEntry) : Bool := isExpired now e.tag

theorem OutEntry.expired_eq (now : U32) (e : OutEntry) :
    e.expired now = decide (500000 < (now - e.tag).toNat) := rfl

/-- What the scan leaves in the slot of an entry: the packet, with a new tag if it was sent again and the parameter
`RETX_TAG_REFRESH` is set. -/
def OutEntry.scanned (now : U32) (refresh : Bool) (e : OutEntry) : OutEntry :=
  if e.expired now && refresh then { e with tag := now } else e

/-- A context after the scan of the entries `es`, which left the outgoing ring `r`. -/
def Ctx.rescanned (now : U32) (es : List OutEntry) (r : Ring OutEntry) (c : Ctx) : Ctx :=
  { c with
    outRing := r, alive := c.alive || es.any (·.expired now)
    retxCount := c.retxCount + BitVec.ofNat 32 (es.countP (·.expired now)) }

/-- The datagrams that the scan of the entries `es` sends. -/
def Ctx.resends (now : U32) (es : List OutEntry) (c : Ctx) : List Event :=
  (es.filter (·.expired now)).map fun e => .tx c.sock c.peer (encodePacket e.packet)

/-- Two scans in a row are the scan of the entries of both. -/
theorem rescanned_append (now : U32) (es fs : List OutEntry) (r r' : Ring OutEntry) (c : Ctx) :
    (c.rescanned now es r).rescanned now fs r' = c.rescanned now (es ++ fs) r' := by
  simp [Ctx.rescanned, Bool.or_assoc, BitVec.ofNat_add, BitVec.add_assoc]

theorem resends_append (now : U32) (es fs : List OutEntry) (c : Ctx) :
    c.resends now (es ++ fs) = c.resends now es ++ c.resends now fs := by
  simp [Ctx.resends]

/-- The scan of no entries does nothing. -/
theorem rescanned_nil (now : U32) (c : Ctx) : c.rescanned now [] c.outRing = c := by
  simp [Ctx.rescanned]

/-- The ring `r'` is the ring `r` after the scan of the entries `es` of the numbers from `q` on. -/
def ScannedRing (now : U32) (refresh : Bool) (q : U16) (es : List OutEntry) (r r' : Ring OutEntry) : Prop :=
  (∀ k e, es[k]? = some e → ringGet r' (q + BitVec.ofNat 16 k) = some (e.scanned now refresh)) ∧
    ∀ t : U16, (∀ k, k < es.length → ringIx (q + BitVec.ofNat 16 k) ≠ ringIx t) → ringGet r' t = ringGet r t

/-- The slot of a number is not that of any of the next 511. -/
theorem ringIx_ne_later (q : U16) {k : Nat} (hk : k < 511) : ringIx q ≠ ringIx (q + 1 + BitVec.ofNat 16 k) := by
  have h := ringIx_add_ne q (j := 0) (k := k + 1) (by omega) (by omega)
  rwa [← add_one_add, BitVec.add_zero] at h

/-- The slot of the oldest entry is scanned first, and the scan of the others does not come back to it. -/
theorem ScannedRing.cons {now : U32} {refresh : Bool} {q : U16} {e : OutEntry} {es : List OutEntry}
    {r r₁ r' : Ring OutEntry} (hl : es.length < 512)
    (h₁ : ∀ t, ringGet r₁ t = if ringIx q = ringIx t then some (e.scanned now refresh) else ringGet r t)
    (h : ScannedRing now refresh (q + 1) es r₁ r') : ScannedRing now refresh q (e :: es) r r' := by
  obtain ⟨hscanned, hothers⟩ := h
  refine ⟨fun k f hk => ?_, fun t ht => ?_⟩
  · cases k with
    | zero =>
      cases hk
      rw [BitVec.add_zero, hothers q fun k hk => (ringIx_ne_later q (by omega)).symm, h₁, if_pos rfl]
    | succ k =>
      rw [← add_one_add]
      exact hscanned k f hk
  · have hq : ringIx q ≠ ringIx t := by simpa using ht 0 (by simp)
    rw [hothers t fun k hk => add_one_add q k ▸ ht (k + 1) (by simpa using hk), h₁, if_neg hq]

/-- One round of the scan, in the same terms. -/
theorem retxLoop_round {now : U32} {refresh : Bool} {q : U16} {c : Ctx} {e : OutEntry} (k : Nat) (ev : List Event)
    (h : ringGet c.outRing q = some e) :
    ∃ r : Ring OutEntry,
      (∀ t, ringGet r t = if ringIx q = ringIx t then some (e.scanned now refresh) else ringGet c.outRing t) ∧
        retxLoop now refresh (k + 1) q ⟨c, ev⟩ =
          retxLoop now refresh k (q + 1) ⟨c.rescanned now [e] r, ev ++ c.resends now [e]⟩ := by
  have hkept (t : U16) : ringGet c.outRing t = if ringIx q = ringIx t then some e else ringGet c.outRing t := by
    split
    · next ht => rw [← h, ringGet, ringGet, ht]
    · rfl
  rw [retxLoop_succ (r := ⟨c, ev⟩) h]
  cases hexp : isExpired now e.tag with
  | false =>
    refine ⟨c.outRing, fun t => ?_, ?_⟩
    · rw [OutEntry.scanned, OutEntry.expired, hexp]
      exact hkept t
    · simp [Ctx.rescanned, Ctx.resends, OutEntry.expired, hexp]
  | true =>
    refine ⟨if refresh then ringPut c.outRing q { e with tag := now } else c.outRing, fun t => ?_, ?_⟩
    · rw [OutEntry.scanned, OutEntry.expired, hexp]
      cases refresh with
      | false => exact hkept t
      | true => exact ringGet_ringPut ..
    · simp [Ctx.rescanned, Ctx.resends, OutEntry.expired, hexp]

/-- The scan of the entries `es` that stand in the ring from the number `q` on. -/
theorem retxLoop_scans {now : U32} {refresh : Bool} {es : List OutEntry} (hl : es.length ≤ 512) {q : U16} {c : Ctx}
    (ev : List Event) (h : ∀ k e, es[k]? = some e → ringGet c.outRing (q + BitVec.ofNat 16 k) = some e) :
    ∃ r : Ring OutEntry, ScannedRing now refresh q es c.outRing r ∧
      retxLoop now refresh es.length q ⟨c, ev⟩ = some ⟨c.rescanned now es r, ev ++ c.resends now es⟩ := by
  induction es generalizing q c ev with
  | nil => exact ⟨c.outRing, ⟨by simp, fun _ _ => rfl⟩, by simp [retxLoop, rescanned_nil, Ctx.resends]⟩
  | cons e es ih =>
    have hlen : es.length < 512 := hl
    have hfirst : ringGet c.outRing q = some e := by simpa using h 0 e rfl
    obtain ⟨r₁, h₁, hround⟩ := retxLoop_round (now := now) (refresh := refresh) es.length ev hfirst
    have hrest : ∀ k f, es[k]? = some f →
        ringGet (c.rescanned now [e] r₁).outRing (q + 1 + BitVec.ofNat 16 k) = some f := fun k f hk => by
      have hk' : k < es.length := (List.getElem?_eq_some_iff.1 hk).1
      show ringGet r₁ _ = _
      rw [h₁, if_neg (ringIx_ne_later q (by omega)), add_one_add]
      exact h (k + 1) f hk
    obtain ⟨r, hr, hloop⟩ := ih (Nat.le_of_lt hlen) (ev ++ c.resends now [e]) hrest
    refine ⟨r, hr.cons hlen h₁, ?_⟩
    rw [List.length_cons, hround, hloop, rescanned_append, List.append_assoc]
    exact congrArg (fun l => some (Run.mk _ (ev ++ l))) (resends_append now [e] es c).symm

/-! ### The ticks, case by case -/

section Ticks

variable {s : State} {i : Nat} {c : Ctx} (now : U32)

theorem exec_tickRetx_idle (hc : s.ctx? i = some c) (h : c.state = .closed ∨ c.bound = false ∨ c.inFlight = 0) :
    exec (.tickRetx now i) s = .next (s.unchanged [] .ok .none) := by
  simp only [exec, execTickRetx, hc, if_pos h]; rfl

/-- While the oldest entry is not old enough there is no scan. -/
theorem exec_tickRetx_young {first : OutEntry} (hc : s.ctx? i = some c)
    (h : ¬ (c.state = .closed ∨ c.bound = false ∨ c.inFlight = 0)) (hfirst : ringGet c.outRing c.base = some first)
    (hexp : first.expired now = false) : exec (.tickRetx now i) s = .next (s.unchanged [] .ok .none) := by
  have hyoung : isExpired now first.tag = false := hexp
  simp only [exec, execTickRetx, hc, if_neg h, hfirst, hyoung]; rfl

/-- Once the oldest entry has expired the tick is the scan. -/
theorem exec_tickRetx_scan {first : OutEntry} {d : Ctx} {es : List Event} (hc : s.ctx? i = some c)
    (h : ¬ (c.state = .closed ∨ c.bound = false ∨ c.inFlight = 0)) (hfirst : ringGet c.outRing c.base = some first)
    (hexp : first.expired now = true)
    (hscan : retxLoop now s.retxTagRefresh c.inFlight.toNat c.base ⟨c, []⟩ = some ⟨d, es⟩) :
    exec (.tickRetx now i) s = .next (s.after (s.slots.set i (some d)) es) := by
  have hold : isExpired now first.tag = true := hexp
  simp only [exec, execTickRetx, hc, if_neg h, hfirst, if_pos hold, hscan]; rfl

theorem exec_tickKa_unconnected (hc : s.ctx? i = some c) (h : c.state ≠ .connected) :
    exec (.tickKa now i) s = .next (s.unchanged [] .ok .none) := by
  simp only [exec, execTickKa, hc, if_neg h]; rfl

/-- TICK_KA at a connected context is its keep-alive check (R182). -/
theorem exec_tickKa_connected {d : Ctx} {es : List Event} (hc : s.ctx? i = some c) (h : c.state = .connected)
    (hrun : keepAlive now ⟨c, []⟩ = ⟨d, es⟩) :
    exec (.tickKa now i) s = .next (s.after (s.slots.set i (some d)) es) := by
  simp only [exec, execTickKa, hc, if_pos h, State.runOn, hrun]; rfl

end Ticks

/-! ### The obligations -/

/-- Settles O46: the two cases of the keep-alive check. -/
theorem tickKaProbesIdleContexts : Obligations.TickKaProbesIdleContexts := by
  unfold Obligations.TickKaProbesIdleContexts
  refine fun now i s => ⟨fun hc => exec_badConn rfl hc, fun c hc =>
    ⟨exec_tickKa_unconnected now hc, fun hs ha => ?active, fun hs ha => ?idle⟩⟩
  case active => exact exec_tickKa_connected now hc hs (by rw [keepAlive_eq, if_pos ha])
  case idle =>
    exact exec_tickKa_connected now hc hs (by rw [keepAlive, if_neg (by simp [ha])]; exact sendAck_eq now c [])

/-- Settles O45: the oldest entry decides; the scan is by induction on the entries in flight. -/
theorem tickRetxResendsExpiredEntries : Obligations.TickRetxResendsExpiredEntries := by
  unfold Obligations.TickRetxResendsExpiredEntries
  refine fun now i s => ⟨fun hc => exec_badConn rfl hc, fun c hc => ⟨exec_tickRetx_idle now hc, ?_⟩⟩
  intro es hs hb hn h1 hl hring old
  have hfirst : ∀ e, es[0]? = some e → ringGet c.outRing c.base = some e := fun e he => by simpa using hring 0 e he
  have hopen : ¬ (c.state = .closed ∨ c.bound = false ∨ c.inFlight = 0) := by
    rintro (h | h | h)
    · exact hs h
    · rw [hb] at h; cases h
    · rw [h] at hn; exact absurd hn (Nat.ne_of_lt h1)
  have hexp (e : OutEntry) : e.expired now = old e := OutEntry.expired_eq now e
  refine ⟨fun e he hyoung => exec_tickRetx_young now hc hopen (hfirst e he) ((hexp e).trans hyoung),
    fun e he hold => ?_⟩
  obtain ⟨r, ⟨hscanned, hothers⟩, hscan⟩ :=
    retxLoop_scans (now := now) (refresh := s.retxTagRefresh) hl (c := c) [] hring
  have hany : es.any (·.expired now) = true := List.any_eq_true.2 ⟨e, List.mem_of_getElem? he, (hexp e).trans hold⟩
  refine ⟨r, ?_, hscanned, hothers⟩
  rw [exec_tickRetx_scan now hc hopen (hfirst e he) ((hexp e).trans hold) (hn ▸ hscan), Ctx.rescanned, hany,
    Bool.or_true]
  rfl

end Sys2Proof.Machine

/-! Proofs of the statements about the router's receive paths (46_demux.md rules R192, R198). In order: a datagram that
decodes is received as its packet; the next DATA packet in order, with nothing behind it; the obligations. -/

namespace Sys2Proof.Machine

open Sys2Proof.Config

/-! ### A datagram that decodes is received as its packet -/

theorem exec_dgramL_decoded (now : U32) (addr : Addr) {B : Bytes} {p : Packet} (isn : U16) (s : State)
    (hp : decodePacket B = some p) (hty : p.type.toNat ≤ 4) :
    exec (.dgramL now addr B isn) s = receiveWire now (.lsock addr isn) B p s := by
  simp only [exec, execDgramL, hp, if_neg (Nat.not_lt.2 hty), receiveWire]

theorem exec_dgramP_decoded (now : U32) (i : Nat) (addr : Addr) {B : Bytes} {p : Packet} (s : State)
    (hp : decodePacket B = some p) (hty : p.type.toNat ≤ 4) :
    exec (.dgramP now i addr B) s = receiveWire now (.psock i addr) B p s := by
  simp only [exec, execDgramP, hp, if_neg (Nat.not_lt.2 hty), receiveWire]

/-- A datagram on the private socket of a bound context goes through the connector filter (R198). -/
theorem receiveWire_bound {s : State} {i : Nat} {c : Ctx} (hc : s.connectCtx? i = some c) (hb : c.bound = true)
    (now : U32) (addr : Addr) (raw : Bytes) (p : Packet) :
    receiveWire now (.psock i addr) raw p s = routePrivate now i c addr raw p s := by
  simp only [receiveWire, hc, hb, Bool.true_eq_false, if_false]

/-! ### The next DATA packet in order (R147, R150, R151) -/

/-- A DATA packet next in order, with nothing behind it and an acknowledgment that removes nothing, is delivered and
acknowledged. -/
theorem recvEstablished_nextData (now : U32) (i : Nat) (dup : Bool) {p : Packet} {b : Bytes} {c : Ctx}
    (hp : p.type = tyData) (hpl : p.payload = some b) (hrd : c.rdone = false) (hseq : p.seq = c.ack + 1)
    (hack : c.ignoresAck p.ack) (hnext : ringGet c.inRing (c.ack + 2) = none) :
    ∃ r : Ring Packet,
      recvEstablished now i dup p ⟨c, []⟩ =
        ⟨{ c with inRing := r, ack := c.ack + 1, alive := true },
          [.rxData i b, .tx c.sock c.peer (encodePacket (bareAck now c c.seq (c.ack + 1)))]⟩ ∧
        ∀ t : U16, ringGet r t = if t.toNat % 512 = (c.ack + 1).toNat % 512 then none else ringGet c.inRing t := by
  have hwin : isStale dup c.ack p.seq = false := by
    rw [hseq]
    exact isStale_false (by bv_omega) (fun _ => by bv_omega)
  have hput (t : U16) : ringGet (ringPut c.inRing p.seq p) t =
      if ringIx (c.ack + 1) = ringIx t then some p else ringGet c.inRing t := by rw [ringGet_ringPut, hseq]
  obtain ⟨r, e, hslots⟩ := recvEstablished_delivers (qs := [p]) (by rw [hp]; decide) hwin
    (recvAck_ignored (now := now) (i := i) (r := ⟨c, []⟩) hack) (by simp)
    (fun k q hk => by
      obtain ⟨hk0, rfl⟩ : k = 0 ∧ p = q := by cases k <;> simp_all
      simp only [hk0, hput, BitVec.add_zero, if_true])
    (fun _ => by
      simp only [List.length_singleton, hput, add_one_add]
      exact (if_neg (ringIx_add_two_ne c.ack)).trans hnext)
  refine ⟨r, by simp [e, hrd, hp, hpl, deliveries], fun t => ?_⟩
  obtain ⟨hgone, hothers⟩ := hslots t
  simp only [List.length_singleton, Nat.lt_one_iff, exists_eq_left, forall_eq, BitVec.add_zero] at hgone hothers
  by_cases ht : ringIx (c.ack + 1) = ringIx t
  · rw [hgone ht, if_pos ((ringIx_eq_iff _ _).1 ht)]
  · rw [hothers ht, hput, if_neg ht, if_neg (fun hmod => ht ((ringIx_eq_iff _ _).2 hmod))]

/-! ### The obligations -/

/-- Settles O11: the row is received as its packet, and so is the datagram of the DGRAM command, which decodes to that
packet. -/
theorem wirePacketIsItsDatagramCommand : Obligations.WirePacketIsItsDatagramCommand := by
  unfold Obligations.WirePacketIsItsDatagramCommand
  intro now h pl s hpl
  have onListener {ty : BitVec 4} (hty : ty.toNat ≤ 4) (addr : Addr) (isn : U16) :
      receiveWire now (.lsock addr isn) (wireBytes ty h pl) (packetOf ty h pl) s =
        exec (.dgramL now addr (wireBytes ty h pl) isn) s :=
    (exec_dgramL_decoded now addr isn s (decodePacket_wireBytes ty h hpl) hty).symm
  have onPrivate {ty : BitVec 4} (hty : ty.toNat ≤ 4) (c : Nat) (addr : Addr) :
      receiveWire now (.psock c addr) (wireBytes ty h pl) (packetOf ty h pl) s =
        exec (.dgramP now c addr (wireBytes ty h pl)) s :=
    (exec_dgramP_decoded now c addr s (decodePacket_wireBytes ty h hpl) hty).symm
  exact
    ⟨fun addr isn => ⟨onListener (by decide) addr isn, onListener (by decide) addr isn, onListener (by decide) addr isn,
        onListener (by decide) addr isn, onListener (by decide) addr isn⟩,
      fun c addr => ⟨onPrivate (by decide) c addr, onPrivate (by decide) c addr, onPrivate (by decide) c addr,
        onPrivate (by decide) c addr, onPrivate (by decide) c addr⟩⟩

/-- Settles O36: the filter lets the packet through to a context whose read half of the latch is not set. -/
theorem dgramPDeliversNextData : Obligations.DgramPDeliversNextData := by
  unfold Obligations.DgramPDeliversNextData
  intro now i addr B p b s c hdec hp hpl hc hb hid hs hrd hseq hack hnext
  have hsyn : p.type ≠ tySyn := by rw [hp]; decide
  have hreset : p.type ≠ tyReset := by rw [hp]; decide
  have hreach : Reaches s (.psock i addr) p i c := ⟨rfl, hc, hb, hsyn, hid⟩
  obtain ⟨r, hrun, hslots⟩ := recvEstablished_nextData now i s.dupAtCursorStale hp hpl hrd hseq hack hnext
  refine ⟨r, ?_, hslots⟩
  rw [exec_dgramP_decoded now i addr s hdec (by rw [hp]; decide)]
  refine receiveWire_open hreach (by rw [hs]; decide) hsyn hreset ?_ ?_ B
  · simpa only [recvOpen, hs, reduceCtorEq, if_false] using hrun
  · simp [Ctx.latched, hrd]

/-- Settles O41: the filter's tests, in their order. -/
theorem privateSocketFilter : Obligations.PrivateSocketFilter := by
  unfold Obligations.PrivateSocketFilter
  intro now i addr B s c hc
  refine ⟨fun hb => ?_, fun p hdec hty hb => ⟨fun hsyn => ?_, fun hsyn hid => ?_⟩⟩
  · simp only [exec, execDgramP, hc, hb, if_true]
    rfl
  · rw [exec_dgramP_decoded now i addr s hdec hty, receiveWire_bound hc hb, routePrivate, if_pos hsyn]
    rfl
  · rw [exec_dgramP_decoded now i addr s hdec hty, receiveWire_bound hc hb, routePrivate, if_neg hsyn, if_pos hid]
    rfl

end Sys2Proof.Machine

/-! Proofs of the statements about the listener, the grace period and socket errors (46_demux.md rules R191, R196, R197,
R199, R200). In order: a loop over the table whose rounds each work on their own slot; a round of LCLOSE; a round of a
listener's socket error; a private socket's error; the obligations. -/

namespace Sys2Proof.Machine

open Sys2Proof.Config

/-! ### Loops over the table -/

/-- In the listener state `l`, the round `f` of a loop over the table makes `leave o` of the content `o` of its slot and
emits `emit o i`, for a FREE slot and for every context that `ok` allows. -/
def RoundOf (f : State → Nat → State) (l : LState) (ok : Ctx → Prop) (leave : Option Ctx → Option Ctx)
    (emit : Option Ctx → Nat → List Event) : Prop :=
  ∀ (t : State) (i : Nat) (o : Option Ctx), t.lstate = l → t.slots[i]? = some o → (∀ c, o = some c → ok c) →
    f t i = (t.setSlot i (leave o)).emits (emit o i)

section Rounds

variable {f : State → Nat → State} {l : LState} {ok : Ctx → Prop} {leave : Option Ctx → Option Ctx}
  {emit : Option Ctx → Nat → List Event} {s : State}

/-- The rounds over the slots `rest`, which stand behind the slots `front`. -/
theorem RoundOf.foldl_range' (hf : RoundOf f l ok leave emit) {rest : List (Option Ctx)}
    (hok : ∀ c, some c ∈ rest → ok c) (front : List (Option Ctx)) (hl : s.lstate = l) (hs : s.slots = front ++ rest) :
    (List.range' front.length rest.length).foldl f s =
      { s with
        slots := front ++ rest.map leave
        events := s.events ++ (rest.zipIdx front.length).flatMap fun e => emit e.1 e.2 } := by
  induction rest generalizing front s with
  | nil => simp [← hs]
  | cons o rest ih =>
    have hround : f s front.length = (s.setSlot front.length (leave o)).emits (emit o front.length) :=
      hf s _ o hl (by simp [hs]) (fun c hc => hok c (by simp [hc]))
    have hslots : (f s front.length).slots = (front ++ [leave o]) ++ rest := by simp [hround, hs]
    have hrest := ih (fun c hc => hok c (List.mem_cons_of_mem _ hc)) (front ++ [leave o])
      (s := f s front.length) (by rw [hround]; exact hl) hslots
    rw [List.length_append, List.length_singleton] at hrest
    rw [List.length_cons, List.range'_succ, List.foldl_cons, hrest, hround]
    simp [State.emits, State.setSlot, List.zipIdx_cons]

/-- The loop over the whole table, in slot order. -/
theorem RoundOf.foldl_table (hf : RoundOf f l ok leave emit) (hl : s.lstate = l)
    (hok : ∀ i c, s.ctx? i = some c → ok c) :
    (List.range s.maxConn).foldl f s =
      { s with
        slots := s.slots.map leave
        events := s.events ++ s.slots.zipIdx.flatMap fun e => emit e.1 e.2 } := by
  rw [List.range_eq_range']
  refine hf.foldl_range' (fun c hc => ?_) [] hl rfl
  obtain ⟨i, hi⟩ := List.getElem?_of_mem hc
  exact hok i c (ctx?_eq_some.2 hi)

end Rounds

/-- A round that leaves its slot alone. -/
theorem setSlot_emits_same {s : State} {i : Nat} {o : Option Ctx} (h : s.slots[i]? = some o) :
    (s.setSlot i o).emits [] = s := by
  obtain ⟨hi, rfl⟩ := List.getElem?_eq_some_iff.1 h
  simp [State.setSlot, State.emits]

/-! ### LCLOSE (R196, R197) -/

/-- What LCLOSE leaves of a slot. -/
def lcloseLeaves (now : U32) (o : Option Ctx) : Option Ctx :=
  o.map fun c => if c.endedByListener then c.ended now else c

/-- What LCLOSE emits for a slot. -/
def lcloseEmits (now : U32) (o : Option Ctx) : List Event :=
  (o.map fun c => if c.endedByListener then c.endEvents now else []).getD []

theorem ended_role (now : U32) (c : Ctx) : (c.ended now).role = c.role := by
  unfold Ctx.ended
  split <;> rfl

/-- LCLOSE creates and frees nothing. -/
theorem isAccepting_lcloseLeaves (now : U32) (o : Option Ctx) : isAccepting (lcloseLeaves now o) = isAccepting o := by
  cases o with
  | none => rfl
  | some c =>
    simp only [lcloseLeaves, Option.map_some, isAccepting]
    split
    · rw [ended_role]
    · rfl

/-- The test of the latch in LCLOSE's round closes nothing: asking for the end is no input of the latch. -/
theorem lcloseSlot_round (now : U32) (l : LState) :
    RoundOf (fun t i => lcloseSlot now i t) l (fun c => c.latched = false) (lcloseLeaves now)
      (fun o _ => lcloseEmits now o) := by
  intro t i o _ hi hopen
  cases o with
  | none =>
    have hc : t.ctx? i = none := by rw [State.ctx?, hi]; rfl
    simp only [lcloseSlot, hc]
    exact (setSlot_emits_same hi).symm
  | some c =>
    have hc : t.ctx? i = some c := ctx?_eq_some.2 hi
    have hlatch : c.latched = false := hopen c rfl
    simp only [lcloseSlot, hc, lcloseLeaves, lcloseEmits, Option.map_some, Option.getD_some, Ctx.endedByListener]
    by_cases hr : c.role = .accept
    case neg => simp [hr, setSlot_emits_same hi]
    by_cases hask : c.state ≠ .closed ∧ c.endReq = false
    · obtain ⟨hs, he⟩ := hask
      have hd : (t.runOn i c (requestEnd now)).ctx? i = some (c.ended now) := by
        rw [ctx?_runOn_self _ hc, requestEnd_eq]
      simp only [hr, hs, he, ne_eq, not_false_eq_true, and_self, if_true, decide_true, Bool.not_false, Bool.and_self]
      rw [endOfOp_unlatched hd ((ended_latched now c).trans hlatch), State.runOn, requestEnd_eq]
    · have hno : (decide (c.state ≠ .closed) && !c.endReq) = false := by
        rw [← Bool.not_eq_true]
        simpa using hask
      simp only [hr, hask, hno, if_true, if_false, decide_true, Bool.true_and, Bool.false_eq_true]
      rw [endOfOp_unlatched hc hlatch, setSlot_emits_same hi]

/-! ### A socket error of the listener (R200) -/

/-- Only a listener that is shutting down closes by itself (R197). -/
theorem listenerCloseCheck_of_ne {s : State} (h : s.lstate ≠ .shutting) : listenerCloseCheck s = s :=
  if_neg fun hshut => h hshut.1

/-- A round frees the slot of an accepting-role context that is not closed. -/
theorem failSlot_round :
    RoundOf (fun t i => failSlot i t) .idle (fun c => c.role = .accept → c.state ≠ .closed)
      (fun o => if isAccepting o then none else o) listenerErrorEvents := by
  intro t i o hl hi hopen
  cases o with
  | none =>
    have hc : t.ctx? i = none := by rw [State.ctx?, hi]; rfl
    simp only [failSlot, hc, ite_self]
    exact (setSlot_emits_same hi).symm
  | some c =>
    have hc : t.ctx? i = some c := ctx?_eq_some.2 hi
    simp only [failSlot, hc, listenerErrorEvents, isAccepting, decide_eq_true_eq]
    by_cases hr : c.role = .accept
    case neg => simp [hr, setSlot_emits_same hi]
    simp only [if_pos hr]
    rw [forceClose_open (hopen c rfl hr),
      teardown_accept (c := { c with pw := none, endReq := true, state := .closed }) hr, listenerCloseCheck_of_ne]
    · split <;> simp [State.emits, State.setSlot]
    · split <;> simp [hl]

/-! ### A socket error of a private socket (R200) -/

/-- A forced close of a context whose socket has failed, in the terms of the statements. -/
theorem forceClose_noGrace_done {s : State} {i : Nat} {c : Ctx} (hr : c.role = .connect) (hs : c.state ≠ .closed)
    (before : List Event) :
    (forceClose i c .noGrace (s.start.emits before)).done =
      .next (s.after (s.slots.set i none)
        (before ++ (if c.pw.isSome then [.writeDone i .rejected] else []) ++
          [.timerStop i, .evClose i, .sockClose (.psock i)])) := by
  rw [forceClose_open hs, teardown_noGrace (c := { c with pw := none, endReq := true, state := .closed }) hr]
  split <;> simp [State.after, State.emits, State.setSlot, State.start]

/-! ### The obligations -/

/-- Settles O16: the two cases of LISTEN. -/
theorem listenOpensAnIdleListener : Obligations.ListenOpensAnIdleListener := by
  unfold Obligations.ListenOpensAnIdleListener
  intro now s
  refine ⟨fun hl => ?_, fun hl => ?_⟩
  · simp only [exec, execListen, if_pos hl]
    rfl
  · simp only [exec, execListen, if_neg hl]
    rfl

/-- Settles O20: the two cases of GRACE_EXPIRED at a connecting-role context. -/
theorem graceExpiredFreesTheSlot : Obligations.GraceExpiredFreesTheSlot := by
  unfold Obligations.GraceExpiredFreesTheSlot
  intro now i s
  refine ⟨fun hc => exec_badConn_of_role rfl rfl hc, fun c hc => ?_⟩
  simp only [exec, execGraceExpired, hc]
  cases c.grace <;> rfl

/-- Settles O17: every round of the loop works on its own slot, and the listener closes when it serves nobody. -/
theorem lcloseEndsEveryAcceptingContext : Obligations.LcloseEndsEveryAcceptingContext := by
  unfold Obligations.LcloseEndsEveryAcceptingContext
  intro now s
  refine ⟨fun hl => ?_, fun hl hopen => ?_⟩
  · simp only [exec, execLclose, if_neg hl]
    rfl
  have hloop := (lcloseSlot_round now .shutting).foldl_table (s := { s.start with lstate := .shutting }) rfl hopen
  have hevents : (s.slots.zipIdx.flatMap fun e => lcloseEmits now e.1) = s.slots.flatMap (lcloseEmits now) := by
    rw [← List.flatMap_map, List.zipIdx_map_fst]
  have hserves : (s.slots.map (lcloseLeaves now)).any isAccepting = s.slots.any isAccepting := by
    simp only [List.any_map, Function.comp_def, isAccepting_lcloseLeaves]
  simp only [exec, execLclose, if_pos hl]
  refine (congrArg (fun t => (listenerCloseCheck t).done) hloop).trans ?_
  simp only [listenerCloseCheck, start_slots, start_events, List.nil_append, hevents, hserves, true_and]
  cases s.slots.any isAccepting
  · rfl
  · simp only [Bool.true_eq_false, if_true, if_false, List.append_nil]
    rfl

/-- Settles O19: every round of the listener's loop frees its own slot; a private socket's error is told by the
state and the grace flag of its context. -/
theorem socketErrorIsFatal : Obligations.SocketErrorIsFatal := by
  unfold Obligations.SocketErrorIsFatal
  refine ⟨fun now s => ⟨fun hl => ?_, fun hl hopen => ?_⟩,
    fun now i s => ⟨fun hc => exec_badConn_of_role rfl rfl hc,
      fun c hc => ⟨fun hs => ?_, fun hs hg => ?_, fun hs hg => ?_⟩⟩⟩
  · simp only [exec, execSockErr, if_pos hl]
    rfl
  · have hloop := failSlot_round.foldl_table
      (s := { s.start.emits [.evError .listener .errSocket] with lstate := .idle }) rfl hopen
    simp only [exec, execSockErr, if_neg hl]
    exact congrArg (fun t => State.done (t.emits [.sockClose .lsock])) hloop
  · simp only [exec, execSockErr, hc, if_pos hs]
    exact forceClose_noGrace_done (connectCtx?_eq_some.1 hc).2 hs _
  · simp only [exec, execSockErr, hc, hs, hg, ne_eq, not_true_eq_false, if_true, if_false]
    rfl
  · simp only [exec, execSockErr, hc, hs, hg, ne_eq, not_true_eq_false, Bool.false_eq_true, if_false]
    rfl

end Sys2Proof.Machine

/-! Proofs of the statements about the status reads (46_demux.md rules R201 to R203, 10_state.md rules R38 to R40). In
order: the values of the registers; which selectors are reserved; the three reads; the obligations. -/

namespace Sys2Proof.Machine

open Sys2Proof.Config

/-! ### The values of the registers (R38 to R40) -/

theorem toNat_registerOf {n : Nat} (h : n < 2 ^ 32) : (registerOf n).toNat = n := by
  rw [registerOf, if_pos h, BitVec.toNat_ofNat, Nat.mod_eq_of_lt h]

/-- The status word of a context, each field at its bit (R39). -/
theorem statusWord_eq (c : Ctx) :
    c.statusWord =
      BitVec.ofNat 32
        ((match c.state with | .connecting => 0 | .connected => 1 | .closed => 2) +
          4 * (match c.role with | .accept => 0 | .connect => 1) + 8 * c.bound.toNat + 16 * c.alive.toNat +
          32 * c.endReq.toNat + 64 * c.finSent.toNat + 128 * c.wdone.toNat + 256 * c.rdone.toNat +
          512 * c.pw.isSome.toNat + 1024 * (match c.pw with | some ⟨_, .flushWait⟩ => 1 | _ => 0) +
          2048 * c.synack.isSome.toNat + 4096 * c.grace.toNat) := by
  have hstate : c.state.code.toNat = match c.state with | .connecting => 0 | .connected => 1 | .closed => 2 := by
    cases c.state <;> rfl
  have hrole : c.role.code.toNat = match c.role with | .accept => 0 | .connect => 1 := by cases c.role <;> rfl
  have hphase : (phaseBit c.pw).toNat = match c.pw with | some ⟨_, .flushWait⟩ => 1 | _ => 0 := by
    rcases c.pw with _ | ⟨b, _ | _⟩ <;> rfl
  rw [← hstate, ← hrole, ← hphase, Ctx.statusWord, ← BitVec.ofNat_toNat]
  simp only [toNat_append_eq_mul_add, BitVec.toNat_ofBool]
  congr 1
  omega

theorem toNat_pwLen {c : Ctx} {w : PendingWrite} (hw : c.pw = some w) (h : w.data.length < 2 ^ 32) :
    c.pwLen.toNat = w.data.length := by
  simp only [Ctx.pwLen, hw]
  exact toNat_registerOf h

theorem pwLen_none {c : Ctx} (h : c.pw = none) : c.pwLen = 0 := by simp only [Ctx.pwLen, h]

theorem toNat_nConn {s : State} (h : (s.slots.filter Option.isSome).length < 2 ^ 32) :
    s.nConn.toNat = (s.slots.filter Option.isSome).length := by
  rw [State.nConn, List.countP_eq_length_filter, toNat_registerOf h]

/-! ### Reserved selectors (R38, R40, R203) -/

theorem ctx_register_reserved (c : Ctx) {r : Byte} (h : 8 < r.toNat) : c.register r = none := by
  unfold Ctx.register
  split
  case h_10 => rfl
  all_goals omega

theorem block_register_reserved (s : State) {r : Byte} (h : 2 < r.toNat) : s.register r = none := by
  unfold State.register
  split
  case h_4 => rfl
  all_goals omega

theorem ringSlot_reserved (c : Ctx) {which : Byte} (h : 1 < which.toNat) (q : U16) : c.ringSlot which q = none := by
  unfold Ctx.ringSlot
  split
  case h_3 => rfl
  all_goals omega

/-- Sequence numbers 512 apart read one slot of either ring (R114). -/
theorem ringSlot_add_mul (c : Ctx) (which : Byte) (q : U16) (k : Nat) :
    c.ringSlot which (q + BitVec.ofNat 16 (512 * k)) = c.ringSlot which q := by
  simp only [Ctx.ringSlot, ringGet_add_mul]

/-! ### The reads (R201 to R203) -/

section Reads

variable {s : State} {i : Nat} {c : Ctx} (now : U32)

theorem exec_ctxRead (hc : s.ctx? i = some c) {r : Byte} {v : Value} (hv : c.register r = some v) :
    exec (.ctxRead now i r) s = .next (s.unchanged [] .ok v) := by
  simp only [exec, execCtxRead, hc, hv]
  rfl

theorem exec_ctxRead_reserved (hc : s.ctx? i = some c) {r : Byte} (h : 8 < r.toNat) :
    exec (.ctxRead now i r) s = .next (s.unchanged [] (.refused .reservedReg) .none) := by
  simp only [exec, execCtxRead, hc, ctx_register_reserved c h]
  rfl

theorem exec_glbRead {r : Byte} {v : Value} (hv : s.register r = some v) :
    exec (.glbRead now r) s = .next (s.unchanged [] .ok v) := by
  simp only [exec, execGlbRead, hv]
  rfl

theorem exec_glbRead_reserved (s : State) {r : Byte} (h : 2 < r.toNat) :
    exec (.glbRead now r) s = .next (s.unchanged [] (.refused .reservedReg) .none) := by
  simp only [exec, execGlbRead, block_register_reserved s h]
  rfl

theorem exec_ringPeek (hc : s.ctx? i = some c) {which : Byte} {q : U16} {v : Value} (hv : c.ringSlot which q = some v) :
    exec (.ringPeek now i which q) s = .next (s.unchanged [] .ok v) := by
  simp only [exec, execRingPeek, hc, hv]
  rfl

theorem exec_ringPeek_reserved (hc : s.ctx? i = some c) {which : Byte} (h : 1 < which.toNat) (q : U16) :
    exec (.ringPeek now i which q) s = .next (s.unchanged [] (.refused .reservedReg) .none) := by
  simp only [exec, execRingPeek, hc, ringSlot_reserved c h q]
  rfl

end Reads

/-! ### The obligations -/

/-- Settles O48: the register map, each value in the terms of the context's fields. -/
theorem ctxReadAnswersTheRegisterMap : Obligations.CtxReadAnswersTheRegisterMap := by
  unfold Obligations.CtxReadAnswersTheRegisterMap
  refine fun now i s => ⟨fun r hc => exec_badConn rfl hc, fun c hc => ⟨fun r hr => exec_ctxRead_reserved now hc hr, ?_⟩⟩
  have read {r : Byte} {v w : Value} (hv : c.register r = some v) (hw : v = w) :
      exec (.ctxRead now i r) s = .next (s.unchanged [] .ok w) := hw ▸ exec_ctxRead now hc hv
  have widened {n : Nat} (x : BitVec n) : Value.reg (x.setWidth 32) = .reg (BitVec.ofNat 32 x.toNat) := by
    rw [BitVec.ofNat_toNat]
  exact ⟨read rfl (congrArg Value.reg (statusWord_eq c)), read rfl (widened _), read rfl (widened _),
    read rfl (widened _), read rfl (widened _), read rfl (widened _), read rfl rfl, read rfl rfl,
    fun hpw => read rfl (congrArg Value.reg (pwLen_none hpw)),
    fun w hw => ⟨c.pwLen, read rfl rfl, toNat_pwLen hw⟩⟩

/-- Settles O49: the block's registers. -/
theorem glbReadAnswersTheRegisterMap : Obligations.GlbReadAnswersTheRegisterMap := by
  unfold Obligations.GlbReadAnswersTheRegisterMap
  refine fun now s => ⟨fun r hr => exec_glbRead_reserved now s hr, ?_, ⟨s.nConn, exec_glbRead now rfl, toNat_nConn⟩,
    ⟨registerOf s.maxConn, exec_glbRead now rfl, toNat_registerOf⟩⟩
  rw [exec_glbRead now (r := 0) rfl, State.statusWord]
  cases s.lstate <;> rfl

/-- Settles O50: the selectors of the two rings. -/
theorem ringPeekReadsOneSlot : Obligations.RingPeekReadsOneSlot := by
  unfold Obligations.RingPeekReadsOneSlot
  refine fun now i which q s => ⟨fun hc => exec_badConn rfl hc, fun c hc =>
    ⟨fun h => exec_ringPeek_reserved now hc h q, exec_ringPeek now hc rfl, exec_ringPeek now hc rfl, fun k => ?_⟩⟩
  simp only [exec, execRingPeek, hc, ringSlot_add_mul]

end Sys2Proof.Machine

/-! Proofs of the statements about steps that find no instruction, datagrams that are no packet, and stops
(60_exceptions.md rules R221, R229, R239). In order: answers that are next states; the commands that complete in every
state; the receive paths, by the cached SYN-ACK (R32); the retransmit tick, by the outgoing ring (R48); every
instruction; datagrams that are short or of an unknown type; the obligations. -/

namespace Sys2Proof.Machine

open Sys2Proof.Config

/-! ### Answers that are next states -/

/-- The operation ends in a next state: no fault, no refusal of the model. -/
def Completes (a : Answer) : Prop := ∃ t, a = .next t

theorem completes_answer (s : State) (st : Status) (v : Value) : Completes (s.answer st v) := ⟨_, rfl⟩

theorem Completes.ite {p : Prop} [Decidable p] {a b : Answer} (ha : Completes a) (hb : Completes b) :
    Completes (if p then a else b) := by
  split
  · exact ha
  · exact hb

/-! ### Commands that complete in every state -/

section Commands

variable (now : U32) (c : Nat) (s : State)

theorem execDecode_completes (b : Bytes) : Completes (execDecode now b s) := by
  unfold execDecode
  split <;> exact completes_answer ..

theorem execListen_completes : Completes (execListen now s) := .ite (completes_answer ..) (completes_answer ..)

theorem execLclose_completes : Completes (execLclose now s) := .ite (completes_answer ..) (completes_answer ..)

theorem execConnect_completes (addr : Addr) (isn : U16) : Completes (execConnect now addr isn s) := by
  unfold execConnect
  split <;> exact completes_answer ..

theorem execBound_completes (port : U16) : Completes (execBound now c port s) := by
  unfold execBound
  split
  · exact completes_answer ..
  · exact .ite (completes_answer ..) (completes_answer ..)

theorem execGraceExpired_completes : Completes (execGraceExpired now c s) := by
  unfold execGraceExpired
  split
  · exact completes_answer ..
  · exact .ite (completes_answer ..) (completes_answer ..)

theorem execWrite_completes (b : Bytes) : Completes (execWrite now c b s) := by
  unfold execWrite
  split
  · exact completes_answer ..
  · exact .ite (completes_answer ..) (completes_answer ..)

theorem execEndWrite_completes : Completes (execEndWrite now c s) := by
  unfold execEndWrite
  split
  · exact completes_answer ..
  · exact .ite (completes_answer ..) (completes_answer ..)

theorem execReadEnd_completes : Completes (execReadEnd now c s) := by
  unfold execReadEnd
  split
  · exact completes_answer ..
  · exact .ite (completes_answer ..) (completes_answer ..)

theorem execTickKa_completes : Completes (execTickKa now c s) := by
  unfold execTickKa
  split
  · exact completes_answer ..
  · exact .ite (completes_answer ..) (completes_answer ..)

theorem execSockErr_completes (sock : Sock) : Completes (execSockErr now sock s) := by
  unfold execSockErr
  split
  · exact .ite (completes_answer ..) (completes_answer ..)
  · split
    · exact completes_answer ..
    · exact .ite (completes_answer ..) (.ite (completes_answer ..) (completes_answer ..))

theorem execCtxRead_completes (r : Byte) : Completes (execCtxRead now c r s) := by
  unfold execCtxRead
  split
  · exact completes_answer ..
  · split <;> exact completes_answer ..

theorem execGlbRead_completes (r : Byte) : Completes (execGlbRead now r s) := by
  unfold execGlbRead
  split <;> exact completes_answer ..

theorem execRingPeek_completes (which : Byte) (q : U16) : Completes (execRingPeek now c which q s) := by
  unfold execRingPeek
  split
  · exact completes_answer ..
  · split <;> exact completes_answer ..

end Commands

/-! ### The receive paths (R142, R192, R198) -/

/-- A legal accepting-role context has its SYN-ACK (R32, R46). -/
theorem CtxInv.exists_synack {i : Nat} {c : Ctx} (h : CtxInv i c) (hr : c.role = .accept) :
    ∃ sa, c.synack = some sa := by
  obtain ⟨-, -, -, -, hsa⟩ := h.accepting hr
  obtain ⟨sa, hsa, -⟩ := Option.map_eq_some_iff.1 hsa
  exact ⟨sa, hsa⟩

/-- Receive processing at a legal context raises no fault: a duplicate SYN finds its SYN-ACK (R140, R142). -/
theorem CtxInv.recvIncoming_ok {i : Nat} {c : Ctx} (h : CtxInv i c) (now : U32) (p : Packet) (s : State) :
    ∃ r, recvIncoming now i c p s = .ok r := by
  by_cases hs : c.state = .closed
  · exact ⟨_, recvIncoming_closed hs ..⟩
  by_cases hsyn : p.type = tySyn
  · cases hr : c.role with
    | connect => exact ⟨_, recvIncoming_syn_connect hsyn hr ..⟩
    | accept =>
      obtain ⟨sa, hsa⟩ := h.exists_synack hr
      exact ⟨_, recvIncoming_syn hs hsyn hr hsa ..⟩
  by_cases hres : p.type = tyReset
  · exact ⟨_, recvIncoming_reset hs hres ..⟩
  · exact ⟨_, recvIncoming_open hs hsyn hres ..⟩

/-- A dispatch to a legal context completes. -/
theorem CtxInv.afterReceive_completes {i : Nat} {c : Ctx} (h : CtxInv i c) (now : U32) (sock : Sock) (addr : Addr)
    (raw : Bytes) (p : Packet) (s : State) : Completes (afterReceive i sock addr raw (recvIncoming now i c p s)) := by
  obtain ⟨r, hr⟩ := h.recvIncoming_ok now p s
  rw [hr, afterReceive_ok]
  exact completes_answer ..

section Legal

variable {s : State} (hs : EngineInv s) (now : U32)

include hs

theorem routeListener_completes (addr : Addr) (raw : Bytes) (isn : U16) (p : Packet) :
    Completes (routeListener now addr raw isn p s) := by
  unfold routeListener
  split
  case h_1 i _ =>
    split
    case h_1 c hc => exact (hs.ctx i c hc).afterReceive_completes ..
    case h_2 => exact completes_answer ..
  case h_2 =>
    refine .ite (completes_answer ..) (.ite (completes_answer ..) ?_)
    split <;> exact completes_answer ..

theorem routePrivate_completes {i : Nat} {c : Ctx} (hc : s.connectCtx? i = some c) (addr : Addr) (raw : Bytes)
    (p : Packet) : Completes (routePrivate now i c addr raw p s) :=
  .ite (completes_answer ..) (.ite (completes_answer ..)
    ((hs.ctx i c (connectCtx?_eq_some.1 hc).1).afterReceive_completes ..))

theorem receiveWire_completes (rx : Rx) (raw : Bytes) (p : Packet) : Completes (receiveWire now rx raw p s) := by
  cases rx with
  | lsock addr isn => exact routeListener_completes hs ..
  | psock i addr =>
    simp only [receiveWire]
    split
    case h_1 => exact completes_answer ..
    case h_2 c hc => exact .ite (completes_answer ..) (routePrivate_completes hs now hc ..)

theorem execDgramL_completes (addr : Addr) (b : Bytes) (isn : U16) : Completes (execDgramL now addr b isn s) := by
  unfold execDgramL
  split
  · exact completes_answer ..
  · exact .ite (completes_answer ..) (routeListener_completes hs ..)

theorem execDgramP_completes (i : Nat) (addr : Addr) (b : Bytes) : Completes (execDgramP now i addr b s) := by
  unfold execDgramP
  split
  case h_1 => exact completes_answer ..
  case h_2 c hc =>
    refine .ite (completes_answer ..) ?_
    split
    · exact completes_answer ..
    · exact .ite (completes_answer ..) (routePrivate_completes hs now hc ..)

end Legal

/-! ### The retransmit tick (R48, R181) -/

/-- The entries in flight, the oldest first (R48). -/
theorem OutRingOk.exists_entries {c : Ctx} (h : OutRingOk c) :
    ∃ es : List OutEntry, es.length = c.inFlight.toNat ∧
      ∀ k e, es[k]? = some e → ringGet c.outRing (c.base + BitVec.ofNat 16 k) = some e := by
  obtain ⟨-, -, hin, -⟩ := h
  have hentry (k : Fin c.inFlight.toNat) : ∃ e, ringGet c.outRing (c.base + BitVec.ofNat 16 k) = some e := by
    obtain ⟨e, he, -⟩ := Option.map_eq_some_iff.1 (hin k k.isLt)
    exact ⟨e, he⟩
  choose entry hentry using hentry
  refine ⟨List.ofFn entry, List.length_ofFn, fun k e hk => ?_⟩
  obtain ⟨hlt, rfl⟩ := List.getElem?_eq_some_iff.1 hk
  rw [List.getElem_ofFn]
  exact hentry ⟨k, _⟩

/-- At a legal context the scan and the look at its oldest entry read no empty slot (R48, R181). -/
theorem exec_tickRetx_completes {s : State} (hs : EngineInv s) (now : U32) (i : Nat) :
    Completes (exec (.tickRetx now i) s) := by
  cases hc : s.ctx? i with
  | none => exact ⟨_, exec_badConn rfl hc⟩
  | some c =>
    by_cases hidle : c.state = .closed ∨ c.bound = false ∨ c.inFlight = 0
    · exact ⟨_, exec_tickRetx_idle now hc hidle⟩
    have hout := (hs.ctx i c hc).out
    obtain ⟨es, hlen, hring⟩ := hout.exists_entries
    cases es with
    | nil => exact absurd (.inr (.inr (BitVec.eq_of_toNat_eq hlen.symm))) hidle
    | cons first es =>
      have hfirst : ringGet c.outRing c.base = some first := by simpa using hring 0 first rfl
      cases hexp : first.expired now with
      | false => exact ⟨_, exec_tickRetx_young now hc hidle hfirst hexp⟩
      | true =>
        obtain ⟨-, hcap, -, -⟩ := hout
        obtain ⟨r, -, hscan⟩ :=
          retxLoop_scans (now := now) (refresh := s.retxTagRefresh) (hlen.trans_le hcap) (c := c) [] hring
        exact ⟨_, exec_tickRetx_scan now hc hidle hfirst hexp (hlen ▸ hscan)⟩

/-! ### Every instruction, and a frame that is none -/

/-- Every instruction completes in a legal state. -/
theorem exec_completes {s : State} (hs : EngineInv s) (op : Instr) : Completes (exec op s) := by
  cases op with
  | data now rx hd pl => exact receiveWire_completes hs ..
  | fin now rx hd pl => exact receiveWire_completes hs ..
  | state now rx hd pl => exact receiveWire_completes hs ..
  | reset now rx hd pl => exact receiveWire_completes hs ..
  | syn now rx hd pl => exact receiveWire_completes hs ..
  | encode now p => exact completes_answer ..
  | decode now b => exact execDecode_completes now s b
  | ringPut now q v => exact completes_answer ..
  | ringGet now q => exact completes_answer ..
  | ringDel now q => exact completes_answer ..
  | listen now => exact execListen_completes now s
  | lclose now => exact execLclose_completes now s
  | dgramL now addr b isn => exact execDgramL_completes hs ..
  | connect now addr isn => exact execConnect_completes now s addr isn
  | bound now c port => exact execBound_completes now c s port
  | dgramP now c addr b => exact execDgramP_completes hs ..
  | graceExpired now c => exact execGraceExpired_completes now c s
  | write now c b => exact execWrite_completes now c s b
  | endWrite now c => exact execEndWrite_completes now c s
  | readEnd now c => exact execReadEnd_completes now c s
  | tickRetx now c => exact exec_tickRetx_completes hs now c
  | tickKa now c => exact execTickKa_completes now c s
  | sockErr now sock => exact execSockErr_completes now s sock
  | ctxRead now c r => exact execCtxRead_completes now c s r
  | glbRead now r => exact execGlbRead_completes now s r
  | ringPeek now c which q => exact execRingPeek_completes now c s which q

/-- The command that carries a datagram received on a socket (R192, R198). -/
def datagramCommand (now : U32) (rx : Rx) (B : Bytes) : Instr :=
  match rx with
  | .lsock addr isn => .dgramL now addr B isn
  | .psock c addr => .dgramP now c addr B

theorem rejectFrame_datagram (now : U32) (rx : Rx) (B : Bytes) (s : State) :
    rejectFrame (.datagram now rx B) s = exec (datagramCommand now rx B) s := by
  cases rx <;> rfl

/-- A frame that holds no instruction is refused, discarded or surfaced in a legal state (R88, R221). -/
theorem rejectFrame_completes {s : State} (hs : EngineInv s) (f : Frame) : Completes (rejectFrame f s) := by
  cases f with
  | command op now a => exact completes_answer ..
  | datagram now rx B =>
    rw [rejectFrame_datagram]
    exact exec_completes hs (datagramCommand now rx B)

/-! ### Datagrams that are no packet (R221) -/

section Datagrams

variable {s : State} {B : Bytes} (now : U32)

theorem exec_dgramL_short (h : B.length < 20) (addr : Addr) (isn : U16) :
    exec (.dgramL now addr B isn) s = .next (s.unchanged [] .ok .none) := by
  simp only [exec, execDgramL, decodePacket_short h]
  rfl

/-- Bound or not, the context is not looked at further. -/
theorem exec_dgramP_short (h : B.length < 20) {i : Nat} {c : Ctx} (hc : s.connectCtx? i = some c) (addr : Addr) :
    exec (.dgramP now i addr B) s = .next (s.unchanged [] .ok .none) := by
  simp only [exec, execDgramP, hc, decodePacket_short h, ite_self]
  rfl

/-- The type code of a byte string's packet is the high nibble of byte 0 (R81, R83). -/
theorem toNat_packetIn_type (B : Bytes) : (packetIn B).type.toNat = (B.getD 0 0).toNat / 16 := toNat_wireType B

theorem exec_dgramL_unknownType (hlen : 20 ≤ B.length) (hty : 4 < (packetIn B).type.toNat) (addr : Addr) (isn : U16) :
    exec (.dgramL now addr B isn) s = .next (s.unchanged [.unrecognized .lsock addr B] .ok .none) := by
  simp only [exec, execDgramL, decodePacket_long hlen, if_pos hty]
  rfl

theorem exec_dgramP_unknownType (hlen : 20 ≤ B.length) (hty : 4 < (packetIn B).type.toNat) {i : Nat} {c : Ctx}
    (hc : s.connectCtx? i = some c) (hb : c.bound = true) (addr : Addr) :
    exec (.dgramP now i addr B) s = .next (s.unchanged [.unrecognized (.psock i) addr B] .ok .none) := by
  simp only [exec, execDgramP, hc, hb, Bool.true_eq_false, if_false, decodePacket_long hlen, if_pos hty]
  rfl

end Datagrams

/-! ### The obligations -/

/-- Settles O55: the two faults need an empty slot in the outgoing window or a missing SYN-ACK, and a legal state has
neither. -/
theorem legalStatesNeverStop : Obligations.LegalStatesNeverStop := by
  unfold Obligations.LegalStatesNeverStop
  intro s hs
  unfold step
  split
  case h_1 => exact ⟨s, rfl⟩
  case h_2 f rest _ =>
    have hsame : SameBlock s { s with port := rest } := ⟨rfl, rfl, rfl⟩
    have htaken : EngineInv { s with port := rest } := hsame.engineInv hs
    split
    case h_1 op _ => exact exec_completes htaken op
    case h_2 => exact rejectFrame_completes htaken f

/-- Settles O8: the length decides first, then the type code. -/
theorem shortDiscardedUnknownTypeSurfaced : Obligations.ShortDiscardedUnknownTypeSurfaced := by
  unfold Obligations.ShortDiscardedUnknownTypeSurfaced
  intro now B s
  refine ⟨fun hlen => ⟨exec_decode_short now s hlen, exec_dgramL_short now hlen,
      fun c addr x hx => exec_dgramP_short now hlen hx addr⟩,
    fun hlen => ⟨packetIn B, exec_decode_long now s hlen⟩, fun hlen hnibble => ?_⟩
  have hty : 4 < (packetIn B).type.toNat := by
    rw [toNat_packetIn_type]
    exact hnibble
  exact ⟨exec_dgramL_unknownType now hlen hty, fun c addr x hx hb => exec_dgramP_unknownType now hlen hty hx hb addr⟩

/-- Settles O10: with no frame `step` answers its own state, and a datagram without an instruction goes through
`rejectFrame`. -/
theorem stepWithoutAnInstruction : Obligations.StepWithoutAnInstruction := by
  unfold Obligations.StepWithoutAnInstruction
  refine ⟨fun s hport => by simp only [step, hport], fun s now rx B rest e hport hdecode => ?_⟩
  have hstep : step s = rejectFrame (.datagram now rx B) { s with port := rest } := by
    simp only [step, hport, hdecode]
  rw [hstep, rejectFrame_datagram]
  cases rx <;> rfl

end Sys2Proof.Machine
